-- ==== Sys2Proof/Word.lean ====
section
/-! DEFINITION. The two machine words of the HCP protocol engine (R9, R10 of 00_scope.md): bytes and 16-bit values. -/

namespace Sys2Proof

/-- `u8` (R10): addresses, function codes, byte counts, frame bytes. -/
abbrev Byte := BitVec 8

/-- `u16` (R9, R10): checksums, register addresses, values and quantities, action codes, millisecond timers. -/
abbrev Word := BitVec 16

end Sys2Proof
end

