-- ==== Sys2Proof/Config.lean ====
section
/-! DEFINITION. The configuration record `Cfg` (R8 of 00_scope.md, R63 of 20_memory.md) as plain data, its legal
ranges, and the configuration `Config.cfg` of the machine after reset: the spec's values, and opaque constants for the
fields the spec leaves OPEN (logs 1, 2, 3). -/

namespace Sys2Proof

/-- `cur_kind` (R26 of 10_state.md). -/
inductive PollKind where
  | busScan | commandPoll
  deriving DecidableEq, Repr, Inhabited

/-- `status.state` (R31). -/
inductive DoorState where
  | idle | opening | closing | error | unknown
  deriving DecidableEq, Repr, Inhabited

/-- DriveStatus (R15, R31): position in half percent, 0..200. -/
structure DriveStatus where
  position : Byte
  state : DoorState
  deriving DecidableEq, Repr, Inhabited

/-- `SCAN_POLICY` (R8, R203). -/
inductive ScanPolicy where
  | firstTickOnly | untilFirstSuccess | rescanOnDisconnect
  deriving DecidableEq, Repr, Inhabited

/-- `AGENT_KIND` (R8): changes nothing but expected parameter values. -/
inductive AgentKind where
  | lowPower | highPerf
  deriving DecidableEq, Repr, Inhabited

/-- The configuration record (R8). The three total functions of R8 are held as finite tables, which represent each of
them exactly on its finite domain (log 3). `sharedBase` is the parameter of R63 that no rule reads. -/
structure Cfg where
  pollReadAddr : Word
  actionWriteAddr : Word
  readQtyScan : Word
  readQtyPoll : Word
  pollIntervalMs : Word
  responseTimeoutMs : Word
  timeoutThreshold : BitVec 8
  firstTickDelayMs : Word
  minFrameLen : Nat
  scanPolicy : ScanPolicy
  stateTable : List (Word × DoorState)
  posTable : List (Word × Byte)
  pollTable : List ((PollKind × List Word) × DriveStatus)
  hasDe : Bool
  hasWake : Bool
  agentKind : AgentKind
  fClkHz : Nat
  sharedBase : Nat
  deriving DecidableEq, Repr

/-- Rounding to the nearest integer, halves up (log 20), for the divisors of R242. -/
def roundDiv (a b : Nat) : Nat := (2 * a + b) / (2 * b)

/-- `BAUD_DIV = round(F_CLK_HZ / 57600)` (R8, R242). -/
def Cfg.baudDiv (c : Cfg) : Nat := roundDiv c.fClkHz 57600

/-- `OS_DIV = round(F_CLK_HZ / (16 × 57600))` (R8, R242). -/
def Cfg.osDiv (c : Cfg) : Nat := roundDiv c.fClkHz 921600

/-- `MS_DIV = floor(F_CLK_HZ / 1000)` (R8, R242, conflict C8). -/
def Cfg.msDiv (c : Cfg) : Nat := c.fClkHz / 1000

/-- A clock `f` divided by `div` lies within 2 percent of `rate` (R250 of 44_uart.md), in whole numbers. -/
def rateWithin (f div rate : Nat) : Bool :=
  decide (0 < div ∧ 100 * f ≤ 102 * (rate * div) ∧ 98 * (rate * div) ≤ 100 * f)

/-- Both realised rates meet R250, and the millisecond divider exists. -/
def clockOk (f : Nat) : Bool :=
  rateWithin f (roundDiv f 57600) 57600 && rateWithin f (roundDiv f 921600) 921600 && decide (1000 ≤ f)

/-- The legal ranges of R8 (00_scope.md) and R312 (70_reset_and_hazards.md). Outside them the spec gives no behaviour
(U13 of 93_implementation_defined.md). -/
abbrev Cfg.Legal (c : Cfg) : Prop :=
  3 ≤ c.readQtyScan.toNat ∧ c.readQtyScan.toNat ≤ 126 ∧
  c.readQtyScan.toNat < c.readQtyPoll.toNat ∧ c.readQtyPoll.toNat ≤ 127 ∧
  1 ≤ c.pollIntervalMs.toNat ∧ 1 ≤ c.responseTimeoutMs.toNat ∧ 1 ≤ c.timeoutThreshold.toNat ∧
  c.firstTickDelayMs.toNat ≤ c.pollIntervalMs.toNat ∧
  (c.minFrameLen = 4 ∨ c.minFrameLen = 5) ∧ clockOk c.fClkHz = true

/-- OPEN (D8): the read quantity of a CommandPoll. -/
opaque Config.freeReadQtyPoll : Word
/-- OPEN (D4): the poll interval. -/
opaque Config.freePollIntervalMs : Word
/-- OPEN (D22): the delay before the first tick. -/
opaque Config.freeFirstTickDelayMs : Word
/-- OPEN (D17): the state codes. -/
opaque Config.freeStateTable : List (Word × DoorState)
/-- OPEN (D18): positions of register values above 200. -/
opaque Config.freePosTable : List (Word × Byte)
/-- OPEN (D19): the status fields embedded in a poll response. -/
opaque Config.freePollTable : List ((PollKind × List Word) × DriveStatus)
/-- OPEN: whether the direction pin is wired. -/
opaque Config.freeHasDe : Bool
/-- OPEN (D26): whether the wake output exists. -/
opaque Config.freeHasWake : Bool
/-- OPEN: which execution agent is instantiated. -/
opaque Config.freeAgentKind : AgentKind
/-- OPEN (D28): the clock frequency. -/
opaque Config.freeFClkHz : Nat
/-- OPEN (R63): the base address of the shared region in the host's map. -/
opaque Config.freeSharedBase : Nat

/-- `READ_QTY_POLL` (R8): free in `READ_QTY_SCAN + 1 .. 127`. The value 8 stands only where the free value is out of
that range, as do the others below (log 2). -/
def Config.readQtyPoll : Word :=
  if 6 ≤ Config.freeReadQtyPoll.toNat ∧ Config.freeReadQtyPoll.toNat ≤ 127 then Config.freeReadQtyPoll else 8

/-- `POLL_INTERVAL_MS` (R8): free in 1..65535. -/
def Config.pollIntervalMs : Word :=
  if 1 ≤ Config.freePollIntervalMs.toNat then Config.freePollIntervalMs else 500

/-- `FIRST_TICK_DELAY_MS` (R8): free in 0..`POLL_INTERVAL_MS`. -/
def Config.firstTickDelayMs : Word :=
  if Config.freeFirstTickDelayMs.toNat ≤ Config.pollIntervalMs.toNat then Config.freeFirstTickDelayMs else 0

/-- `F_CLK_HZ` (R8): free among the frequencies that meet R250. -/
def Config.fClkHz : Nat := if clockOk Config.freeFClkHz then Config.freeFClkHz else 14745600

/-- The configuration after reset (R8): the spec's values where it takes one, free values where a field is OPEN. -/
def Config.cfg : Cfg where
  pollReadAddr := 0x9CB9
  actionWriteAddr := 0x9C41
  readQtyScan := 5
  readQtyPoll := Config.readQtyPoll
  pollIntervalMs := Config.pollIntervalMs
  responseTimeoutMs := 200
  timeoutThreshold := 3
  firstTickDelayMs := Config.firstTickDelayMs
  minFrameLen := 5
  scanPolicy := .rescanOnDisconnect
  stateTable := Config.freeStateTable
  posTable := Config.freePosTable
  pollTable := Config.freePollTable
  hasDe := Config.freeHasDe
  hasWake := Config.freeHasWake
  agentKind := Config.freeAgentKind
  fClkHz := Config.fClkHz
  sharedBase := Config.freeSharedBase

end Sys2Proof
end

