-- ==== Sys2Proof/Syntax.lean ====
section
/-! DEFINITION. The operations of the engine (R96 of 30_encoding.md), one constructor of `Instr` for each row of
spec/opcode_table.json, and the words that select them: input events (R13), wire frames, host accesses, internal
invocations, and the pins of one clock edge (R240). -/

namespace Sys2Proof

/-- The event-level inputs (R13 of 00_scope.md). `rxCharErr framing` says which of the two cases of R247 occurred:
a stop bit of 0 (`true`) or wrong parity (`false`); log 19. -/
inductive Event where
  | reset
  | msTick
  | hostWriteAction (code : Word)
  | hostReadStatus
  | rxChar (b : Byte)
  | rxCharErr (framing : Bool)
  | txFrameDone
  deriving DecidableEq, Repr

/-- What UART.TXCHAR does at one clock (R243 of 44_uart.md): take a byte, or pass one `bit_tick`. -/
inductive TxAct where
  | load (d : Byte)
  | bitTick
  deriving DecidableEq, Repr

/-- What UART.RXCHAR does (R245 to R248): pass one `os_tick` with the synchronised line level, or, at the event level,
report a character error (R247). -/
inductive RxAct where
  | osTick (level : Bool)
  | charErr (framing : Bool)
  deriving DecidableEq, Repr

/-- The 27 operations (R96). The docstring of each meaning cites its rule. -/
inductive Instr where
  | crcInit
  | crcUpdate (b : Byte)
  | crcRead
  | encode (address function : Byte) (payload : List Byte)
  | decode (frame : List Byte)
  | rxPush (b : Byte)
  | rxScan
  | txNext
  | pollreqScan (a : Word)
  | pollreqCmd (a : Word)
  | pollrsp (payload : List Byte) (sum : Word)
  | bcast (payload : List Byte) (sum : Word)
  | enqueue (code : Word)
  | currentStatus
  | isConnected
  | tMstick
  | tTick
  | tTxdone
  | tRsp (frame : List Byte)
  | tCompleted
  | tTimeout
  | tCrcfail
  | tTimedout
  | uartBaud
  | uartTxchar (act : TxAct)
  | uartRxchar (act : RxAct)
  | reset
  deriving DecidableEq, Repr

/-- The operations R96 calls internal, transitions or clock level: they have no bit pattern and are selected by the
rule that invokes them. -/
inductive InternalOp where
  | crcInit | crcUpdate | crcRead | encode | decode | rxScan | txNext
  | tTick | tRsp | tCompleted | tTimeout | tCrcfail | tTimedout
  | uartBaud | uartTxchar | uartRxchar
  deriving DecidableEq, Repr

/-- What selects one operation (R96): the bytes of a transmitted or received wire frame, a host access with its offset
in the shared region (and, for a read, the bits `hi:lo` the call takes), an event, or an internal invocation with its
operand bytes in the order of its rule (log 27). -/
inductive OpWord where
  | wireTx (bytes : List Byte)
  | wireRx (bytes : List Byte)
  | hostWrite (offset : BitVec 2) (data : Word)
  | hostRead (offset : BitVec 2) (hi lo : Nat)
  | event (e : Event)
  | internal (op : InternalOp) (operands : List Byte)
  deriving DecidableEq, Repr

/-- The input pins sampled by one rising edge of `clk` (R240). `hAddr` is false for STATUS, true for ACTION. -/
structure PinsIn where
  rstN : Bool := true
  uartRx : Bool := true
  hSel : Bool := false
  hWe : Bool := false
  hAddr : Bool := false
  hWdata : Word := 0
  deriving DecidableEq, Repr

/-- One pending input: an operation's word, or a clock edge. -/
inductive Input where
  | op (w : OpWord)
  | clk (p : PinsIn)
  deriving DecidableEq, Repr

/-- A word that comes from outside the block (an event of R13, or a host access at one of the two offsets of R291), not an
internal invocation or a whole frame. -/
def OpWord.external : OpWord → Bool
  | .event _ => true
  | .hostWrite offset _ | .hostRead offset _ _ => offset == 0 || offset == 2
  | .wireTx _ | .wireRx _ | .internal _ _ => false

/-- An input that the environment can supply: every clock edge, and the external words. -/
def Input.external : Input → Bool
  | .op w => w.external
  | .clk _ => true

/-- A frame as DECODE returns it (R142 of 41_frame_codec.md). -/
structure Frame where
  address : Byte
  function : Byte
  payload : List Byte
  checksum : Word
  deriving DecidableEq, Repr

/-- The three results of DECODE (R142). -/
inductive DecodeResult where
  | frame (fr : Frame)
  | truncated
  | checksumMismatch
  deriving DecidableEq, Repr

/-- The answers of `classify` (R145). -/
inductive Candidate where
  | reject
  | needMore
  | complete (len : Nat)
  deriving DecidableEq, Repr

/-- The outcome of one received character (R247). -/
inductive CharOutcome where
  | good (d : Byte)
  | framingError
  | parityError
  deriving DecidableEq, Repr

/-- The scheduler's phases (R25 of 10_state.md). -/
inductive Phase where
  | idle | sending | awaiting | completed | timedOut
  deriving DecidableEq, Repr

/-- The four error kinds (R270 of 60_exceptions.md). -/
inductive ErrorKind where
  | truncated | checksumMismatch | malformedStatus | responseTimeout
  deriving DecidableEq, Repr

/-- One output of a step: the event outputs of R280 and the output lines of R104. -/
inductive Out where
  | err (kind : ErrorKind) (info : Word)
  | drvAction (code : Word)
  | wake
  | tx (bytes : List Byte)
  | de (level : Bool)
  | status (word : Word)
  | read (word : Word)
  deriving DecidableEq, Repr

end Sys2Proof
end

