-- ==== Sys2Proof/Machine/Operands.lean ====
section
/-! DEFINITION. Field assembly and byte order (R10, R11, R92), the CRC function (R121 to R123, R127), the frame formats
(R90 to R95), `classify` (R145) and DECODE as a function (R142). All of it is pure. -/

namespace Sys2Proof.Machine

/-- `v[15:8]` (R10). -/
def hiByte (v : Word) : Byte := v.extractLsb' 8 8

/-- `v[7:0]` (R10). -/
def loByte (v : Word) : Byte := v.extractLsb' 0 8

/-- `{hi, lo}` (R10): concatenation, `hi` in the more significant bits. -/
def joinBytes (hi lo : Byte) : Word := hi ++ lo

/-- `B[k]` (R11); every rule reads inside the sequence, so the value past the end is never used. -/
def byteAt (B : List Byte) (k : Nat) : Byte := B.getD k 0

/-- `be16(B, k) = (B[k] << 8) | B[k+1]` (R11, R67). -/
def be16 (B : List Byte) (k : Nat) : Word := joinBytes (byteAt B k) (byteAt B (k + 1))

/-- `le16(B, k) = B[k] | (B[k+1] << 8)` (R11, R66). -/
def le16 (B : List Byte) (k : Nat) : Word := joinBytes (byteAt B (k + 1)) (byteAt B k)

/-- `B[i..j)` (R11). -/
def slice (B : List Byte) (i j : Nat) : List Byte := (B.take j).drop i

/-- `x[i] = be16(D, 2i)` (R12, R68, R72): the register values carried by register data, in slot order. -/
def wordsOf : List Byte → List Word
  | hi :: lo :: rest => joinBytes hi lo :: wordsOf rest
  | _ => []

/-- One of the eight iterations of R121, lines 3 and 4: the test looks at bit 0 before the shift. -/
def crcShift (c : Word) : Word := if c.getLsbD 0 then (c >>> 1) ^^^ 0xA001 else c >>> 1

/-- `n` iterations of R121's loop. -/
def crcShifts : Nat → Word → Word
  | 0, c => c
  | n + 1, c => crcShifts n (crcShift c)

/-- CRC.UPDATE as a function of the accumulator and the byte (R121): the byte enters the low half by exclusive or. -/
def crcByte (c : Word) (b : Byte) : Word := crcShifts 8 (c ^^^ b.setWidth 16)

/-- `crc16` (R123): from the seed 0xFFFF, the bytes in ascending order. -/
def crc16 (B : List Byte) : Word := B.foldl crcByte 0xFFFF

/-- One bit of the bit-serial engine of R127. -/
def crcSerialBit (c : Word) (d : Bool) : Word :=
  if c.getLsbD 0 ^^ d then (c >>> 1) ^^^ 0xA001 else c >>> 1

/-- The bit-serial engine of R127: the eight bits of `b`, least significant first. -/
def crcByteSerial (c : Word) (b : Byte) : Word :=
  (List.range 8).foldl (fun acc i => crcSerialBit acc (b.getLsbD i)) c

/-- A frame of format G (R90, R140 lines 1 to 3): the checksum over all the bytes before it, low byte first. -/
def frameBytes (address function : Byte) (payload : List Byte) : List Byte :=
  let B := address :: function :: payload
  B ++ [loByte (crc16 B), hiByte (crc16 B)]

/-- The read quantity of a poll of this kind (R93, R185). -/
def readQty (c : Cfg) : PollKind → Word
  | .busScan => c.readQtyScan
  | .commandPoll => c.readQtyPoll

/-- The 11 payload bytes of a poll request (R93, R185). -/
def pollPayload (c : Cfg) (kind : PollKind) (a : Word) : List Byte :=
  [hiByte c.pollReadAddr, loByte c.pollReadAddr, hiByte (readQty c kind), loByte (readQty c kind),
   hiByte c.actionWriteAddr, loByte c.actionWriteAddr, 0x00, 0x01, 0x02, hiByte a, loByte a]

/-- The 15 bytes of a poll request, BUILD_POLL of R185. -/
def pollFrame (c : Cfg) (kind : PollKind) (a : Word) : List Byte := frameBytes 0x02 0x17 (pollPayload c kind a)

/-- The bytes of a received frame whose checksum field holds `sum` (R90). -/
def rawFrame (address function : Byte) (payload : List Byte) (sum : Word) : List Byte :=
  address :: function :: payload ++ [loByte sum, hiByte sum]

/-- `classify` (R145; the length rule is R97). -/
def classify (c : Cfg) (phase : Phase) (kind : PollKind) (B : List Byte) : Candidate :=
  let n := B.length
  let q := (readQty c kind).toNat
  let k := (byteAt B 6).toNat
  if byteAt B 0 = 0x00 then
    if 2 ≤ n ∧ byteAt B 1 ≠ 0x10 then .reject
    else if 7 ≤ n ∧ (250 < k ∨ k ≠ 2 * (be16 B 4).toNat) then .reject
    else if n < 7 then .needMore
    else if n < 9 + k then .needMore
    else .complete (9 + k)
  else if byteAt B 0 = 0x02 ∧ phase = .awaiting then
    if 2 ≤ n ∧ byteAt B 1 ≠ 0x17 then .reject
    else if 3 ≤ n ∧ (byteAt B 2).toNat ≠ 2 * q then .reject
    else if n < 5 + 2 * q then .needMore
    else .complete (5 + 2 * q)
  else .reject

/-- DECODE as a function (R142): the length test comes before the checksum test; no other field is checked. -/
def decodeFrame (minLen : Nat) (F : List Byte) : DecodeResult :=
  let L := F.length
  if L < minLen then .truncated
  else if crc16 (F.take (L - 2)) ≠ le16 F (L - 2) then .checksumMismatch
  else .frame ⟨byteAt F 0, byteAt F 1, slice F 2 (L - 2), crc16 (F.take (L - 2))⟩

/-- The register values of a poll response (R94, R180): `x[i] = be16(rsp, 3 + 2i)` for `0 ≤ i < q`. -/
def responseWords (q : Word) (rsp : List Byte) : List Word := wordsOf ((rsp.drop 3).take (2 * q.toNat))

/-- The validation of a status broadcast's payload (R170). -/
def broadcastOk (fr : Frame) : Bool :=
  fr.function == 0x10 && fr.payload.length == 23 && be16 fr.payload 0 == 0x9D31
    && be16 fr.payload 2 == 0x0009 && byteAt fr.payload 4 == 0x12

/-- The nine register values of a validated broadcast (R95, R171). -/
def broadcastWords (P : List Byte) : List Word := wordsOf (slice P 5 23)

end Sys2Proof.Machine
end

