-- ==== Sys2Proof/Machine/Flags.lean ====
section
/-! DEFINITION. Every flag, code and mapping of the spec: numeric encodings (R25, R26, R31, R271), the STATUS word (R35),
the pending predicate (R30), the saturating counter (R33), even parity and the character check (R241, R247), and the
configuration's functions STATE_MAP, POS_MAP and POLL_STATUS (R172, R173, R182). -/

namespace Sys2Proof.Machine

/-- The encoding of `phase` (R25). -/
def phaseCode : Phase → BitVec 3
  | .idle => 0 | .sending => 1 | .awaiting => 2 | .completed => 3 | .timedOut => 4

/-- The encoding of `cur_kind` (R26). -/
def pollKindCode : PollKind → BitVec 1
  | .busScan => 0 | .commandPoll => 1

/-- The encoding of `status.state` (R31). -/
def doorCode : DoorState → BitVec 3
  | .idle => 0 | .opening => 1 | .closing => 2 | .error => 3 | .unknown => 4

/-- `err_code` (R271); 0 is no error and 5 to 7 are reserved. -/
def errCode : ErrorKind → BitVec 3
  | .truncated => 1 | .checksumMismatch => 2 | .malformedStatus => 3 | .responseTimeout => 4

/-- The STATUS word of R35: four reserved zero bits, `connected`, the state's code, the position. -/
def statusWordOf (connected : Bool) (st : DriveStatus) : Word :=
  0#4 ++ BitVec.ofBool connected ++ doorCode st.state ++ st.position

/-- "An action is pending" (R30): not a stored flag. -/
def pending (slot : Word) : Bool := slot != 0

/-- `min(timeout_cnt + 1, 255)` on 8 bits (R33, R211). -/
def satInc (n : BitVec 8) : BitVec 8 := if n = 255 then 255 else n + 1

/-- A 16-bit millisecond counter stops at 0 (R34, R201). -/
def countDown (t : Word) : Word := if t = 0 then 0 else t - 1

/-- The even-parity bit of a byte (R241): `d[0] ^ ... ^ d[7]`. -/
def parityBit (d : Byte) : Bool := (List.range 8).foldl (fun acc i => acc ^^ d.getLsbD i) false

/-- The check of a received character (R247): the stop bit first, then parity. -/
def checkChar (d : Byte) (p s : Bool) : CharOutcome :=
  if s = false then .framingError else if parityBit d ^^ p then .parityError else .good d

/-- The value a table gives a key, if it lists it. -/
def tableFind {α β : Type} [DecidableEq α] (key : α) : List (α × β) → Option β
  | [] => none
  | (k, v) :: rest => if k = key then some v else tableFind key rest

/-- `STATE_MAP` (R8, R172): total, `Opening` at 0x0100, everything else the configuration's. -/
def stateMap (c : Cfg) (v : Word) : DoorState :=
  if v = 0x0100 then .opening else (tableFind v c.stateTable).getD .unknown

/-- The largest position, `POS_MAX` (R7). -/
def clampPos (p : Byte) : Byte := if p.toNat ≤ 200 then p else 200

/-- `POS_MAP` (R8, R173): the identity on 0..200; above, the configuration's value, at most 200. -/
def posMap (c : Cfg) (v : Word) : Byte :=
  if v.toNat ≤ 200 then loByte v else clampPos ((tableFind v c.posTable).getD 200)

/-- `POLL_STATUS` (R8, R182): uninterpreted but for `position ≤ 200`. -/
def pollStatus (c : Cfg) (kind : PollKind) (regs : List Word) : Option DriveStatus :=
  (tableFind (kind, regs) c.pollTable).map fun ds => ⟨clampPos ds.position, ds.state⟩

end Sys2Proof.Machine
end

