-- ==== Sys2Proof/WellFormed.lean ====
section
/-! DEFINITION. Well-formed instructions: the static conditions the spec puts on an operation's operands. -/

namespace Sys2Proof

open Machine

/-- The payload of a StatusBroadcast candidate (R95, R97): a header of five bytes whose byte count is twice the write
quantity, at most 250, and equal to the number of data bytes. -/
def bcastPayloadOk (P : List Byte) : Bool :=
  5 ≤ P.length && P.length == 5 + (byteAt P 4).toNat && decide ((byteAt P 4).toNat ≤ 250)
    && (byteAt P 4).toNat == 2 * (be16 P 2).toNat

/-- The payload of a poll response (R94): a byte count, even and between the legal quantities of R8, and that many data
bytes. -/
def pollrspPayloadOk (P : List Byte) : Bool :=
  1 ≤ P.length && P.length == 1 + (byteAt P 0).toNat && (byteAt P 0).toNat % 2 == 0
    && decide (6 ≤ (byteAt P 0).toNat) && decide ((byteAt P 0).toNat ≤ 254)

/-- The checksum field of a frame is the one R90 gives. -/
def sumOk (address function : Byte) (P : List Byte) (sum : Word) : Bool :=
  sum == crc16 (address :: function :: P)

/-- A whole poll-response frame (R94) with its correct checksum, the operand of T.RSP (R207). -/
def responseFrameOk (F : List Byte) : Bool :=
  let n := F.length
  decide (11 ≤ n) && byteAt F 0 == 0x02 && byteAt F 1 == 0x17 && n == 5 + (byteAt F 2).toNat
    && (byteAt F 2).toNat % 2 == 0 && crc16 (F.take (n - 2)) == le16 F (n - 2)

/-- The well-formed instructions. ENCODE's payload is at most `MAX_PAYLOAD` bytes (R140). -/
def wellFormed : Instr → Bool
  | .encode _ _ payload => decide (payload.length ≤ 255)
  | .pollrsp payload sum => pollrspPayloadOk payload && sumOk 0x02 0x17 payload sum
  | .bcast payload sum => bcastPayloadOk payload && sumOk 0x00 0x10 payload sum
  | .tRsp frame => responseFrameOk frame
  | .crcInit => true
  | .crcUpdate _ => true
  | .crcRead => true
  | .decode _ => true
  | .rxPush _ => true
  | .rxScan => true
  | .txNext => true
  | .pollreqScan _ => true
  | .pollreqCmd _ => true
  | .enqueue _ => true
  | .currentStatus => true
  | .isConnected => true
  | .tMstick => true
  | .tTick => true
  | .tTxdone => true
  | .tCompleted => true
  | .tTimeout => true
  | .tCrcfail => true
  | .tTimedout => true
  | .uartBaud => true
  | .uartTxchar _ => true
  | .uartRxchar _ => true
  | .reset => true

end Sys2Proof
end

