-- ==== Sys2Proof/Decode.lean ====
section
/-! DEFINITION. Decoding the words that select operations (R96 to R100), total, rejecting by name, and the encoder. The
transmit side is decoded against a configuration, because the two poll requests differ in their read quantity only
(R93). -/

namespace Sys2Proof

open Machine

/-- Why a word selects no operation. `droppedBytes`: received bytes that are no candidate (R98). `statusReadOnly`: a host
write to STATUS (R35). `actionRead`: a host read of ACTION (R36), which has no row of its own. `statusRead`: a
host read of STATUS for other bits than those of the two calls (R100), which has no row of its own either. `noSuchOffset`:
an offset the port does not have (R291). `notAPollRequest`: transmitted bytes
that are not a poll request of this configuration (R93). `badOperands`: operand bytes that do not fit the operation. -/
inductive Reject where
  | droppedBytes
  | statusReadOnly
  | actionRead
  | statusRead
  | noSuchOffset
  | notAPollRequest
  | badOperands
  deriving DecidableEq, Repr

/-- A received wire frame (R94, R95, R97): the first two bytes select, the byte count gives the length. -/
def decodeRx (B : List Byte) : Except Reject Instr :=
  let n := B.length
  if 9 ≤ n ∧ byteAt B 0 = 0x00 ∧ byteAt B 1 = 0x10 ∧ n = 9 + (byteAt B 6).toNat then
    .ok (.bcast (slice B 2 (n - 2)) (le16 B (n - 2)))
  else if 5 ≤ n ∧ byteAt B 0 = 0x02 ∧ byteAt B 1 = 0x17 ∧ n = 5 + (byteAt B 2).toNat then
    .ok (.pollrsp (slice B 2 (n - 2)) (le16 B (n - 2)))
  else .error .droppedBytes

/-- A transmitted wire frame (R93): the poll request of this configuration that carries its write data. -/
def decodeTx (c : Cfg) (B : List Byte) : Except Reject Instr :=
  if B = pollFrame c .busScan (be16 B 11) then .ok (.pollreqScan (be16 B 11))
  else if B = pollFrame c .commandPoll (be16 B 11) then .ok (.pollreqCmd (be16 B 11))
  else .error .notAPollRequest

/-- A host write (R100): offset 0x2 is ENQUEUE. -/
def decodeHostWrite (offset : BitVec 2) (data : Word) : Except Reject Instr :=
  if offset = 2 then .ok (.enqueue data) else if offset = 0 then .error .statusReadOnly else .error .noSuchOffset

/-- A host read (R96, R100): of offset 0x0, bits 10:0 or bit 11. -/
def decodeHostRead (offset : BitVec 2) (hi lo : Nat) : Except Reject Instr :=
  if offset = 0 then
    if hi = 10 ∧ lo = 0 then .ok .currentStatus
    else if hi = 11 ∧ lo = 11 then .ok .isConnected
    else .error .statusRead
  else if offset = 2 then .error .actionRead
  else .error .noSuchOffset

/-- An event (R13, R104) is the operation of its rule. `HostReadStatus` reads the whole word, of which CURRENT_STATUS
takes one part and IS_CONNECTED the other. -/
def decodeEvent : Event → Instr
  | .reset => .reset
  | .msTick => .tMstick
  | .hostWriteAction code => .enqueue code
  | .hostReadStatus => .currentStatus
  | .rxChar b => .rxPush b
  | .rxCharErr framing => .uartRxchar (.charErr framing)
  | .txFrameDone => .tTxdone

/-- An internal invocation with its operand bytes (R96, log 27). -/
def decodeInternal : InternalOp → List Byte → Except Reject Instr
  | .crcInit, [] => .ok .crcInit
  | .crcUpdate, [b] => .ok (.crcUpdate b)
  | .crcRead, [] => .ok .crcRead
  | .encode, a :: f :: payload => .ok (.encode a f payload)
  | .decode, frame => .ok (.decode frame)
  | .rxScan, [] => .ok .rxScan
  | .txNext, [] => .ok .txNext
  | .tTick, [] => .ok .tTick
  | .tRsp, frame => .ok (.tRsp frame)
  | .tCompleted, [] => .ok .tCompleted
  | .tTimeout, [] => .ok .tTimeout
  | .tCrcfail, [] => .ok .tCrcfail
  | .tTimedout, [] => .ok .tTimedout
  | .uartBaud, [] => .ok .uartBaud
  | .uartTxchar, [] => .ok (.uartTxchar .bitTick)
  | .uartTxchar, [d] => .ok (.uartTxchar (.load d))
  | .uartRxchar, [l] =>
    if l = 0 then .ok (.uartRxchar (.osTick false))
    else if l = 1 then .ok (.uartRxchar (.osTick true))
    else .error .badOperands
  | _, _ => .error .badOperands

/-- The decoder: total on every word. -/
def decode (c : Cfg) : OpWord → Except Reject Instr
  | .wireTx B => decodeTx c B
  | .wireRx B => decodeRx B
  | .hostWrite offset data => decodeHostWrite offset data
  | .hostRead offset hi lo => decodeHostRead offset hi lo
  | .event e => .ok (decodeEvent e)
  | .internal op operands => decodeInternal op operands

/-- The encoder: the word of an instruction, from the formats of R90 to R100. -/
def encode (c : Cfg) : Instr → OpWord
  | .crcInit => .internal .crcInit []
  | .crcUpdate b => .internal .crcUpdate [b]
  | .crcRead => .internal .crcRead []
  | .encode a f payload => .internal .encode (a :: f :: payload)
  | .decode frame => .internal .decode frame
  | .rxPush b => .event (.rxChar b)
  | .rxScan => .internal .rxScan []
  | .txNext => .internal .txNext []
  | .pollreqScan a => .wireTx (pollFrame c .busScan a)
  | .pollreqCmd a => .wireTx (pollFrame c .commandPoll a)
  | .pollrsp payload sum => .wireRx (rawFrame 0x02 0x17 payload sum)
  | .bcast payload sum => .wireRx (rawFrame 0x00 0x10 payload sum)
  | .enqueue code => .hostWrite 2 code
  | .currentStatus => .hostRead 0 10 0
  | .isConnected => .hostRead 0 11 11
  | .tMstick => .event .msTick
  | .tTick => .internal .tTick []
  | .tTxdone => .event .txFrameDone
  | .tRsp frame => .internal .tRsp frame
  | .tCompleted => .internal .tCompleted []
  | .tTimeout => .internal .tTimeout []
  | .tCrcfail => .internal .tCrcfail []
  | .tTimedout => .internal .tTimedout []
  | .uartBaud => .internal .uartBaud []
  | .uartTxchar (.load d) => .internal .uartTxchar [d]
  | .uartTxchar .bitTick => .internal .uartTxchar []
  | .uartRxchar (.osTick level) => .internal .uartRxchar [if level then 1 else 0]
  | .uartRxchar (.charErr framing) => .event (.rxCharErr framing)
  | .reset => .event .reset

/-- The number of bytes of the frame whose first bytes are `B` (R97), where its byte count says so. -/
def frameLength (B : List Byte) : Nat :=
  if byteAt B 0 = 0x00 then 9 + (byteAt B 6).toNat else 5 + (byteAt B 2).toNat

/-- The word of a row of spec/opcode_table.json whose bits are `w`. A row of more than 8 bits is a wire frame whose
16-bit number is `{address, function}` (R96), so the address byte is the first on the wire; its operand bytes are zero and
it is read in the receive direction (log 23). A row of at most 8 bits is a host access whose low two bits are the offset:
0x2 is a write, any other a read of bits 10:0. -/
def tableWord (nbits w : Nat) : OpWord :=
  if nbits ≤ 8 then
    if w % 4 = 2 then .hostWrite 2 0 else .hostRead (BitVec.ofNat 2 w) 10 0
  else
    let B : List Byte := BitVec.ofNat 8 (w / 256) :: BitVec.ofNat 8 w :: List.replicate 257 0
    .wireRx (B.take (frameLength B))

/-- The instruction the decoder reads from an opcode-table word. -/
def decodeTableWord (nbits w : Nat) : Option Instr :=
  match decode Config.cfg (tableWord nbits w) with
  | .ok i => some i
  | .error _ => none

end Sys2Proof
end

