-- ==== Sys2Proof/Machine/State.lean ====
section
/-! DEFINITION. The machine's state (R20 of 10_state.md, R39 for the bit-level UART) as plain data, its reset value (R43),
and the reasons a step can stop. -/

namespace Sys2Proof.Machine

/-- Byte storage in canonical form: addresses strictly rising, no cell equal to what an unlisted address reads as. -/
abbrev Memory := List Host.Cell

/-- The bit-level UART registers (R39, R242 to R246) and the `uart_tx` pin (R241). `rxConfirmed` is the model's own: the
middle of the start bit has been confirmed (R245; log 16). -/
structure Uart where
  baudCnt : Nat
  osCnt : Nat
  msCnt : Nat
  txShift : BitVec 11
  txBitsLeft : Nat
  uartTx : Bool
  rxSync : BitVec 2
  rxBusy : Bool
  rxConfirmed : Bool
  rxPhase : Nat
  rxShift : BitVec 10
  rxBitsLeft : Nat
  deriving DecidableEq, Repr

/-- What the operation a step invoked has returned: the model's own (log 7). -/
inductive Ret where
  | none
  | crc (lo hi : Byte)
  | encoded (frame : Option (List Byte))
  | decoded (r : DecodeResult)
  | nextByte (b : Option Byte)
  | status (st : DriveStatus)
  | connected (b : Bool)
  | ticks (bit os ms : Bool)
  deriving DecidableEq, Repr

/-- An error event (R271): kind and `err_info`. -/
structure ErrorEvent where
  kind : ErrorKind
  info : Word
  deriving DecidableEq, Repr

/-- The complete state (R20), the hardwired configuration bank (R37), and the model's own fields from `ret` on. -/
structure State where
  cfg : Cfg
  crc : Word
  txbuf : Memory
  txlen : Nat
  txidx : Nat
  rxbuf : List Byte
  rsp : List Byte
  phase : Phase
  curKind : PollKind
  scanDone : Bool
  firstSent : Bool
  connected : Bool
  de : Bool
  perrSeen : Bool
  ferrSeen : Bool
  status : DriveStatus
  actionSlot : Word
  timeoutCnt : BitVec 8
  cadenceTimer : Word
  respTimer : Word
  uart : Uart
  ret : Ret
  events : List Out
  history : List Out
  errQueue : List ErrorEvent
  inputs : List Input
  deriving DecidableEq, Repr

/-- No operation, error or access stops the machine (R270, R291, R333): there is no fault. -/
inductive Fault where
  deriving DecidableEq, Repr

/-- Why a step is refused. -/
inductive Refusal where
  /-- An instruction without a meaning. No arm of `exec` raises it. Safe. -/
  | notModelled (mnemonic : String)
  /-- `step`, on a pending word that selects no operation of the machine: a host access at an offset that the
  port does not have (R291), transmitted bytes that are no poll request (R93), or operand bytes that do not fit the
  operation. The machine's ports cannot carry such a word. Safe. -/
  | noOperation (why : Reject)
  deriving DecidableEq, Repr

/-- The UART registers at reset (R39): all 0, `tx_shift` all ones, the pin high. -/
def Uart.reset : Uart where
  baudCnt := 0
  osCnt := 0
  msCnt := 0
  txShift := 0x7FF
  txBitsLeft := 0
  uartTx := true
  rxSync := 0
  rxBusy := false
  rxConfirmed := false
  rxPhase := 0
  rxShift := 0
  rxBitsLeft := 0

/-- The reset table of R43 under a configuration. `crc`, `txbuf` and `rsp` are unspecified there (logs 4 to 6). -/
def State.resetOf (c : Cfg) : State where
  cfg := c
  crc := 0
  txbuf := []
  txlen := 0
  txidx := 0
  rxbuf := []
  rsp := []
  phase := .idle
  curKind := .busScan
  scanDone := false
  firstSent := false
  connected := false
  de := false
  perrSeen := false
  ferrSeen := false
  status := ⟨0, .unknown⟩
  actionSlot := 0
  timeoutCnt := 0
  cadenceTimer := c.firstTickDelayMs
  respTimer := 0
  uart := Uart.reset
  ret := .none
  events := []
  history := []
  errQueue := []
  inputs := []

/-- The machine after reset: the table of R43. It stands before the `settle` of the reset step (R310), which the step of the
event `Reset`, or the first step after this state, takes (DESIGN CHOICE, log 37). -/
def State.reset : State := State.resetOf Config.cfg

end Sys2Proof.Machine
end

