-- ==== Sys2Proof/Machine/Ops.lean ====
section
/-! DEFINITION. The shared operations: the transmit buffer's memory (R12, R61), the host-visible words (R35, R36), output
events (R38, R281), raising an error (R271, R284), CRC and ENCODE/DECODE on the machine's registers, publication of the
status (R174), and the frame of a step. -/

namespace Sys2Proof.Machine

/-- What an address of `txbuf` that is not listed reads as (log 5). -/
def unlistedByte : Byte := 0

/-- The canonical form: addresses strictly rising, no cell equal to `unlistedByte`. `lo` bounds the addresses from
below. -/
def Memory.wfFrom : Nat → Memory → Bool
  | _, [] => true
  | lo, (a, v) :: rest => decide (lo ≤ a) && v != unlistedByte && Memory.wfFrom (a + 1) rest

/-- The canonical form of a memory. -/
def Memory.wf (m : Memory) : Bool := Memory.wfFrom 0 m

/-- One byte of a memory. -/
def Memory.read : Memory → Nat → Byte
  | [], _ => unlistedByte
  | (a, v) :: rest, b => if a = b then v else Memory.read rest b

/-- A cell in front of a memory, unless it holds what an unlisted address reads as. -/
def Memory.consCell (a : Nat) (v : Byte) (m : Memory) : Memory := if v = unlistedByte then m else (a, v) :: m

/-- Writing one byte, keeping the canonical form. -/
def Memory.write : Memory → Nat → Byte → Memory
  | [], b, w => Memory.consCell b w []
  | (a, v) :: rest, b, w =>
    if b < a then Memory.consCell b w ((a, v) :: rest)
    else if b = a then Memory.consCell b w rest
    else (a, v) :: Memory.write rest b w

/-- `MemWrite(buf, a, len(v), v)` (R12). -/
def memWrite (m : Memory) (a : Nat) : List Byte → Memory
  | [] => m
  | b :: rest => memWrite (Memory.write m a b) (a + 1) rest

/-- `MemRead(buf, a, n)` (R12). -/
def memRead (m : Memory) (a : Nat) : Nat → List Byte
  | 0 => []
  | n + 1 => Memory.read m a :: memRead m (a + 1) n

/-- The STATUS word at offset 0x0 (R35): a view of the registers, so it cannot lag. -/
def statusWord (s : State) : Word := statusWordOf s.connected s.status

/-- The ACTION word at offset 0x2 (R36). -/
def actionWord (s : State) : Word := s.actionSlot

/-- The word of the shared region that `h_addr` selects (R63, R240). -/
def hostWord (s : State) (hAddr : Bool) : Word := if hAddr then actionWord s else statusWord s

/-- An output of the current step (R38). -/
def emit (o : Out) (s : State) : State := { s with events := s.events ++ [o] }

/-- `emit Wake` (R281): only if `Cfg.HAS_WAKE`, and once per step. -/
def emitWake (s : State) : State :=
  if s.cfg.hasWake = true ∧ Out.wake ∉ s.events then emit .wake s else s

/-- `raise E(info)` (R271, R284): the one way an error is taken. It emits the error event; nothing is saved, no mode and no
mask changes, and the machine goes on. -/
def raiseError (kind : ErrorKind) (info : Word) (s : State) : State := emit (.err kind info) s

/-- CRC.INIT (R120). -/
def crcInit (s : State) : State := { s with crc := 0xFFFF }

/-- CRC.UPDATE (R121). -/
def crcUpdate (b : Byte) (s : State) : State := { s with crc := crcByte s.crc b }

/-- CRC.INIT and then CRC.UPDATE for each byte in order (R123): leaves `crc16 B` in the accumulator. That it is the run of
those operations is the lemma `crcRun_eq_updates` of Laws/Codec.lean. -/
def crcRun (B : List Byte) (s : State) : State := { s with crc := crc16 B }

/-- ENCODE (R140) for a payload within `MAX_PAYLOAD`. -/
def loadFrame (address function : Byte) (payload : List Byte) (s : State) : State :=
  let t := crcRun (address :: function :: payload) s
  let F := frameBytes address function payload
  { t with txbuf := memWrite s.txbuf 0 F, txlen := F.length, txidx := 0 }

/-- What DECODE does to the machine (R142): with a sequence long enough, the accumulator runs over all but the last two
bytes; nothing else changes. -/
def decodeRun (F : List Byte) (s : State) : State :=
  if F.length < s.cfg.minFrameLen then s else crcRun (F.take (F.length - 2)) s

/-- BUILD_POLL (R185). -/
def buildPoll (kind : PollKind) (a : Word) (s : State) : State := loadFrame 0x02 0x17 (pollPayload s.cfg kind a) s

/-- Publication of a DriveStatus (R174, R182): one write of the word, and the wake test on the state. -/
def publish (st : DriveStatus) (s : State) : State :=
  if st.state = s.status.state then { s with status := st } else emitWake { s with status := st }

/-- The start of a step: the previous step's outputs join the history (R38), the input is taken. -/
def startStep (rest : List Input) (s : State) : State :=
  { s with inputs := rest, history := s.history ++ s.events, events := [], ret := .none }

/-- The end of a step: the STATUS word is shown if the step changed its value (R104). -/
def endStep (before s : State) : State :=
  if statusWord s = statusWord before then s else emit (.status (statusWord s)) s

end Sys2Proof.Machine
end

