-- ==== Sys2Proof/Machine/Codec.lean ====
section
/-! DEFINITION. ENCODE and DECODE as operations of their own (41_frame_codec.md). -/

namespace Sys2Proof.Machine

/-- ENCODE (R140): a payload of at most 255 bytes always succeeds; for a longer one the operation has no result and writes
nothing (U1, log 15). -/
def execEncode (address function : Byte) (payload : List Byte) (s : State) : Host.Outcome State Fault Refusal :=
  if payload.length ≤ 255 then
    .next { loadFrame address function payload s with ret := .encoded (some (frameBytes address function payload)) }
  else .next { s with ret := .encoded none }

/-- DECODE (R142) used directly: returns its result; a short sequence raises `Truncated` with its length (R271, R272,
log 14). -/
def execDecode (frame : List Byte) (s : State) : Host.Outcome State Fault Refusal :=
  let r := decodeFrame s.cfg.minFrameLen frame
  let t := { decodeRun frame s with ret := .decoded r }
  match r with
  | .truncated => .next (raiseError .truncated (BitVec.ofNat 16 frame.length) t)
  | .checksumMismatch => .next t
  | .frame _ => .next t

end Sys2Proof.Machine
end

