-- ==== Sys2Proof/Machine/Crc.lean ====
section
/-! DEFINITION. The CRC engine's operations (40_crc_engine.md). -/

namespace Sys2Proof.Machine

/-- CRC.INIT (R120): `crc <- 0xFFFF`. -/
def execCrcInit (s : State) : Host.Outcome State Fault Refusal := .next (crcInit s)

/-- CRC.UPDATE (R121) with one byte. -/
def execCrcUpdate (b : Byte) (s : State) : Host.Outcome State Fault Refusal := .next (crcUpdate b s)

/-- CRC.READ (R122): returns `(crc[7:0], crc[15:8])`, without a final exclusive or; `crc` is unchanged. -/
def execCrcRead (s : State) : Host.Outcome State Fault Refusal :=
  .next { s with ret := .crc (loByte s.crc) (hiByte s.crc) }

end Sys2Proof.Machine
end

