-- ==== Sys2Proof/Machine/Status.lean ====
section
/-! DEFINITION. The status decoder, the poll-response parser, the poll requests and the host calls
(42_status_action.md). -/

namespace Sys2Proof.Machine

/-- The StatusDecoder on a delivered frame: validation (R170), extraction (R171), mapping (R172, R173), publication
(R174), or `MalformedStatus` with the frame's write address and nothing else (R175). -/
def statusDecoder (fr : Frame) (s : State) : State :=
  if broadcastOk fr then
    let x := broadcastWords fr.payload
    publish ⟨posMap s.cfg (x.getD 1 0), stateMap s.cfg (x.getD 2 0)⟩ s
  else raiseError .malformedStatus (be16 fr.payload 0) s

/-- The drive-to-host action event (R181): only for a CommandPoll, only when register 2 is not zero. -/
def driveAction (kind : PollKind) (x : List Word) (s : State) : State :=
  match kind, x[2]? with
  | .commandPoll, some v => if v = 0 then s else emit (.drvAction v) s
  | .commandPoll, none => s
  | .busScan, _ => s

/-- The embedded status fields (R182). -/
def embeddedStatus (kind : PollKind) (x : List Word) (s : State) : State :=
  match pollStatus s.cfg kind x with
  | none => s
  | some st => publish st s

/-- The poll-response parser (R180 to R182) on the bytes of a checked response. -/
def parseResponse (rsp : List Byte) (s : State) : State :=
  let x := responseWords (readQty s.cfg s.curKind) rsp
  embeddedStatus s.curKind x (driveAction s.curKind x s)

/-- POLLREQ.SCAN (R185): BUILD_POLL(BusScan, a). -/
def execPollreqScan (a : Word) (s : State) : Host.Outcome State Fault Refusal :=
  .next { buildPoll .busScan a s with ret := .encoded (some (pollFrame s.cfg .busScan a)) }

/-- POLLREQ.CMD (R185): BUILD_POLL(CommandPoll, a). -/
def execPollreqCmd (a : Word) (s : State) : Host.Outcome State Fault Refusal :=
  .next { buildPoll .commandPoll a s with ret := .encoded (some (pollFrame s.cfg .commandPoll a)) }

/-- ENQUEUE (R190): overwrites the slot, in every phase. -/
def execEnqueue (code : Word) (s : State) : Host.Outcome State Fault Refusal := .next { s with actionSlot := code }

/-- CURRENT_STATUS (R191): one 16-bit read of offset 0x0, whose bits 10:0 are the last status; no register changes. -/
def execCurrentStatus (s : State) : Host.Outcome State Fault Refusal :=
  .next { emit (.read (statusWord s)) s with ret := .status s.status }

/-- IS_CONNECTED (R192): one 16-bit read of offset 0x0, whose bit 11 is `connected`; no register changes. -/
def execIsConnected (s : State) : Host.Outcome State Fault Refusal :=
  .next { emit (.read (statusWord s)) s with ret := .connected s.connected }

end Sys2Proof.Machine
end

