-- ==== Sys2Proof/Machine/Scheduler.lean ====
section
/-! DEFINITION. The transaction scheduler's transitions (43_scheduler.md). A transition whose guard is false is not
taken: it changes nothing (log 10). -/

namespace Sys2Proof.Machine

/-- `next_kind` (R203). -/
def nextKind (s : State) : PollKind :=
  match s.cfg.scanPolicy with
  | .firstTickOnly => if s.firstSent then .commandPoll else .busScan
  | .untilFirstSuccess => if s.scanDone then .commandPoll else .busScan
  | .rescanOnDisconnect => if s.scanDone then .commandPoll else .busScan

/-- T.MSTICK (R201). -/
def msTick (s : State) : State :=
  { s with
    cadenceTimer := countDown s.cadenceTimer
    respTimer := if s.phase = .awaiting then countDown s.respTimer else s.respTimer }

/-- T.TICK (R202): builds the poll with the pending action, clears the slot and the receive buffer, reloads the cadence,
raises `de`. That the line `> TX` is recorded before `> DE 1` is the model's choice: the spec writes both orders (DESIGN
CHOICE, log 38). -/
def tick (s : State) : State :=
  if s.phase = .idle ∧ s.cadenceTimer = 0 then
    let k := nextKind s
    let t := buildPoll k s.actionSlot s
    emit (.de true) (emit (.tx (pollFrame s.cfg k s.actionSlot))
      { t with
        curKind := k
        actionSlot := 0
        firstSent := true
        rxbuf := []
        cadenceTimer := s.cfg.pollIntervalMs
        de := true
        phase := .sending })
  else s

/-- T.TXDONE (R205): in any phase but `Sending` the event is ignored. -/
def txDone (s : State) : State :=
  if s.phase = .sending then
    emit (.de false) { s with de := false, respTimer := s.cfg.responseTimeoutMs, phase := .awaiting }
  else s

/-- T.RSP (R207): latches the response's bytes. -/
def acceptResponse (frame : List Byte) (s : State) : State :=
  if s.phase = .awaiting then { s with rsp := frame, phase := .completed } else s

/-- T.COMPLETED (R208): parses the response, clears the counter, connects. -/
def completed (s : State) : State :=
  if s.phase = .completed then
    let t := parseResponse s.rsp s
    let u := { t with timeoutCnt := 0, connected := true, scanDone := true, phase := .idle }
    if s.connected = false ∨ u.status.state ≠ s.status.state then emitWake u else u
  else s

/-- T.TIMEOUT (R209). -/
def timeout (s : State) : State :=
  if s.phase = .awaiting ∧ s.respTimer = 0 then
    raiseError .responseTimeout 0 { s with phase := .timedOut }
  else s

/-- T.CRCFAIL (R210): ends the transaction at once. The error was raised by the caller. -/
def crcFail (s : State) : State := if s.phase = .awaiting then { s with phase := .timedOut } else s

/-- T.TIMEDOUT (R211): counts, and at the threshold disconnects. -/
def timedOut (s : State) : State :=
  if s.phase = .timedOut then
    let n := satInc s.timeoutCnt
    if s.cfg.timeoutThreshold.toNat ≤ n.toNat then
      let t := { s with
        timeoutCnt := n
        connected := false
        scanDone := if s.cfg.scanPolicy = .rescanOnDisconnect then false else s.scanDone
        phase := .idle }
      if s.connected then emitWake t else t
    else { s with timeoutCnt := n, phase := .idle }
  else s

/-- T.MSTICK (R201). -/
def execTMstick (s : State) : Host.Outcome State Fault Refusal := .next (msTick s)

/-- T.TICK (R202). -/
def execTTick (s : State) : Host.Outcome State Fault Refusal := .next (tick s)

/-- T.TXDONE (R205). -/
def execTTxdone (s : State) : Host.Outcome State Fault Refusal := .next (txDone s)

/-- T.RSP (R207). -/
def execTRsp (frame : List Byte) (s : State) : Host.Outcome State Fault Refusal := .next (acceptResponse frame s)

/-- T.COMPLETED (R208). -/
def execTCompleted (s : State) : Host.Outcome State Fault Refusal := .next (completed s)

/-- T.TIMEOUT (R209). -/
def execTTimeout (s : State) : Host.Outcome State Fault Refusal := .next (timeout s)

/-- T.CRCFAIL (R210). -/
def execTCrcfail (s : State) : Host.Outcome State Fault Refusal := .next (crcFail s)

/-- T.TIMEDOUT (R211). -/
def execTTimedout (s : State) : Host.Outcome State Fault Refusal := .next (timedOut s)

end Sys2Proof.Machine
end

