-- ==== Sys2Proof/Machine/Receive.lean ====
section
/-! DEFINITION. Receive assembly: RX.PUSH, RX.SCAN, delivery (41_frame_codec.md, R144 to R148), the received frame kinds
BCAST and POLLRSP as operations, and `settle` (R217 of 43_scheduler.md). -/

namespace Sys2Proof.Machine

/-- RX.PUSH (R144): a character is taken while `de = 0` (R28, R248); one that is heard while `de = 1` is discarded
(R148). -/
def rxPush (b : Byte) (s : State) : State := if s.de then s else { s with rxbuf := s.rxbuf ++ [b] }

/-- Delivery of a decoded frame (R147): address 0x00 to the StatusDecoder, 0x02 to T.RSP. -/
def deliver (fr : Frame) (F : List Byte) (s : State) : State :=
  if fr.address = 0x00 then statusDecoder fr s
  else if fr.address = 0x02 then acceptResponse F s
  else s

/-- DECODE on a complete candidate and what follows from its result (R146, R147): delivery; or `ChecksumMismatch` with
the candidate's first byte, and for a response T.CRCFAIL (R210, R213). `Truncated` cannot occur under a legal
configuration, and is dropped silently (R272, log 25). -/
def judge (F : List Byte) (s : State) : State :=
  let t := decodeRun F s
  match decodeFrame s.cfg.minFrameLen F with
  | .frame fr => deliver fr F t
  | .truncated => t
  | .checksumMismatch =>
    let u := raiseError .checksumMismatch ((byteAt F 0).setWidth 16) t
    if byteAt F 0 = 0x02 then crcFail u else u

/-- How many bytes RX.SCAN removes for a candidate of length `L` (R146): the whole frame if DECODE accepts it, else the
first byte. -/
def consumed (minLen : Nat) (F : List Byte) : Nat :=
  match decodeFrame minLen F with
  | .frame _ => F.length
  | .truncated => 1
  | .checksumMismatch => 1

/-- RX.SCAN, one iteration (R146). Not enabled on an empty or incomplete buffer. -/
def rxScan (s : State) : State :=
  match s.rxbuf with
  | [] => s
  | b :: rest =>
    match classify s.cfg s.phase s.curKind (b :: rest) with
    | .needMore => s
    | .reject => { s with rxbuf := rest }
    | .complete L =>
      let F := (b :: rest).take L
      judge F { s with rxbuf := (b :: rest).drop (consumed s.cfg.minFrameLen F) }

/-- The guard of `settle`'s line 3 (R146, R217). -/
def scanEnabled (s : State) : Bool :=
  !s.rxbuf.isEmpty && classify s.cfg s.phase s.curKind s.rxbuf != .needMore

/-- The first enabled line of `settle` (R217), or none. -/
def settleLine (s : State) : Option State :=
  if s.phase = .completed then some (completed s)
  else if s.phase = .timedOut then some (timedOut s)
  else if scanEnabled s then some (rxScan s)
  else if s.phase = .awaiting ∧ s.respTimer = 0 then some (timeout s)
  else if s.phase = .idle ∧ s.cadenceTimer = 0 then some (tick s)
  else none

/-- `settle` with a bound on the number of lines taken. -/
def settleFor : Nat → State → State
  | 0, s => s
  | n + 1, s =>
    match settleLine s with
    | none => s
    | some t => settleFor n t

/-- `settle` (R217): takes the first enabled line until none is. Each line shortens `rxbuf` or moves `phase` forward, so
`len(rxbuf) + 4` lines are more than it can take. -/
def settle (s : State) : State := settleFor (s.rxbuf.length + 4) s

/-- RX.PUSH (R144). -/
def execRxPush (b : Byte) (s : State) : Host.Outcome State Fault Refusal := .next (rxPush b s)

/-- RX.SCAN (R146). -/
def execRxScan (s : State) : Host.Outcome State Fault Refusal := .next (rxScan s)

/-- BCAST, a broadcast frame with its checksum field: not heard in `Sending` (R212, R248), dropped silently where its
header is not that of a candidate (R98, R145), `ChecksumMismatch` where the checksum is wrong (R213), else the
StatusDecoder, R170 to R175 (log 22). -/
def execBcast (payload : List Byte) (sum : Word) (s : State) : Host.Outcome State Fault Refusal :=
  let F := rawFrame 0x00 0x10 payload sum
  if s.phase = .sending then .next s
  else if classify s.cfg s.phase s.curKind F = .complete F.length then .next (judge F s)
  else .next s

/-- POLLRSP, a response frame with its checksum field. In `Completed`, where T.COMPLETED invokes it on the accepted
frame: the parser, R180 to R182. In `AwaitingResponse`: accepted (R207), refused for its checksum (R210), or dropped
where it does not answer the poll in flight (R98). In every other phase dropped without effect (R214). Log 21. -/
def execPollrsp (payload : List Byte) (sum : Word) (s : State) : Host.Outcome State Fault Refusal :=
  let F := rawFrame 0x02 0x17 payload sum
  match s.phase with
  | .completed => .next (parseResponse F s)
  | .awaiting =>
    if classify s.cfg s.phase s.curKind F = .complete F.length then .next (judge F s) else .next s
  | .idle => .next s
  | .sending => .next s
  | .timedOut => .next s

end Sys2Proof.Machine
end

