-- ==== Sys2Proof/Machine/Reset.lean ====
section
/-! DEFINITION. RESET (R310 of 70_reset_and_hazards.md). -/

namespace Sys2Proof.Machine

/-- Every register takes its value of R43; the configuration stays (R37), and so does the model's record of inputs and
outputs. -/
def resetRegisters (s : State) : State :=
  { State.resetOf s.cfg with inputs := s.inputs, events := s.events, history := s.history }

/-- RESET (R310), accepted in every phase. `settle` follows, as after every input. -/
def execReset (s : State) : Host.Outcome State Fault Refusal := .next (resetRegisters s)

end Sys2Proof.Machine
end

