-- ==== Sys2Proof/Machine/Uart.lean ====
section
/-! DEFINITION. The UART at the clock level (44_uart.md): the three dividers of UART.BAUD, the transmitter with TX.NEXT,
and the receiver. -/

namespace Sys2Proof.Machine

/-- A divider's terminal count (R242): the counter is at `div − 1`. -/
def atTerminal (cnt div : Nat) : Bool := cnt == div - 1

/-- A divider's next value (R242): 0 after the terminal count. -/
def nextCount (cnt div : Nat) : Nat := if atTerminal cnt div then 0 else cnt + 1

/-- `bit_tick`, `os_tick` and `ms_tick` of the coming edge (R242). -/
def bitTickNow (s : State) : Bool := atTerminal s.uart.baudCnt s.cfg.baudDiv

/-- `os_tick` (R242). -/
def osTickNow (s : State) : Bool := atTerminal s.uart.osCnt s.cfg.osDiv

/-- `ms_tick` (R242), the event `MsTick`. -/
def msTickNow (s : State) : Bool := atTerminal s.uart.msCnt s.cfg.msDiv

/-- The counters of UART.BAUD after one edge of `clk` (R242). That `tx_start` restarts `baud_cnt` is `txStart`'s. -/
def baudStep (s : State) : State :=
  { s with uart := { s.uart with
      baudCnt := nextCount s.uart.baudCnt s.cfg.baudDiv
      osCnt := nextCount s.uart.osCnt s.cfg.osDiv
      msCnt := nextCount s.uart.msCnt s.cfg.msDiv } }

/-- UART.BAUD (R242): the counters, and the three ticks as its result. The divider's `ms_tick` is the event `MsTick`
(R201). -/
def execUartBaud (s : State) : Host.Outcome State Fault Refusal :=
  let t := { baudStep s with ret := .ticks (bitTickNow s) (osTickNow s) (msTickNow s) }
  .next (if msTickNow s then msTick t else t)

/-- The transmit shift register for a byte (R241, R243): `{1, p(b), b[7:0], 0}`. -/
def txFrame (b : Byte) : BitVec 11 := 1#1 ++ BitVec.ofBool (parityBit b) ++ b ++ 0#1

/-- The load of R243. -/
def txLoad (b : Byte) (s : State) : State :=
  { s with uart := { s.uart with txShift := txFrame b, txBitsLeft := 11, uartTx := false } }

/-- The transmitter can start a character (R243): `phase = Sending`, free, and a byte is left. -/
def txReady (s : State) : Bool :=
  s.phase == .sending && s.uart.txBitsLeft == 0 && decide (s.txidx < s.txlen)

/-- The byte TX.NEXT gives (R150): `MemRead(txbuf, txidx, 1)`. -/
def nextTxByte (s : State) : Byte := Memory.read s.txbuf s.txidx

/-- TX.NEXT handing its byte to the transmitter (R150). -/
def giveNext (s : State) : State := { txLoad (nextTxByte s) s with txidx := s.txidx + 1 }

/-- TX.NEXT (R150), which the transmitter invokes when it can take a byte while `phase = Sending`. -/
def execTxNext (s : State) : Host.Outcome State Fault Refusal :=
  if txReady s then .next { giveNext s with ret := .nextByte (some (nextTxByte s)) }
  else .next { s with ret := .nextByte none }

/-- One `bit_tick` of the transmitter (R243): the next bit; or the next character in the same clock; or the line back to
1 and `TxFrameDone` (R205). -/
def txBitTick (s : State) : State :=
  if s.uart.txBitsLeft = 0 then s
  else if 1 < s.uart.txBitsLeft then
    { s with uart := { s.uart with
        txBitsLeft := s.uart.txBitsLeft - 1
        uartTx := s.uart.txShift.getLsbD 1
        txShift := 1#1 ++ s.uart.txShift.extractLsb' 1 10 } }
  else if s.txidx < s.txlen then giveNext { s with uart := { s.uart with txBitsLeft := 0 } }
  else txDone { s with uart := { s.uart with txBitsLeft := 0, uartTx := true } }

/-- `tx_start` (R242, R243, R244): in the clock of T.TICK the first character is loaded and `baud_cnt` restarts, so that
the first start bit is a full period. -/
def txStart (s : State) : State :=
  if txReady s then
    let t := giveNext s
    { t with uart := { t.uart with baudCnt := 0 } }
  else s

/-- UART.TXCHAR (R243): a byte handed to a free transmitter, or one `bit_tick`. -/
def execUartTxchar (act : TxAct) (s : State) : Host.Outcome State Fault Refusal :=
  match act with
  | .load d => .next (if txReady s then txLoad d s else s)
  | .bitTick => .next (txBitTick s)

/-- The receiver goes back to idle, after a start glitch (R245) or while `de = 1` (R248). The spec says no more of an
abandoned character; that `rxPhase`, `rxBitsLeft` and `rxShift` keep what they hold is the model's choice (DESIGN CHOICE,
log 34). -/
def rxIdle (s : State) : State := { s with uart := { s.uart with rxBusy := false } }

/-- A character error (R247): the sticky flag, and nothing else (R276). Nothing is raised while `de = 1` (R249 (e)). -/
def rxCharError (framing : Bool) (s : State) : State :=
  if s.de then s else if framing then { s with ferrSeen := true } else { s with perrSeen := true }

/-- The end of a received character (R247). -/
def rxCharEnd (d : Byte) (p stop : Bool) (s : State) : State :=
  match checkChar d p stop with
  | .good b => rxPush b s
  | .framingError => rxCharError true s
  | .parityError => rxCharError false s

/-- The receive shift register with one more sample. The order of the samples is R246's; where they sit in the register is
the model's choice: a sample enters at bit 9 and the register shifts right, so that the first one ends at bit 0 (DESIGN
CHOICE, log 33). -/
def rxShiftIn (level : Bool) (r : BitVec 10) : BitVec 10 := BitVec.ofBool level ++ r.extractLsb' 1 9

/-- One sample of a confirmed character (R246), and after the tenth the check of R247. -/
def rxSample (level : Bool) (s : State) : State :=
  let sh := rxShiftIn level s.uart.rxShift
  let t := { s with uart := { s.uart with
    rxPhase := 0, rxShift := sh, rxBitsLeft := s.uart.rxBitsLeft - 1, rxBusy := decide (1 < s.uart.rxBitsLeft) } }
  if 1 < s.uart.rxBitsLeft then t
  else rxCharEnd (sh.extractLsb' 0 8) (sh.getLsbD 8) (sh.getLsbD 9) t

/-- One `os_tick` of the receiver with the synchronised level: gating (R248), start detection and the check of the start
bit's middle at the eighth tick (R245), sampling every sixteenth tick from there (R246). -/
def rxTick (level : Bool) (s : State) : State :=
  if s.de then rxIdle s
  else if s.uart.rxBusy = false then
    if level then s
    else { s with uart := { s.uart with rxBusy := true, rxConfirmed := false, rxPhase := 0, rxBitsLeft := 10 } }
  else if s.uart.rxConfirmed = false then
    if s.uart.rxPhase < 7 then { s with uart := { s.uart with rxPhase := s.uart.rxPhase + 1 } }
    else if level then rxIdle s
    else { s with uart := { s.uart with rxConfirmed := true, rxPhase := 0 } }
  else if s.uart.rxPhase < 15 then { s with uart := { s.uart with rxPhase := s.uart.rxPhase + 1 } }
  else rxSample level s

/-- UART.RXCHAR (R245 to R248): one `os_tick`, or the event `RxCharErr` of R247. -/
def execUartRxchar (act : RxAct) (s : State) : Host.Outcome State Fault Refusal :=
  match act with
  | .osTick level => .next (rxTick level s)
  | .charErr framing => .next (rxCharError framing s)

end Sys2Proof.Machine
end

