-- ==== Sys2Proof/Machine/Dispatch.lean ====
section
/-! DEFINITION. The dispatch: one arm for each operation of R96, each one call of its meaning. -/

namespace Sys2Proof.Machine

def exec (i : Instr) (s : State) : Host.Outcome State Fault Refusal :=
  match i with
  | .crcInit => Sys2Proof.Machine.execCrcInit s
  | .crcUpdate b => Sys2Proof.Machine.execCrcUpdate b s
  | .crcRead => Sys2Proof.Machine.execCrcRead s
  | .encode address function payload => Sys2Proof.Machine.execEncode address function payload s
  | .decode frame => Sys2Proof.Machine.execDecode frame s
  | .rxPush b => Sys2Proof.Machine.execRxPush b s
  | .rxScan => Sys2Proof.Machine.execRxScan s
  | .txNext => Sys2Proof.Machine.execTxNext s
  | .pollreqScan a => Sys2Proof.Machine.execPollreqScan a s
  | .pollreqCmd a => Sys2Proof.Machine.execPollreqCmd a s
  | .pollrsp payload sum => Sys2Proof.Machine.execPollrsp payload sum s
  | .bcast payload sum => Sys2Proof.Machine.execBcast payload sum s
  | .enqueue code => Sys2Proof.Machine.execEnqueue code s
  | .currentStatus => Sys2Proof.Machine.execCurrentStatus s
  | .isConnected => Sys2Proof.Machine.execIsConnected s
  | .tMstick => Sys2Proof.Machine.execTMstick s
  | .tTick => Sys2Proof.Machine.execTTick s
  | .tTxdone => Sys2Proof.Machine.execTTxdone s
  | .tRsp frame => Sys2Proof.Machine.execTRsp frame s
  | .tCompleted => Sys2Proof.Machine.execTCompleted s
  | .tTimeout => Sys2Proof.Machine.execTTimeout s
  | .tCrcfail => Sys2Proof.Machine.execTCrcfail s
  | .tTimedout => Sys2Proof.Machine.execTTimedout s
  | .uartBaud => Sys2Proof.Machine.execUartBaud s
  | .uartTxchar act => Sys2Proof.Machine.execUartTxchar act s
  | .uartRxchar act => Sys2Proof.Machine.execUartRxchar act s
  | .reset => Sys2Proof.Machine.execReset s

end Sys2Proof.Machine
end

