-- ==== Sys2Proof/Machine/Clock.lean ====
section
/-! DEFINITION. One rising edge of `clk` (R13, R240, R242, R283) and the output pins (R240). -/

namespace Sys2Proof.Machine

/-- The input synchroniser (R245): two flip-flops. That the line enters at bit 0 and moves on to bit 1 is the model's choice
(DESIGN CHOICE, log 33). -/
def rxSyncStep (line : Bool) (s : State) : State :=
  { s with uart := { s.uart with rxSync := s.uart.rxSync.extractLsb' 0 1 ++ BitVec.ofBool line } }

/-- The synchronised level `rxs` (R245): the second flip-flop, which the model holds in bit 1 (DESIGN CHOICE, log 33). -/
def rxs (s : State) : Bool := s.uart.rxSync.getLsbD 1

/-- A host read through the port (R240, R334): the selected word, in the same clock. -/
def hostRead (p : PinsIn) (s : State) : State :=
  if p.hSel = true ∧ p.hWe = false then emit (.read (hostWord s p.hAddr)) s else s

/-- A host write through the port (R240): ACTION takes the data, a write to STATUS is ignored (R35). -/
def hostWrite (p : PinsIn) (s : State) : State :=
  if p.hSel = true ∧ p.hWe = true ∧ p.hAddr = true then { s with actionSlot := p.hWdata } else s

/-- The errors among a step's outputs, in order (R283 (e)). -/
def errorsOf : List Out → List ErrorEvent
  | [] => []
  | .err k i :: rest => ⟨k, i⟩ :: errorsOf rest
  | _ :: rest => errorsOf rest

/-- The errors waiting for the `err_valid` pin after this clock: the one the last clock showed is gone, this clock's join
(R283 (e), log 26). -/
def errQueueStep (s : State) : State := { s with errQueue := s.errQueue.drop 1 ++ errorsOf s.events }

/-- While `de = 1` the receiver is held idle (R248). -/
def gateReceiver (s : State) : State := if s.de then rxIdle s else s

/-- A clock with `rst_n` low (R310, R313): every register at its reset value, host writes ignored; `settle` waits for the
release (log 18). -/
def resetEdge (p : PinsIn) (s : State) : State := hostRead p (resetRegisters s)

/-- An edge's first stage: the host read, the dividers (R242), the synchroniser (R245). -/
def edgeSampled (p : PinsIn) (s : State) : State := rxSyncStep p.uartRx (baudStep (hostRead p s))

/-- The receiver's `os_tick`, where there is one. The level is the one before the edge. -/
def edgeChar (p : PinsIn) (s : State) : State := rxTick (rxs s) (edgeSampled p s)

/-- After the received character and its `settle`. -/
def edgeCharDone (p : PinsIn) (s : State) : State := if osTickNow s then settle (edgeChar p s) else edgeSampled p s

/-- The millisecond tick, where there is one. -/
def edgeMs (p : PinsIn) (s : State) : State := msTick (edgeCharDone p s)

/-- After the millisecond tick and its `settle`. -/
def edgeMsDone (p : PinsIn) (s : State) : State := if msTickNow s then settle (edgeMs p s) else edgeCharDone p s

/-- The transmitter's `bit_tick`, where there is one. -/
def edgeTx (p : PinsIn) (s : State) : State := if bitTickNow s then txBitTick (edgeMsDone p s) else edgeMsDone p s

/-- A clock with `rst_n` high. The ticks and the line level are those the registers held before the edge. The events it
raises are taken in the order of R283 (a), each followed by `settle` (R217): received character, millisecond tick,
transmit done. A host write comes last, so that in the clock of T.TICK the tick takes the old code and the slot keeps the
new one (R74, R283 (c), log 17). -/
def runEdge (p : PinsIn) (s : State) : State :=
  errQueueStep (hostWrite p (gateReceiver (txStart (settle (edgeTx p s)))))

/-- One rising edge of `clk`: reset has priority over every event of the same clock (R310). -/
def clockEdge (p : PinsIn) (s : State) : State := if p.rstN then runEdge p s else resetEdge p s

/-- The output pins (R240). A pin the configuration does not have is `none` (`HAS_DE`, `HAS_WAKE`). -/
structure PinsOut where
  uartTx : Bool
  de : Option Bool
  hRdata : Word
  wake : Option Bool
  errValid : Bool
  errCode : BitVec 3
  errInfo : Word
  drvActionValid : Bool
  drvActionCode : Word
  deriving DecidableEq, Repr

/-- The first drive action among a step's outputs (R282). -/
def driveActionOf : List Out → Option Word
  | [] => none
  | .drvAction v :: _ => some v
  | _ :: rest => driveActionOf rest

/-- The pins after a clock edge, with `hAddr` on the word select (R240, R271, R281, R282). Code 0 is no error (R271); that
`errInfo` is 0 while `errValid` is 0, and `drvActionCode` while `drvActionValid` is 0, is the model's choice outside reset
(DESIGN CHOICE, log 36). -/
def pinsOut (hAddr : Bool) (s : State) : PinsOut where
  uartTx := s.uart.uartTx
  de := if s.cfg.hasDe then some s.de else none
  hRdata := hostWord s hAddr
  wake := if s.cfg.hasWake then some (decide (Out.wake ∈ s.events)) else none
  errValid := !s.errQueue.isEmpty
  errCode := match s.errQueue with | [] => 0 | e :: _ => errCode e.kind
  errInfo := match s.errQueue with | [] => 0 | e :: _ => e.info
  drvActionValid := (driveActionOf s.events).isSome
  drvActionCode := (driveActionOf s.events).getD 0

end Sys2Proof.Machine
end

