-- ==== Sys2Proof/Machine/Fetch.lean ====
section
/-! DEFINITION. What a pending word that is no instruction does: received bytes that are no candidate are dropped (R98), a
host write to STATUS is ignored (R35), a host read of ACTION returns the slot (R36), a host read of STATUS for any bits
returns the word (R35, R291); the rest selects no operation of the machine. -/

namespace Sys2Proof.Machine

/-- The effect of a word the decoder rejects (log 13). -/
def rejectedWord (why : Reject) (s : State) : Host.Outcome State Fault Refusal :=
  match why with
  | .droppedBytes => .next s
  | .statusReadOnly => .next s
  | .actionRead => .next (emit (.read (actionWord s)) s)
  | .statusRead => .next (emit (.read (statusWord s)) s)
  | .noSuchOffset => .refused (.noOperation .noSuchOffset)
  | .notAPollRequest => .refused (.noOperation .notAPollRequest)
  | .badOperands => .refused (.noOperation .badOperands)

/-- A program of the trace notation loaded behind the pending inputs (R104, log 8). -/
def loadInputs (program : List Input) (s : State) : State := { s with inputs := s.inputs ++ program }

end Sys2Proof.Machine
end

