-- ==== Sys2Proof/Machine/Step.lean ====
section
/-! DEFINITION. One step of the machine (R13, R217): the next pending input is taken and handled atomically and completely;
with nothing pending the machine waits (log 9). -/

namespace Sys2Proof.Machine

/-- What `step` adds to the outcome of an operation: `settle`, and the end of the step. -/
def afterOp (before : State) : Host.Outcome State Fault Refusal → Host.Outcome State Fault Refusal
  | .next t => .next (endStep before (settle t))
  | .fault f => .fault f
  | .refused r => .refused r

/-- One step (R217): the event's own rule, then `settle`; or one clock edge (R13). -/
def step (s : State) : Host.Outcome State Fault Refusal :=
  match s.inputs with
  | [] => .next s
  | .clk p :: rest => .next (endStep s (clockEdge p (startStep rest s)))
  | .op w :: rest =>
    match decode s.cfg w with
    | .ok i => afterOp s (exec i (startStep rest s))
    | .error why => afterOp s (rejectedWord why (startStep rest s))

/-- The state with an opcode-table word as the next pending input. -/
def State.withFetchWord (s : State) (nbits w : Nat) : State :=
  { s with inputs := .op (tableWord nbits w) :: s.inputs }

end Sys2Proof.Machine
end

