-- ==== Sys2Proof/Machine/Trace.lean ====
section
/-! DEFINITION. The trace notation (R104, R105 of 30_encoding.md): a program of this hardware is a trace of input events.
A line expands to pending inputs. -/

namespace Sys2Proof.Machine

/-- A line of a trace (R104) or a pseudo-operation (R105). `rxerr` says which character error occurred (log 19). -/
inductive TraceLine where
  | reset
  | ms
  | enq (v : Word)
  | rdst
  | rx (b : Byte)
  | rxerr (framing : Bool)
  | txdone
  | wait (n : Nat)
  | rxs (bytes : List Byte)
  | rxf (address function : Byte) (payload : List Byte)
  | rxbad (address function : Byte) (payload : List Byte)
  | txall
  deriving DecidableEq, Repr

/-- The frame of `RXBAD` (R105): `crc_lo` has every bit flipped. -/
def badFrame (address function : Byte) (payload : List Byte) : List Byte :=
  let c := crc16 (address :: function :: payload)
  address :: function :: payload ++ [~~~(loByte c), hiByte c]

/-- The events of a trace line (R104, R105). `rxf` and `rxbad` with more than 255 payload bytes, which ENCODE does not
encode (R140, U1) and for which R105 gives no expansion, send the bytes and their checksum all the same (DESIGN CHOICE,
log 35). -/
def TraceLine.events : TraceLine → List Event
  | .reset => [.reset]
  | .ms => [.msTick]
  | .enq v => [.hostWriteAction v]
  | .rdst => [.hostReadStatus]
  | .rx b => [.rxChar b]
  | .rxerr framing => [.rxCharErr framing]
  | .txdone => [.txFrameDone]
  | .wait n => List.replicate n .msTick
  | .rxs bytes => bytes.map .rxChar
  | .rxf a f p => (frameBytes a f p).map .rxChar
  | .rxbad a f p => (badFrame a f p).map .rxChar
  | .txall => [.txFrameDone]

/-- The pending inputs of a program. -/
def traceInputs (program : List TraceLine) : List Input :=
  program.flatMap fun line => line.events.map fun e => .op (.event e)

end Sys2Proof.Machine
end

