-- ==== Sys2Proof/Safety.lean ====
section
/-! DEFINITION. The terms claims are stated in: the machine's invariants (R42 of 10_state.md, R216, R149), settled states,
runs, and a safe run. -/

namespace Sys2Proof.Machine

/-- No line of `settle` is enabled (R217). -/
abbrev Settled (s : State) : Prop := settleLine s = none

/-- The receive buffer is empty or an incomplete candidate (R42 (f), R149). -/
abbrev BufferIncomplete (s : State) : Prop :=
  s.rxbuf = [] ∨ classify s.cfg s.phase s.curKind s.rxbuf = .needMore

/-- The parts of R42 that hold in every state between steps, whatever the inputs: (a) `de` is 1 exactly in `Sending`; (b)
the position is at most 200; (d) connected means the counter is below the threshold; (e) under `RescanOnDisconnect`,
`scan_done = connected` (R216); (f) the receive buffer is empty or an incomplete candidate of at most 258 bytes, and the
transient phases have been left (R200, R217); (g) `txidx ≤ txlen ≤ 259`; and the transmit buffer is in canonical form. -/
structure Inv (s : State) : Prop where
  legal : s.cfg.Legal
  direction : s.de = true ↔ s.phase = .sending
  position : s.status.position.toNat ≤ 200
  counter : s.connected = true → s.timeoutCnt.toNat < s.cfg.timeoutThreshold.toNat
  rescan : s.cfg.scanPolicy = .rescanOnDisconnect → s.scanDone = s.connected
  notCompleted : s.phase ≠ .completed
  notTimedOut : s.phase ≠ .timedOut
  buffer : BufferIncomplete s
  bufferLength : s.rxbuf.length ≤ 258
  indices : s.txidx ≤ s.txlen ∧ s.txlen ≤ 259
  memory : Memory.wf s.txbuf = true

/-- R42 (g) in full, which holds as long as no internal operation is invoked from outside: a poll of 15 bytes is loaded
whenever `phase = Sending`. -/
abbrev PollLoaded (s : State) : Prop := s.phase = .sending → s.txlen = 15

/-- Every pending input is one the environment can supply (R13, R240). -/
abbrev ExternalInputs (s : State) : Prop := ∀ x ∈ s.inputs, x.external = true

/-- R42 (c) without its clause about runs: disconnected by the counter. -/
abbrev DisconnectedByCount (s : State) : Prop :=
  s.connected = false → s.cfg.timeoutThreshold.toNat ≤ s.timeoutCnt.toNat

/-- The lines `settle` takes, each with the state before it and the state after it (R217). -/
def settleMoves : Nat → State → List (State × State)
  | 0, _ => []
  | n + 1, s =>
    match settleLine s with
    | none => []
    | some t => (s, t) :: settleMoves n t

/-- The lines that `settle` takes from `s`. -/
def settleTaken (s : State) : List (State × State) := settleMoves (s.rxbuf.length + 4) s

/-- What follows the outcome of a word in its step: the word's own move, then the lines of `settle`. -/
def wordMoves (s : State) : Host.Outcome State Fault Refusal → List (State × State)
  | .next t => (s, t) :: settleTaken t
  | .fault _ => []
  | .refused _ => []

/-- The lines of `settle` that one clock edge takes, in order (R283). -/
def edgeMoves (p : PinsIn) (s : State) : List (State × State) :=
  (if osTickNow s then settleTaken (edgeChar p s) else []) ++ (if msTickNow s then settleTaken (edgeMs p s) else [])
    ++ settleTaken (edgeTx p s)

/-- The operations and the lines of `settle` that a step takes, each with the state before it and the state after it. -/
def stepMoves (s : State) : List (State × State) :=
  match s.inputs with
  | [] => []
  | .clk p :: rest => if p.rstN then edgeMoves p (startStep rest s) else []
  | .op w :: rest =>
    match decode s.cfg w with
    | .ok i => wordMoves (startStep rest s) (exec i (startStep rest s))
    | .error why => wordMoves (startStep rest s) (rejectedWord why (startStep rest s))

/-- The move is T.COMPLETED, taken in its phase (R208). -/
abbrev IsCompleted (m : State × State) : Prop := m.1.phase = .completed ∧ m.2 = completed m.1

/-- `n` steps. -/
def runFor : Nat → State → Host.Outcome State Fault Refusal
  | 0, s => .next s
  | n + 1, s =>
    match step s with
    | .next t => runFor n t
    | .fault f => .fault f
    | .refused r => .refused r

/-- A safe run of `n` steps: it neither faults nor is refused (R270, "No error is ever fatal to the agent"). -/
abbrev SafeRun (n : Nat) (s : State) : Prop := ∃ t, runFor n s = .next t

/-- The registers of the agent that a received frame may not touch (R212): everything of BridgeState and the scheduler but
`status`. -/
structure SchedulerSame (s t : State) : Prop where
  cfg : t.cfg = s.cfg
  phase : t.phase = s.phase
  curKind : t.curKind = s.curKind
  scanDone : t.scanDone = s.scanDone
  firstSent : t.firstSent = s.firstSent
  connected : t.connected = s.connected
  timeoutCnt : t.timeoutCnt = s.timeoutCnt
  cadenceTimer : t.cadenceTimer = s.cadenceTimer
  respTimer : t.respTimer = s.respTimer
  actionSlot : t.actionSlot = s.actionSlot
  de : t.de = s.de

/-- The edges of the scheduler's state machine (R200). -/
def phaseEdge : Phase → Phase → Bool
  | .idle, .sending => true
  | .sending, .awaiting => true
  | .awaiting, .completed => true
  | .awaiting, .timedOut => true
  | .completed, .idle => true
  | .timedOut, .idle => true
  | _, _ => false

/-- An input that resets the block: the event `Reset`, or a clock edge with `rst_n` low (R310). -/
def resetsBlock (c : Cfg) : Input → Bool
  | .clk p => !p.rstN
  | .op w =>
    match decode c w with
    | .ok .reset => true
    | _ => false

/-- The eleven line levels of a character in time order (R241): start, data least significant first, parity `p`, stop
level `stop`. -/
def lineLevels (d : Byte) (p stop : Bool) : List Bool :=
  false :: (List.range 8).map (fun i => d.getLsbD i) ++ [p, stop]

/-- The receiver fed with line levels, each for the sixteen `os_tick`s of one bit period (R245, R246). -/
def feedReceiver (levels : List Bool) (s : State) : State := levels.foldl (fun t l => (rxTick l)^[16] t) s

/-- A frame with bit `j` of byte `i` flipped (R126). -/
def flipBit (F : List Byte) (i j : Nat) : List Byte := F.set i (byteAt F i ^^^ (1#8 <<< j))

end Sys2Proof.Machine
end

