-- ==== Sys2Proof/Certificates/Slice0/Obligations.lean ====
section
/-! DEFINITION. The statements about the machine, from the numbered rules of spec/. An equation
`exec i s = .next { s with … }` says the operation completes, what it writes, and that every other register, flag, buffer,
byte of memory and configuration field is unchanged. -/

open Sys2Proof Sys2Proof.Machine

/-! ### The CRC engine (40_crc_engine.md) -/

/-- R120: `crc <- 0xFFFF`, whatever it was. -/
def Obligations.CrcInitSeedsAccumulator : Prop :=
  ∀ s : State, exec .crcInit s = .next { s with crc := 0xFFFF }

/-- R121: the byte enters the low half by exclusive or, then eight conditional shifts that test bit 0 first. -/
def Obligations.CrcUpdateRunsEightShifts : Prop :=
  ∀ (b : Byte) (s : State), exec (.crcUpdate b) s = .next { s with
    crc := (fun c : Word => if c.getLsbD 0 then (c >>> 1) ^^^ 0xA001 else c >>> 1)^[8] (s.crc ^^^ b.setWidth 16) }

/-- R122: returns `(crc[7:0], crc[15:8])`; `crc` is unchanged. -/
def Obligations.CrcReadReturnsBothBytes : Prop :=
  ∀ s : State, exec .crcRead s = .next { s with ret := .crc (s.crc.extractLsb' 0 8) (s.crc.extractLsb' 8 8) }

/-- R123: CRC.INIT and one CRC.UPDATE for each byte in ascending order leave `crc16` of the bytes; of none, the seed. -/
def Obligations.CrcOfBytesIsInitThenUpdates : Prop :=
  crc16 [] = 0xFFFF ∧
  ∀ (B : List Byte) (s : State),
    B.foldl (fun o b => match o with | .next t => exec (.crcUpdate b) t | other => other) (exec .crcInit s)
      = .next { s with crc := crc16 B }

/-- R125: a sequence followed by its own checksum has checksum 0, and the two ways of testing a frame agree. -/
def Obligations.CrcResidueIsZero : Prop :=
  ∀ (B : List Byte) (lo hi : Byte),
    (crc16 (B ++ [loByte (crc16 B), hiByte (crc16 B)]) = 0) ∧
    (crc16 (B ++ [lo, hi]) = 0 ↔ crc16 B = joinBytes hi lo)

/-- R126: a single flipped bit anywhere in a valid frame is a `ChecksumMismatch`, inside and outside the checksum bytes;
and the check value. -/
def Obligations.SingleBitFlipIsDetected : Prop :=
  (∀ (m : Nat) (a f : Byte) (P : List Byte) (i j : Nat), m ≤ P.length + 4 → i < P.length + 4 → j < 8 →
    decodeFrame m (flipBit (frameBytes a f P) i j) = .checksumMismatch) ∧
  crc16 [0x31, 0x32, 0x33, 0x34, 0x35, 0x36, 0x37, 0x38, 0x39] = 0x4B37

/-- R127: the bit-serial engine gives the same `crc` for every accumulator and byte. -/
def Obligations.BitSerialCrcAgrees : Prop :=
  ∀ (c : Word) (b : Byte), crcByteSerial c b = crcByte c b

/-! ### The frame codec (41_frame_codec.md) -/

/-- R140: for a payload of at most 255 bytes the frame is loaded, reads back, and no byte of `txbuf` outside it changes; a
longer payload, which the spec excludes, has no result and writes nothing: the model's choice, log 15. -/
def Obligations.EncodeLoadsFrame : Prop :=
  ∀ (a f : Byte) (P : List Byte) (s : State), Memory.wf s.txbuf = true →
    (P.length ≤ 255 →
      let sum := crc16 (a :: f :: P)
      let F := a :: f :: P ++ [sum.extractLsb' 0 8, sum.extractLsb' 8 8]
      ∃ m, exec (.encode a f P) s = .next { s with
          crc := sum, txbuf := m, txlen := P.length + 4, txidx := 0, ret := .encoded (some F) } ∧
        memRead m 0 (P.length + 4) = F ∧
        ∀ k, P.length + 4 ≤ k → Memory.read m k = Memory.read s.txbuf k) ∧
    (255 < P.length → exec (.encode a f P) s = .next { s with ret := .encoded none })

/-- R142 (and R271, R272 for the event): the length decides before the checksum; DECODE used directly changes only the
accumulator, its result, and, for a short sequence, the `Truncated` event with the length (log 14). -/
def Obligations.DecodeJudgesLengthThenChecksum : Prop :=
  ∀ (F : List Byte) (s : State),
    let n := F.length
    let sum := crc16 (F.take (n - 2))
    (n < s.cfg.minFrameLen → exec (.decode F) s = .next { s with
        ret := .decoded .truncated, events := s.events ++ [.err .truncated (BitVec.ofNat 16 n)] }) ∧
    (s.cfg.minFrameLen ≤ n → sum ≠ le16 F (n - 2) → exec (.decode F) s = .next { s with
        crc := sum, ret := .decoded .checksumMismatch }) ∧
    (s.cfg.minFrameLen ≤ n → sum = le16 F (n - 2) → exec (.decode F) s = .next { s with
        crc := sum
        ret := .decoded (.frame ⟨byteAt F 0, byteAt F 1, slice F 2 (n - 2), sum⟩) })

/-- R143: DECODE of what ENCODE returns gives the same address, function and payload; in general, of any bytes followed by
their checksum it gives a frame with that checksum, unless the whole is too short, which is `Truncated`. -/
def Obligations.EncodeDecodeRoundTrip : Prop :=
  ∀ s : State, s.cfg.Legal →
    (∀ (a f : Byte) (P : List Byte), 1 ≤ P.length → P.length ≤ 255 →
      ∃ t u F, exec (.encode a f P) s = .next t ∧ t.ret = .encoded (some F) ∧ exec (.decode F) t = .next u ∧
        u.ret = .decoded (.frame ⟨a, f, P, crc16 (a :: f :: P)⟩)) ∧
    (∀ B : List Byte, s.cfg.minFrameLen ≤ B.length + 2 →
      ∃ u fr, exec (.decode (B ++ [loByte (crc16 B), hiByte (crc16 B)])) s = .next u ∧ u.ret = .decoded (.frame fr) ∧
        fr.checksum = crc16 B) ∧
    (∀ B : List Byte, B.length + 2 < s.cfg.minFrameLen →
      ∃ u, exec (.decode (B ++ [loByte (crc16 B), hiByte (crc16 B)])) s = .next u ∧ u.ret = .decoded .truncated)

/-- R144: a character heard while `de = 0` is appended; R28, R148: one heard while `de = 1` is not taken. -/
def Obligations.RxPushAppendsUnlessTransmitting : Prop :=
  ∀ (b : Byte) (s : State),
    (s.de = false → exec (.rxPush b) s = .next { s with rxbuf := s.rxbuf ++ [b] }) ∧
    (s.de = true → exec (.rxPush b) s = .next s)

/-- R146: one iteration on an empty or incomplete buffer, where it is not enabled (that it then changes nothing is the
model's reading, log 10), on a rejected first byte, on a candidate with a bad checksum, on an accepted response, and on a
well-summed broadcast that is no status (R147, R170, R175); on a status broadcast it is `RxScanAppliesBroadcast`. -/
def Obligations.RxScanOneIteration : Prop :=
  ∀ s : State, s.cfg.Legal →
    let answer := classify s.cfg s.phase s.curKind s.rxbuf
    (s.rxbuf = [] ∨ answer = .needMore → exec .rxScan s = .next s) ∧
    (answer = .reject → exec .rxScan s = .next { s with rxbuf := s.rxbuf.tail }) ∧
    (∀ L, answer = .complete L →
      let F := s.rxbuf.take L
      let sum := crc16 (F.take (L - 2))
      (sum ≠ le16 F (L - 2) → byteAt F 0 = 0x00 → exec .rxScan s = .next { s with
        crc := sum, rxbuf := s.rxbuf.tail, events := s.events ++ [.err .checksumMismatch 0x0000] }) ∧
      (sum ≠ le16 F (L - 2) → byteAt F 0 = 0x02 → exec .rxScan s = .next { s with
        crc := sum, rxbuf := s.rxbuf.tail, events := s.events ++ [.err .checksumMismatch 0x0002]
        phase := .timedOut }) ∧
      (sum = le16 F (L - 2) → byteAt F 0 = 0x02 → exec .rxScan s = .next { s with
        crc := sum, rxbuf := s.rxbuf.drop L, rsp := F, phase := .completed }) ∧
      (sum = le16 F (L - 2) → byteAt F 0 = 0x00 → ¬(be16 F 2 = 0x9D31 ∧ be16 F 4 = 9) →
        exec .rxScan s = .next { s with
          crc := sum, rxbuf := s.rxbuf.drop L, events := s.events ++ [.err .malformedStatus (be16 F 2)] }))

/-- R145, R146, R171, R173, R174, R281: a whole good status broadcast at the front of the buffer is removed and applied in
one iteration; only the status changes beside the accumulator and the outputs, and `wake` is pulsed exactly when the state
changes, once in a step. -/
def Obligations.RxScanAppliesBroadcast : Prop :=
  ∀ (D rest : List Byte) (s : State), s.cfg.Legal → D.length = 18 →
    s.rxbuf = frameBytes 0x00 0x10 (0x9D :: 0x31 :: 0x00 :: 0x09 :: 0x12 :: D) ++ rest →
    let st : DriveStatus := ⟨posMap s.cfg (be16 D 2), stateMap s.cfg (be16 D 4)⟩
    exec .rxScan s = .next { s with
      crc := crc16 (0x00 :: 0x10 :: 0x9D :: 0x31 :: 0x00 :: 0x09 :: 0x12 :: D)
      rxbuf := rest
      status := st
      events := s.events
        ++ (if s.cfg.hasWake = true ∧ st.state ≠ s.status.state ∧ Out.wake ∉ s.events then [.wake] else []) }

/-- R149: after `settle` the buffer is empty or an incomplete candidate, of at most 258 bytes; a complete candidate has at
most 259. -/
def Obligations.SettleBoundsReceiveBuffer : Prop :=
  ∀ s : State, s.cfg.Legal →
    BufferIncomplete (settle s) ∧ (settle s).rxbuf.length ≤ 258 ∧
    ∀ B L, classify s.cfg s.phase s.curKind B = .complete L → L ≤ 259

/-- R150: TX.NEXT gives `txbuf[txidx]` to a free transmitter and advances; with nothing to give it gives nothing. -/
def Obligations.TxNextGivesNextByte : Prop :=
  ∀ s : State,
    (s.phase = .sending → s.uart.txBitsLeft = 0 → s.txidx < s.txlen →
      exec .txNext s = .next { s with
        txidx := s.txidx + 1
        uart := { s.uart with
          txShift := txFrame (Memory.read s.txbuf s.txidx), txBitsLeft := 11, uartTx := false }
        ret := .nextByte (some (Memory.read s.txbuf s.txidx)) }) ∧
    (s.txlen ≤ s.txidx → exec .txNext s = .next { s with ret := .nextByte none })

/-! ### Status, polls and host calls (42_status_action.md) -/

/-- R170 to R174, R212, R213, R98: a broadcast frame by the state of its header and checksum, taken as a
frame that arrives whole (the model's reading, log 22). -/
def Obligations.BroadcastFrameIsJudged : Prop :=
  ∀ (P : List Byte) (sum : Word) (s : State), s.cfg.Legal →
    let good := crc16 (0x00 :: 0x10 :: P)
    (s.phase = .sending → exec (.bcast P sum) s = .next s) ∧
    (s.phase ≠ .sending → bcastPayloadOk P = false → exec (.bcast P sum) s = .next s) ∧
    (s.phase ≠ .sending → bcastPayloadOk P = true → sum ≠ good → exec (.bcast P sum) s = .next { s with
      crc := good, events := s.events ++ [.err .checksumMismatch 0x0000] }) ∧
    (s.phase ≠ .sending → bcastPayloadOk P = true → sum = good → ¬(be16 P 0 = 0x9D31 ∧ be16 P 2 = 9) →
      exec (.bcast P sum) s = .next { s with
        crc := good, events := s.events ++ [.err .malformedStatus (be16 P 0)] })

/-- R171, R172, R173, R174, R281: a status broadcast publishes the mapped position and state in one step, and wakes exactly
when the state changes. -/
def Obligations.BroadcastPublishesStatus : Prop :=
  ∀ (D : List Byte) (s : State), s.cfg.Legal → s.phase ≠ .sending → D.length = 18 → Out.wake ∉ s.events →
    let P := 0x9D :: 0x31 :: 0x00 :: 0x09 :: 0x12 :: D
    let st : DriveStatus := ⟨posMap s.cfg (be16 D 2), stateMap s.cfg (be16 D 4)⟩
    exec (.bcast P (crc16 (0x00 :: 0x10 :: P))) s = .next { s with
      crc := crc16 (0x00 :: 0x10 :: P)
      status := st
      events := s.events ++ (if s.cfg.hasWake = true ∧ st.state ≠ s.status.state then [.wake] else []) }

/-- R212: whatever a broadcast frame holds, it changes none of the scheduler's registers and no byte of `txbuf`. -/
def Obligations.BroadcastLeavesSchedulerAlone : Prop :=
  ∀ (P : List Byte) (sum : Word) (s t : State), exec (.bcast P sum) s = .next t →
    SchedulerSame s t ∧ t.rxbuf = s.rxbuf ∧ t.rsp = s.rsp ∧ t.uart = s.uart ∧ t.txlen = s.txlen ∧ t.txidx = s.txidx ∧
      t.perrSeen = s.perrSeen ∧ t.ferrSeen = s.ferrSeen ∧ ∀ k, Memory.read t.txbuf k = Memory.read s.txbuf k

/-- R172, R173: under every configuration `STATE_MAP(0x0100) = Opening`, and the position map is the identity on 0..200 and
never exceeds 200. -/
def Obligations.StatusMapsRespectFixedPoints : Prop :=
  ∀ (c : Cfg) (v : Word),
    stateMap c 0x0100 = .opening ∧ (posMap c v).toNat ≤ 200 ∧ (v.toNat ≤ 200 → (posMap c v).toNat = v.toNat)

/-- R180, R181, R182: the parser, on the response that T.COMPLETED hands it. -/
def Obligations.PollResponseIsParsed : Prop :=
  ∀ (bc : Byte) (D : List Byte) (sum : Word) (s : State),
    s.phase = .completed → D.length = 2 * (readQty s.cfg s.curKind).toNat → Out.wake ∉ s.events →
    let x := wordsOf D
    let st := (pollStatus s.cfg s.curKind x).getD s.status
    exec (.pollrsp (bc :: D) sum) s = .next { s with
      status := st
      events := s.events
        ++ (if s.curKind = .commandPoll ∧ x.getD 2 0 ≠ 0 then [.drvAction (x.getD 2 0)] else [])
        ++ (if s.cfg.hasWake = true ∧ st.state ≠ s.status.state then [.wake] else []) }

/-- R207, R210, R98, R214: a response frame outside `Completed`: accepted, refused for its checksum, or dropped
(taken as a frame that arrives whole: the model's reading, log 21). -/
def Obligations.PollResponseIsAwaited : Prop :=
  ∀ (bc : Byte) (D : List Byte) (sum : Word) (s : State), s.cfg.Legal →
    let q := (readQty s.cfg s.curKind).toNat
    let good := crc16 (0x02 :: 0x17 :: bc :: D)
    (s.phase = .awaiting → bc.toNat = 2 * q → D.length = 2 * q → sum = good →
      exec (.pollrsp (bc :: D) sum) s = .next { s with
        crc := good, rsp := frameBytes 0x02 0x17 (bc :: D), phase := .completed }) ∧
    (s.phase = .awaiting → bc.toNat = 2 * q → D.length = 2 * q → sum ≠ good →
      exec (.pollrsp (bc :: D) sum) s = .next { s with
        crc := good, events := s.events ++ [.err .checksumMismatch 0x0002], phase := .timedOut }) ∧
    (s.phase = .awaiting → bc.toNat ≠ 2 * q → exec (.pollrsp (bc :: D) sum) s = .next s) ∧
    (s.phase ≠ .awaiting → s.phase ≠ .completed → exec (.pollrsp (bc :: D) sum) s = .next s)

/-- R185: both poll requests load these fifteen bytes; only the quantity and the action vary. -/
def Obligations.PollRequestBytes : Prop :=
  ∀ (a : Word) (s : State), Memory.wf s.txbuf = true →
    let body (q : Word) : List Byte :=
      [0x02, 0x17, s.cfg.pollReadAddr.extractLsb' 8 8, s.cfg.pollReadAddr.extractLsb' 0 8,
       q.extractLsb' 8 8, q.extractLsb' 0 8, s.cfg.actionWriteAddr.extractLsb' 8 8, s.cfg.actionWriteAddr.extractLsb' 0 8,
       0x00, 0x01, 0x02, a.extractLsb' 8 8, a.extractLsb' 0 8]
    let frame (q : Word) := body q ++ [(crc16 (body q)).extractLsb' 0 8, (crc16 (body q)).extractLsb' 8 8]
    (∃ m, exec (.pollreqScan a) s = .next { s with
        crc := crc16 (body s.cfg.readQtyScan), txbuf := m, txlen := 15, txidx := 0
        ret := .encoded (some (frame s.cfg.readQtyScan)) } ∧
      memRead m 0 15 = frame s.cfg.readQtyScan ∧ ∀ k, 15 ≤ k → Memory.read m k = Memory.read s.txbuf k) ∧
    (∃ m, exec (.pollreqCmd a) s = .next { s with
        crc := crc16 (body s.cfg.readQtyPoll), txbuf := m, txlen := 15, txidx := 0
        ret := .encoded (some (frame s.cfg.readQtyPoll)) } ∧
      memRead m 0 15 = frame s.cfg.readQtyPoll ∧ ∀ k, 15 ≤ k → Memory.read m k = Memory.read s.txbuf k)

/-- R190, R30: ENQUEUE overwrites the slot in every phase and changes nothing else; the last of two wins; an action is
pending exactly when the code is not 0. -/
def Obligations.EnqueueOverwritesSlot : Prop :=
  ∀ (x y : Word) (s : State),
    exec (.enqueue x) s = .next { s with actionSlot := x } ∧
    exec (.enqueue y) { s with actionSlot := x } = exec (.enqueue y) s ∧
    (pending x = true ↔ x ≠ 0)

/-- R191, R192, R35: the two host reads return the snapshot; no register changes; the word on the port is the STATUS word,
with these fields. -/
def Obligations.HostReadsReturnSnapshot : Prop :=
  ∀ s : State,
    exec .currentStatus s = .next { s with
      ret := .status s.status, events := s.events ++ [.read (statusWord s)] } ∧
    exec .isConnected s = .next { s with
      ret := .connected s.connected, events := s.events ++ [.read (statusWord s)] } ∧
    (statusWord s).extractLsb' 0 8 = s.status.position ∧
    (statusWord s).extractLsb' 8 3 = doorCode s.status.state ∧
    (statusWord s).getLsbD 11 = s.connected ∧
    (statusWord s).extractLsb' 12 4 = 0

/-! ### The scheduler (43_scheduler.md) -/

/-- R201: both counters stop at 0; the response timer runs in `AwaitingResponse` only. -/
def Obligations.MsTickCountsDown : Prop :=
  ∀ s : State, exec .tMstick s = .next { s with
    cadenceTimer := if s.cadenceTimer = 0 then 0 else s.cadenceTimer - 1
    respTimer := if s.phase = .awaiting ∧ s.respTimer ≠ 0 then s.respTimer - 1 else s.respTimer }

/-- R203: the kind of the next poll under the three policies. -/
def Obligations.NextPollKindByPolicy : Prop :=
  ∀ s : State,
    (s.cfg.scanPolicy = .firstTickOnly → (nextKind s = .busScan ↔ s.firstSent = false)) ∧
    (s.cfg.scanPolicy = .untilFirstSuccess → (nextKind s = .busScan ↔ s.scanDone = false)) ∧
    (s.cfg.scanPolicy = .rescanOnDisconnect → (nextKind s = .busScan ↔ s.scanDone = false))

/-- R202: the tick takes the pending code into the poll, clears the slot and the receive buffer, reloads the cadence and
starts sending. That the output `tx` is recorded before `de` is the model's choice, log 38. -/
def Obligations.TickSendsPollAndClearsSlot : Prop :=
  ∀ s : State, s.phase = .idle → s.cadenceTimer = 0 → Memory.wf s.txbuf = true →
    let k := nextKind s
    let F := pollFrame s.cfg k s.actionSlot
    ∃ m, exec .tTick s = .next { s with
        crc := crc16 (F.take 13), txbuf := m, txlen := 15, txidx := 0, curKind := k, actionSlot := 0
        firstSent := true, rxbuf := [], cadenceTimer := s.cfg.pollIntervalMs, de := true, phase := .sending
        events := s.events ++ [.tx F, .de true] } ∧
      memRead m 0 15 = F ∧ ∀ a, 15 ≤ a → Memory.read m a = Memory.read s.txbuf a

/-- R205: the end of transmission releases the bus and starts the response timer; in any other phase it is ignored. -/
def Obligations.TxDoneStartsWaiting : Prop :=
  ∀ s : State,
    (s.phase = .sending → exec .tTxdone s = .next { s with
      de := false, respTimer := s.cfg.responseTimeoutMs, phase := .awaiting, events := s.events ++ [.de false] }) ∧
    (s.phase ≠ .sending → exec .tTxdone s = .next s)

/-- R207: the response's bytes are latched. -/
def Obligations.ResponseIsLatched : Prop :=
  ∀ (F : List Byte) (s : State), s.phase = .awaiting →
    exec (.tRsp F) s = .next { s with rsp := F, phase := .completed }

/-- R208: a completed transaction parses the response, clears the counter and connects, and wakes on a new connection or a
new state. -/
def Obligations.CompletedConnects : Prop :=
  ∀ (bc : Byte) (D : List Byte) (sum : Word) (s : State),
    s.phase = .completed → s.rsp = rawFrame 0x02 0x17 (bc :: D) sum →
    D.length = 2 * (readQty s.cfg s.curKind).toNat → Out.wake ∉ s.events →
    let x := wordsOf D
    let st := (pollStatus s.cfg s.curKind x).getD s.status
    exec .tCompleted s = .next { s with
      status := st, timeoutCnt := 0, connected := true, scanDone := true, phase := .idle
      events := s.events
        ++ (if s.curKind = .commandPoll ∧ x.getD 2 0 ≠ 0 then [.drvAction (x.getD 2 0)] else [])
        ++ (if s.cfg.hasWake = true ∧ (s.connected = false ∨ st.state ≠ s.status.state) then [.wake] else []) }

/-- R209, R210: a transaction ends as timed out, by its timer with the error event, or at once by its checksum without
one. -/
def Obligations.TimeoutAndChecksumEndTransaction : Prop :=
  ∀ s : State, s.phase = .awaiting →
    (s.respTimer = 0 → exec .tTimeout s = .next { s with
      phase := .timedOut, events := s.events ++ [.err .responseTimeout 0] }) ∧
    exec .tCrcfail s = .next { s with phase := .timedOut }

/-- R211: the counter counts to 255 and no further; at the threshold the flag falls, the scan starts again under
`RescanOnDisconnect`, and a falling flag wakes; the status is not touched. -/
def Obligations.TimedOutCountsAndDisconnects : Prop :=
  ∀ s : State, Out.wake ∉ s.events →
    let n : BitVec 8 := BitVec.ofNat 8 (min (s.timeoutCnt.toNat + 1) 255)
    (s.phase = .timedOut → s.cfg.timeoutThreshold.toNat ≤ n.toNat → exec .tTimedout s = .next { s with
      timeoutCnt := n, connected := false, phase := .idle
      scanDone := if s.cfg.scanPolicy = .rescanOnDisconnect then false else s.scanDone
      events := s.events ++ (if s.cfg.hasWake = true ∧ s.connected = true then [.wake] else []) }) ∧
    (s.phase = .timedOut → n.toNat < s.cfg.timeoutThreshold.toNat → exec .tTimedout s = .next { s with
      timeoutCnt := n, phase := .idle })

/-- Log 10 (the model's reading of R202 and R207 to R211): a transition invoked where its guard is false is not taken and
changes nothing. -/
def Obligations.FalseGuardChangesNothing : Prop :=
  ∀ (F : List Byte) (s : State),
    (¬(s.phase = .idle ∧ s.cadenceTimer = 0) → exec .tTick s = .next s) ∧
    (s.phase ≠ .awaiting → exec (.tRsp F) s = .next s) ∧
    (s.phase ≠ .completed → exec .tCompleted s = .next s) ∧
    (¬(s.phase = .awaiting ∧ s.respTimer = 0) → exec .tTimeout s = .next s) ∧
    (s.phase ≠ .awaiting → exec .tCrcfail s = .next s) ∧
    (s.phase ≠ .timedOut → exec .tTimedout s = .next s)

/-- R214: outside `AwaitingResponse` the `02` of a poll response is rejected and dropped, without an event and without any
other effect. -/
def Obligations.StrayResponseIsDropped : Prop :=
  ∀ (rest : List Byte) (s : State), s.phase ≠ .awaiting → s.rxbuf = 0x02 :: rest →
    classify s.cfg s.phase s.curKind s.rxbuf = .reject ∧ exec .rxScan s = .next { s with rxbuf := rest }

/-- R200: every operation but RESET moves the phase along an edge of the scheduler, or leaves it. -/
def Obligations.PhaseMovesAlongEdges : Prop :=
  ∀ (i : Instr) (s t : State), i ≠ .reset → exec i s = .next t → t.phase = s.phase ∨ phaseEdge s.phase t.phase = true

/-- R217: `settle` runs until no line is enabled. -/
def Obligations.SettleReachesQuietState : Prop :=
  ∀ s : State, settleLine (settle s) = none

/-- R217, R283 (b): a response already whole in the buffer wins over a timeout that expires in the same step. -/
def Obligations.ResponseBeatsTimeout : Prop :=
  ∀ (bc : Byte) (D : List Byte) (s : State), s.cfg.Legal →
    s.phase = .awaiting → s.respTimer = 0 → s.cadenceTimer ≠ 0 → bc.toNat = 2 * (readQty s.cfg s.curKind).toNat →
    D.length = 2 * (readQty s.cfg s.curKind).toNat → s.rxbuf = frameBytes 0x02 0x17 (bc :: D) →
    Out.err .responseTimeout 0 ∉ s.events →
    let t := settle s
    t.phase = .idle ∧ t.connected = true ∧ t.timeoutCnt = 0 ∧ t.rxbuf = [] ∧ Out.err .responseTimeout 0 ∉ t.events

/-- R209, R211, R217: the millisecond that exhausts the response timer, with nothing received, ends the transaction in that
step: `ResponseTimeout` is its one error, it counts once, and the machine is idle again with its status kept. -/
def Obligations.ExpiredTimerCountsOnce : Prop :=
  ∀ (rest : List Input) (s : State), s.inputs = .op (.event .msTick) :: rest →
    s.phase = .awaiting → s.respTimer = 1 → s.rxbuf = [] → 1 < s.cadenceTimer.toNat →
    ∃ t, step s = .next t ∧ t.phase = .idle ∧ t.timeoutCnt = satInc s.timeoutCnt ∧ t.status = s.status ∧
      t.actionSlot = s.actionSlot ∧ t.cadenceTimer = s.cadenceTimer - 1 ∧ errorsOf t.events = [⟨.responseTimeout, 0⟩] ∧
      t.inputs = rest

/-- R281: a step that leaves the state or the connection changed has pulsed `wake`, if the output exists; if it does not,
no step has. -/
def Obligations.NotableTransitionsWake : Prop :=
  ∀ (x : Input) (rest : List Input) (s t : State), s.inputs = x :: rest → resetsBlock s.cfg x = false →
    step s = .next t →
    (s.cfg.hasWake = true → (t.status.state ≠ s.status.state ∨ t.connected ≠ s.connected) → Out.wake ∈ t.events) ∧
    (s.cfg.hasWake = false → Out.wake ∉ t.events)

/-! ### The UART (44_uart.md) -/

/-- R242, as the operation stands alone: the three dividers, and `ms_tick` as the event `MsTick`. That UART.BAUD itself counts
the timers down, and leaves the restart of `baud_cnt` by `tx_start` to the clock edge, is the model's reading, log 31. -/
def Obligations.BaudDividersCount : Prop :=
  ∀ s : State,
    let bit := s.uart.baudCnt = s.cfg.baudDiv - 1
    let os := s.uart.osCnt = s.cfg.osDiv - 1
    let ms := s.uart.msCnt = s.cfg.msDiv - 1
    exec .uartBaud s = .next { s with
      uart := { s.uart with
        baudCnt := if bit then 0 else s.uart.baudCnt + 1
        osCnt := if os then 0 else s.uart.osCnt + 1
        msCnt := if ms then 0 else s.uart.msCnt + 1 }
      ret := .ticks (decide bit) (decide os) (decide ms)
      cadenceTimer := if ms then countDown s.cadenceTimer else s.cadenceTimer
      respTimer := if ms ∧ s.phase = .awaiting then countDown s.respTimer else s.respTimer }

/-- R243: the load of a byte into a free transmitter, and one `bit_tick` inside a character, between two characters, and
at the end of the frame. That a byte offered to a busy transmitter changes nothing is the model's choice, log 10. -/
def Obligations.TransmitterShiftsOut : Prop :=
  ∀ (d : Byte) (s : State),
    (s.phase = .sending → s.uart.txBitsLeft = 0 → s.txidx < s.txlen → exec (.uartTxchar (.load d)) s = .next { s with
      uart := { s.uart with txShift := txFrame d, txBitsLeft := 11, uartTx := false } }) ∧
    (s.uart.txBitsLeft ≠ 0 → exec (.uartTxchar (.load d)) s = .next s) ∧
    (s.uart.txBitsLeft = 0 → exec (.uartTxchar .bitTick) s = .next s) ∧
    (1 < s.uart.txBitsLeft → exec (.uartTxchar .bitTick) s = .next { s with
      uart := { s.uart with
        txBitsLeft := s.uart.txBitsLeft - 1
        uartTx := s.uart.txShift.getLsbD 1
        txShift := 1#1 ++ s.uart.txShift.extractLsb' 1 10 } }) ∧
    (s.uart.txBitsLeft = 1 → s.txidx < s.txlen → exec (.uartTxchar .bitTick) s = .next { s with
      txidx := s.txidx + 1
      uart := { s.uart with
        txShift := txFrame (Memory.read s.txbuf s.txidx), txBitsLeft := 11, uartTx := false } }) ∧
    (s.uart.txBitsLeft = 1 → s.txlen ≤ s.txidx → s.phase = .sending → exec (.uartTxchar .bitTick) s = .next { s with
      uart := { s.uart with txBitsLeft := 0, uartTx := true }
      de := false, respTimer := s.cfg.responseTimeoutMs, phase := .awaiting, events := s.events ++ [.de false] })

/-- R241, R243: after the load of a byte, the pin shows the eleven levels of its character, one per `bit_tick`: the start
bit 0, the data least significant bit first, even parity, the stop bit 1. -/
def Obligations.CharacterAppearsOnPin : Prop :=
  ∀ (d : Byte) (s : State) (k : Nat), k < 11 →
    (txBitTick^[k] (txLoad d s)).uart.uartTx = (lineLevels d (parityBit d) true).getD k true ∧
    (txBitTick^[k] (txLoad d s)).uart.txBitsLeft = 11 - k

/-- R249 (a), (b): the bytes of the loaded frame appear on the pin once, in order, without a gap; after eleven bit periods
for each byte the transmission is done and the bus released. -/
def Obligations.FrameAppearsOnPin : Prop :=
  ∀ s : State, s.phase = .sending → s.de = true → s.txidx = 0 → 0 < s.txlen →
    let t := giveNext s
    (∀ k, k < 11 * s.txlen →
      (txBitTick^[k] t).phase = .sending ∧ (txBitTick^[k] t).de = true ∧
      (txBitTick^[k] t).uart.uartTx
        = (lineLevels (Memory.read s.txbuf (k / 11)) (parityBit (Memory.read s.txbuf (k / 11))) true).getD (k % 11) true) ∧
    (txBitTick^[11 * s.txlen] t).phase = .awaiting ∧ (txBitTick^[11 * s.txlen] t).de = false ∧
    (txBitTick^[11 * s.txlen] t).uart.uartTx = true

/-- R245 to R248: one `os_tick` of the receiver in each of its situations but the last sample of a character, and the two
character errors. The model's choices, not the spec's: which error occurred is part of the event (log 19), the middle of the
start bit is recorded in the model's own `rxConfirmed` (log 16), a sample enters `rx_shift` at bit 9 and the register shifts
right (log 33), and a receiver that goes idle by gating or a glitch keeps `rx_phase`, `rx_bits_left` and `rx_shift`
(log 34). -/
def Obligations.ReceiverOneTick : Prop :=
  ∀ (level framing : Bool) (s : State),
    (s.de = true → exec (.uartRxchar (.osTick level)) s = .next { s with uart := { s.uart with rxBusy := false } }) ∧
    (s.de = false → s.uart.rxBusy = false → level = true → exec (.uartRxchar (.osTick level)) s = .next s) ∧
    (s.de = false → s.uart.rxBusy = false → level = false → exec (.uartRxchar (.osTick level)) s = .next { s with
      uart := { s.uart with rxBusy := true, rxConfirmed := false, rxPhase := 0, rxBitsLeft := 10 } }) ∧
    (s.de = false → s.uart.rxBusy = true → s.uart.rxConfirmed = false → s.uart.rxPhase = 7 → level = true →
      exec (.uartRxchar (.osTick level)) s = .next { s with uart := { s.uart with rxBusy := false } }) ∧
    (s.de = false → s.uart.rxBusy = true → s.uart.rxConfirmed = false → s.uart.rxPhase = 7 → level = false →
      exec (.uartRxchar (.osTick level)) s = .next { s with uart := { s.uart with rxConfirmed := true, rxPhase := 0 } }) ∧
    (s.de = false → s.uart.rxBusy = true → s.uart.rxPhase < (if s.uart.rxConfirmed then 15 else 7) →
      exec (.uartRxchar (.osTick level)) s = .next { s with uart := { s.uart with rxPhase := s.uart.rxPhase + 1 } }) ∧
    (s.de = false → s.uart.rxBusy = true → s.uart.rxConfirmed = true → s.uart.rxPhase = 15 → 1 < s.uart.rxBitsLeft →
      exec (.uartRxchar (.osTick level)) s = .next { s with uart := { s.uart with
        rxPhase := 0, rxShift := BitVec.ofBool level ++ s.uart.rxShift.extractLsb' 1 9
        rxBitsLeft := s.uart.rxBitsLeft - 1 } }) ∧
    (s.de = false → exec (.uartRxchar (.charErr framing)) s = .next { s with
      ferrSeen := s.ferrSeen || framing, perrSeen := s.perrSeen || !framing }) ∧
    (s.de = true → exec (.uartRxchar (.charErr framing)) s = .next s)

/-- R245, R246, R247: an idle receiver fed with the sixteen-tick levels of a character appends its byte if parity and stop
bit are right, else sets the sticky flag and appends nothing. -/
def Obligations.ReceiverReadsCharacter : Prop :=
  ∀ (d : Byte) (p stop : Bool) (s : State), s.de = false → s.uart.rxBusy = false →
    let t := feedReceiver (lineLevels d p stop) s
    (stop = true → p = parityBit d → t.rxbuf = s.rxbuf ++ [d] ∧ t.perrSeen = s.perrSeen ∧ t.ferrSeen = s.ferrSeen ∧
      t.uart.rxBusy = false) ∧
    (stop = true → p ≠ parityBit d → t.rxbuf = s.rxbuf ∧ t.perrSeen = true ∧ t.ferrSeen = s.ferrSeen) ∧
    (stop = false → t.rxbuf = s.rxbuf ∧ t.perrSeen = s.perrSeen ∧ t.ferrSeen = true)

/-- R29, R247: a set character-error flag stays set under every operation but RESET. -/
def Obligations.CharacterErrorFlagsAreSticky : Prop :=
  ∀ (i : Instr) (s t : State), i ≠ .reset → exec i s = .next t →
    (s.perrSeen = true → t.perrSeen = true) ∧ (s.ferrSeen = true → t.ferrSeen = true)

/-! ### Reset and the clock level (70_reset_and_hazards.md, R240, R283) -/

/-- R310 with the table of R43: what RESET leaves, in every phase; the configuration stays (R37). Only the values the spec
gives are stated. -/
def Obligations.ResetGivesTable : Prop :=
  ∀ s : State, ∃ t, exec .reset s = .next t ∧
    t.cfg = s.cfg ∧ t.txlen = 0 ∧ t.txidx = 0 ∧ t.rxbuf = [] ∧ t.phase = .idle ∧ t.curKind = .busScan ∧
    t.scanDone = false ∧ t.firstSent = false ∧ t.connected = false ∧ t.de = false ∧ t.perrSeen = false ∧
    t.ferrSeen = false ∧ t.status = ⟨0, .unknown⟩ ∧ t.actionSlot = 0 ∧ t.timeoutCnt = 0 ∧
    t.cadenceTimer = s.cfg.firstTickDelayMs ∧ t.respTimer = 0 ∧ statusWord t = 0x0400 ∧
    t.uart.uartTx = true ∧ t.uart.txShift = 0x7FF ∧ t.uart.txBitsLeft = 0 ∧ t.uart.rxBusy = false ∧
    t.uart.rxSync = 0 ∧ t.uart.rxPhase = 0 ∧ t.uart.rxShift = 0 ∧ t.uart.rxBitsLeft = 0 ∧
    t.uart.baudCnt = 0 ∧ t.uart.osCnt = 0 ∧ t.uart.msCnt = 0 ∧ actionWord t = 0 ∧ t.errQueue = []

/-- R310: with no first-tick delay the reset step itself sends the BusScan without an action. -/
def Obligations.ResetStepSendsBusScan : Prop :=
  ∀ (rest : List Input) (s : State), s.inputs = .op (.event .reset) :: rest → s.cfg.firstTickDelayMs = 0 →
    ∃ t, step s = .next t ∧ t.phase = .sending ∧ t.de = true ∧ t.curKind = .busScan ∧ t.firstSent = true ∧
      t.cadenceTimer = s.cfg.pollIntervalMs ∧ memRead t.txbuf 0 t.txlen = pollFrame s.cfg .busScan 0 ∧
      t.inputs = rest

/-- R313: while `rst_n` is low the line is idle, `de` is 0, no event output is pending, STATUS reads 0x0400 and a host write
is ignored. -/
def Obligations.HeldResetDrivesPins : Prop :=
  ∀ (p : PinsIn) (rest : List Input) (s : State), s.inputs = .clk p :: rest → p.rstN = false →
    ∃ t, step s = .next t ∧ t.uart.uartTx = true ∧ t.de = false ∧ t.errQueue = [] ∧ Out.wake ∉ t.events ∧
      driveActionOf t.events = none ∧ statusWord t = 0x0400 ∧ t.actionSlot = 0

/-- R74, R283 (c): a host write to ACTION leaves its code in the slot, and a poll whose T.TICK falls in the same clock,
whatever made it fall there, carries the old code (that the write is taken last in its clock is the model's choice, log
17). In `Idle` that clock is the one where the cadence timer is at 0 or its last millisecond tick comes; the first
character starts in it (R242 to R244). -/
def Obligations.HostWriteInClockOfTick : Prop :=
  ∀ (p : PinsIn) (rest : List Input) (s : State), s.inputs = .clk p :: rest → p.rstN = true → p.hSel = true →
    p.hWe = true → p.hAddr = true → s.phase ≠ .sending → Memory.wf s.txbuf = true →
    ∃ t, step s = .next t ∧ t.actionSlot = p.hWdata ∧
      (s.phase = .idle → s.cadenceTimer = 0 ∨ (s.cadenceTimer = 1 ∧ msTickNow s = true) →
        t.phase = .sending ∧ t.curKind = nextKind s) ∧
      (t.phase = .sending → t.de = true ∧ memRead t.txbuf 0 15 = pollFrame s.cfg t.curKind s.actionSlot ∧
        (s.uart.txBitsLeft = 0 → t.txidx = 1 ∧ t.uart.baudCnt = 0 ∧ t.uart.uartTx = false))

/-- R13, R242, R245: a clock edge without a tick, a host access or an enabled line of `settle` changes only the dividers, the
synchroniser and the model's records. The model's choices, not the spec's: the line enters `rx_sync` at bit 0 (log 33), the
oldest error leaves `errQueue` (log 26, read from R283 (e)), `ret` is cleared (log 7), and `events` joins `history`
(log 11). -/
def Obligations.QuietClockEdge : Prop :=
  ∀ (p : PinsIn) (rest : List Input) (s : State), s.inputs = .clk p :: rest → p.rstN = true → p.hSel = false →
    Settled s → s.phase ≠ .sending → s.de = false → osTickNow s = false → msTickNow s = false → bitTickNow s = false →
    step s = .next { s with
      uart := { s.uart with
        baudCnt := s.uart.baudCnt + 1, osCnt := s.uart.osCnt + 1, msCnt := s.uart.msCnt + 1
        rxSync := s.uart.rxSync.extractLsb' 0 1 ++ BitVec.ofBool p.uartRx }
      inputs := rest, history := s.history ++ s.events, events := [], ret := .none, errQueue := s.errQueue.drop 1 }

/-! ### The machine -/

/-- R217, R13: a step whose pending word decodes to a well-formed instruction runs `exec` of it on the state with the input
taken and the previous outputs recorded, then `settle`, then shows STATUS if its value changed (the
record of outputs is the model's own, log 11). -/
def Obligations.StepRunsDecodedInstruction : Prop :=
  ∀ (w : OpWord) (rest : List Input) (i : Instr) (s : State),
    s.inputs = .op w :: rest → decode s.cfg w = .ok i → wellFormed i = true →
    step s = match exec i { s with inputs := rest, history := s.history ++ s.events, events := [], ret := .none } with
      | .next t => .next (if statusWord (settle t) = statusWord s then settle t
          else { settle t with events := (settle t).events ++ [.status (statusWord (settle t))] })
      | .fault f => .fault f
      | .refused r => .refused r

/-- R270, R291, R333: no event, no host access at an offset of the port, no clock edge and no received bytes stop the
machine; and a host read of STATUS, for whatever bits of the word, shows the word as it was. -/
def Obligations.EventsNeverStopTheMachine : Prop :=
  (∀ (x : Input) (rest : List Input) (s : State), s.inputs = x :: rest →
    (x.external = true ∨ ∃ B, x = .op (.wireRx B)) → ∃ t, step s = .next t) ∧
  (∀ (hi lo : Nat) (rest : List Input) (s : State), s.inputs = .op (.hostRead 0 hi lo) :: rest →
    ∃ t, step s = .next t ∧ Out.read (statusWord s) ∈ t.events)

/-- R37: no step writes the configuration. -/
def Obligations.ConfigurationIsNeverWritten : Prop :=
  ∀ s t : State, step s = .next t → t.cfg = s.cfg

/-- R42, R149, R200, R216: every step keeps the invariant. -/
def Obligations.EveryStepKeepsInvariant : Prop :=
  ∀ s t : State, Inv s → step s = .next t → Inv t

/-- R42, R43: the invariant holds after reset. -/
def Obligations.ResetHasInvariant : Prop :=
  Inv State.reset

/-- R42 (g): as long as the inputs are the environment's, a fifteen-byte poll is loaded whenever the phase is `Sending`. -/
def Obligations.SendingMeansPollLoaded : Prop :=
  ∀ s t : State, Inv s → PollLoaded s → ExternalInputs s → step s = .next t → PollLoaded t ∧ ExternalInputs t

/-- R42 (c), R208, R211: once the counter has disconnected, only a reset leaves the machine disconnected below the
threshold; and a step that connects has taken T.COMPLETED while disconnected. -/
def Obligations.DisconnectionFollowsCount : Prop :=
  (∀ (x : Input) (rest : List Input) (s t : State), s.inputs = x :: rest → resetsBlock s.cfg x = false →
    DisconnectedByCount s → step s = .next t → DisconnectedByCount t) ∧
  (∀ s t : State, step s = .next t → s.connected = false → t.connected = true →
    ∃ m ∈ stepMoves s, m.1.connected = false ∧ IsCompleted m)

/-! ### Encodings (30_encoding.md) -/

/-- R93 to R100: decoding the encoded word of a well-formed instruction gives it back, with every operand; a received frame
is given back whatever its checksum field holds. The words of the sixteen internal operations are the model's own (log 27):
R96 gives those operations no bit pattern. -/
def Obligations.DecodeEncodeAgree : Prop :=
  (∀ (c : Cfg) (i : Instr), c.Legal → wellFormed i = true → decode c (encode c i) = .ok i) ∧
  (∀ (c : Cfg) (P : List Byte) (sum : Word),
    (bcastPayloadOk P = true → decode c (encode c (.bcast P sum)) = .ok (.bcast P sum)) ∧
    (pollrspPayloadOk P = true → decode c (encode c (.pollrsp P sum)) = .ok (.pollrsp P sum)))

/-- R95, R94, R100: words written out from the spec decode to their instructions under every configuration. -/
def Obligations.SpecWordsDecode : Prop :=
  ∀ c : Cfg,
    decode c (.wireRx [0x00, 0x10, 0x9D, 0x31, 0x00, 0x09, 0x12, 0x00, 0x00, 0x00, 0x32, 0x01, 0x00, 0x00, 0x00, 0x00,
      0x00, 0x00, 0x00, 0x00, 0x10, 0x00, 0x00, 0x00, 0x00, 0x77, 0xFA])
      = .ok (.bcast [0x9D, 0x31, 0x00, 0x09, 0x12, 0x00, 0x00, 0x00, 0x32, 0x01, 0x00, 0x00, 0x00, 0x00, 0x00, 0x00,
          0x00, 0x00, 0x10, 0x00, 0x00, 0x00, 0x00] 0xFA77) ∧
    decode c (.wireRx [0x02, 0x17, 0x0A, 0x00, 0x00, 0x00, 0x00, 0x00, 0x10, 0x00, 0x00, 0x00, 0x00, 0xD0, 0x86])
      = .ok (.pollrsp [0x0A, 0x00, 0x00, 0x00, 0x00, 0x00, 0x10, 0x00, 0x00, 0x00, 0x00] 0x86D0) ∧
    decode c (.hostWrite 2 0x1001) = .ok (.enqueue 0x1001) ∧
    decode c (.hostRead 0 10 0) = .ok .currentStatus ∧ decode c (.hostRead 0 11 11) = .ok .isConnected
end

