-- ==== Sys2Proof/Laws/Memory.lean ====
section
/-! SUPPORT. The laws of the transmit buffer's memory: every operation keeps the canonical form, a read after a write gives
the value written, and a write leaves every other address alone. -/

namespace Sys2Proof.Machine

theorem Memory.wfFrom_mono {lo lo' : Nat} (h : lo ≤ lo') :
    ∀ {m : Memory}, Memory.wfFrom lo' m = true → Memory.wfFrom lo m = true
  | [], _ => rfl
  | (a, v) :: rest, hm => by
    simp only [Memory.wfFrom, Bool.and_eq_true, decide_eq_true_eq] at hm ⊢
    exact ⟨⟨h.trans hm.1.1, hm.1.2⟩, hm.2⟩

theorem Memory.wfFrom_consCell {lo a : Nat} {v : Byte} {m : Memory} (h : lo ≤ a)
    (hm : Memory.wfFrom (a + 1) m = true) : Memory.wfFrom lo (Memory.consCell a v m) = true := by
  unfold Memory.consCell
  split
  · exact Memory.wfFrom_mono (by omega) hm
  · simpa [Memory.wfFrom, h, hm] using ‹_›

theorem Memory.wfFrom_write {b : Nat} {w : Byte} :
    ∀ {m : Memory} {lo : Nat}, lo ≤ b → Memory.wfFrom lo m = true → Memory.wfFrom lo (Memory.write m b w) = true
  | [], _, hb, _ => Memory.wfFrom_consCell hb rfl
  | (a, v) :: rest, lo, hb, hm => by
    have hm' := hm
    simp only [Memory.wfFrom, Bool.and_eq_true, decide_eq_true_eq] at hm'
    obtain ⟨⟨h1, h2⟩, h3⟩ := hm'
    unfold Memory.write
    split
    · rename_i hlt
      refine Memory.wfFrom_consCell hb ?_
      simp only [Memory.wfFrom, Bool.and_eq_true, decide_eq_true_eq]
      exact ⟨⟨hlt, h2⟩, h3⟩
    · split
      · rename_i heq
        subst heq
        exact Memory.wfFrom_consCell hb h3
      · simp only [Memory.wfFrom, Bool.and_eq_true, decide_eq_true_eq]
        exact ⟨⟨h1, h2⟩, Memory.wfFrom_write (by omega) h3⟩

/-- Writing one byte keeps the canonical form. -/
theorem Memory.wf_write {m : Memory} (b : Nat) (w : Byte) (h : Memory.wf m = true) :
    Memory.wf (Memory.write m b w) = true := Memory.wfFrom_write (Nat.zero_le _) h

/-- Writing a byte sequence keeps the canonical form. -/
theorem wf_memWrite : ∀ (bs : List Byte) {m : Memory} (a : Nat), Memory.wf m = true → Memory.wf (memWrite m a bs) = true
  | [], _, _, h => h
  | b :: rest, _, a, h => wf_memWrite rest (a + 1) (Memory.wf_write a b h)

theorem Memory.read_below {b : Nat} : ∀ {m : Memory} {lo : Nat}, b < lo → Memory.wfFrom lo m = true →
    Memory.read m b = unlistedByte
  | [], _, _, _ => rfl
  | (a, v) :: rest, lo, hb, hm => by
    simp only [Memory.wfFrom, Bool.and_eq_true, decide_eq_true_eq] at hm
    have : a ≠ b := by omega
    simp only [Memory.read, this, if_false]
    exact Memory.read_below (lo := a + 1) (by omega) hm.2

theorem Memory.read_consCell {a b : Nat} {v : Byte} {m : Memory} (hm : Memory.wfFrom (a + 1) m = true) :
    Memory.read (Memory.consCell a v m) b = if a = b then v else Memory.read m b := by
  unfold Memory.consCell
  split
  · rename_i hv
    split
    · rename_i hab
      subst hab
      rw [hv]
      exact Memory.read_below (Nat.lt_succ_self _) hm
    · rfl
  · rfl

theorem Memory.read_writeFrom {b c : Nat} {w : Byte} : ∀ {m : Memory} {lo : Nat}, Memory.wfFrom lo m = true →
    Memory.read (Memory.write m b w) c = if b = c then w else Memory.read m c
  | [], _, _ => Memory.read_consCell rfl
  | (a, v) :: rest, lo, hm => by
    have hm' := hm
    simp only [Memory.wfFrom, Bool.and_eq_true, decide_eq_true_eq] at hm'
    unfold Memory.write
    split
    · rename_i hlt
      refine Memory.read_consCell ?_
      simp only [Memory.wfFrom, Bool.and_eq_true, decide_eq_true_eq]
      exact ⟨⟨hlt, hm'.1.2⟩, hm'.2⟩
    · split
      · rename_i heq
        subst heq
        rw [Memory.read_consCell hm'.2]
        by_cases h : b = c <;> simp [Memory.read, h]
      · rename_i h1 h2
        simp only [Memory.read]
        rw [Memory.read_writeFrom hm'.2]
        by_cases h : a = c
        · have : b ≠ c := by omega
          simp [h, this]
        · simp [h]

/-- Reading after a write: the value written at that address, the old value at every other. -/
theorem Memory.read_write {m : Memory} (b c : Nat) (w : Byte) (h : Memory.wf m = true) :
    Memory.read (Memory.write m b w) c = if b = c then w else Memory.read m c := Memory.read_writeFrom h

/-- A written sequence leaves every address outside it alone. -/
theorem read_memWrite_other : ∀ (bs : List Byte) {m : Memory} (a c : Nat), Memory.wf m = true →
    (c < a ∨ a + bs.length ≤ c) → Memory.read (memWrite m a bs) c = Memory.read m c
  | [], _, _, _, _, _ => rfl
  | b :: rest, m, a, c, h, hc => by
    simp only [List.length_cons] at hc
    rw [memWrite, read_memWrite_other rest (a + 1) c (Memory.wf_write a b h) (by omega), Memory.read_write a c b h,
      if_neg (by omega)]

/-- A written sequence reads back. -/
theorem memRead_memWrite : ∀ (bs : List Byte) {m : Memory} (a : Nat), Memory.wf m = true →
    memRead (memWrite m a bs) a bs.length = bs
  | [], _, _, _ => rfl
  | b :: rest, m, a, h => by
    have h' := Memory.wf_write a b h
    simp only [memWrite, List.length_cons, memRead]
    rw [memRead_memWrite rest (a + 1) h', read_memWrite_other rest (a + 1) a h' (Or.inl (Nat.lt_succ_self _)),
      Memory.read_write a a b h, if_pos rfl]

@[simp] theorem memRead_length (m : Memory) (a n : Nat) : (memRead m a n).length = n := by
  induction n generalizing a with
  | zero => rfl
  | succ n ih => simp [memRead, ih]

/-- The buffer after reset is in canonical form. -/
theorem wf_reset_txbuf (c : Cfg) : Memory.wf (State.resetOf c).txbuf = true := rfl

end Sys2Proof.Machine
end

