-- ==== Sys2Proof/Laws/State.lean ====
section
/-! SUPPORT. One lemma for each field and each named update of the state, so that no proof unfolds a record update. -/

namespace Sys2Proof.Machine

@[simp] theorem emit_cfg (o : Out) (s : State) : (emit o s).cfg = s.cfg := rfl
@[simp] theorem emit_crc (o : Out) (s : State) : (emit o s).crc = s.crc := rfl
@[simp] theorem emit_txbuf (o : Out) (s : State) : (emit o s).txbuf = s.txbuf := rfl
@[simp] theorem emit_txlen (o : Out) (s : State) : (emit o s).txlen = s.txlen := rfl
@[simp] theorem emit_txidx (o : Out) (s : State) : (emit o s).txidx = s.txidx := rfl
@[simp] theorem emit_rxbuf (o : Out) (s : State) : (emit o s).rxbuf = s.rxbuf := rfl
@[simp] theorem emit_rsp (o : Out) (s : State) : (emit o s).rsp = s.rsp := rfl
@[simp] theorem emit_phase (o : Out) (s : State) : (emit o s).phase = s.phase := rfl
@[simp] theorem emit_curKind (o : Out) (s : State) : (emit o s).curKind = s.curKind := rfl
@[simp] theorem emit_scanDone (o : Out) (s : State) : (emit o s).scanDone = s.scanDone := rfl
@[simp] theorem emit_firstSent (o : Out) (s : State) : (emit o s).firstSent = s.firstSent := rfl
@[simp] theorem emit_connected (o : Out) (s : State) : (emit o s).connected = s.connected := rfl
@[simp] theorem emit_de (o : Out) (s : State) : (emit o s).de = s.de := rfl
@[simp] theorem emit_perrSeen (o : Out) (s : State) : (emit o s).perrSeen = s.perrSeen := rfl
@[simp] theorem emit_ferrSeen (o : Out) (s : State) : (emit o s).ferrSeen = s.ferrSeen := rfl
@[simp] theorem emit_status (o : Out) (s : State) : (emit o s).status = s.status := rfl
@[simp] theorem emit_actionSlot (o : Out) (s : State) : (emit o s).actionSlot = s.actionSlot := rfl
@[simp] theorem emit_timeoutCnt (o : Out) (s : State) : (emit o s).timeoutCnt = s.timeoutCnt := rfl
@[simp] theorem emit_cadenceTimer (o : Out) (s : State) : (emit o s).cadenceTimer = s.cadenceTimer := rfl
@[simp] theorem emit_respTimer (o : Out) (s : State) : (emit o s).respTimer = s.respTimer := rfl
@[simp] theorem emit_uart (o : Out) (s : State) : (emit o s).uart = s.uart := rfl
@[simp] theorem emit_ret (o : Out) (s : State) : (emit o s).ret = s.ret := rfl
@[simp] theorem emit_events (o : Out) (s : State) : (emit o s).events = s.events ++ [o] := rfl
@[simp] theorem emit_history (o : Out) (s : State) : (emit o s).history = s.history := rfl
@[simp] theorem emit_errQueue (o : Out) (s : State) : (emit o s).errQueue = s.errQueue := rfl
@[simp] theorem emit_inputs (o : Out) (s : State) : (emit o s).inputs = s.inputs := rfl

@[simp] theorem raiseError_cfg (k : ErrorKind) (i : Word) (s : State) : (raiseError k i s).cfg = s.cfg := rfl
@[simp] theorem raiseError_crc (k : ErrorKind) (i : Word) (s : State) : (raiseError k i s).crc = s.crc := rfl
@[simp] theorem raiseError_txbuf (k : ErrorKind) (i : Word) (s : State) : (raiseError k i s).txbuf = s.txbuf := rfl
@[simp] theorem raiseError_txlen (k : ErrorKind) (i : Word) (s : State) : (raiseError k i s).txlen = s.txlen := rfl
@[simp] theorem raiseError_txidx (k : ErrorKind) (i : Word) (s : State) : (raiseError k i s).txidx = s.txidx := rfl
@[simp] theorem raiseError_rxbuf (k : ErrorKind) (i : Word) (s : State) : (raiseError k i s).rxbuf = s.rxbuf := rfl
@[simp] theorem raiseError_rsp (k : ErrorKind) (i : Word) (s : State) : (raiseError k i s).rsp = s.rsp := rfl
@[simp] theorem raiseError_phase (k : ErrorKind) (i : Word) (s : State) : (raiseError k i s).phase = s.phase := rfl
@[simp] theorem raiseError_curKind (k : ErrorKind) (i : Word) (s : State) : (raiseError k i s).curKind = s.curKind := rfl
@[simp] theorem raiseError_scanDone (k : ErrorKind) (i : Word) (s : State) : (raiseError k i s).scanDone = s.scanDone := rfl
@[simp] theorem raiseError_firstSent (k : ErrorKind) (i : Word) (s : State) : (raiseError k i s).firstSent = s.firstSent := rfl
@[simp] theorem raiseError_connected (k : ErrorKind) (i : Word) (s : State) : (raiseError k i s).connected = s.connected := rfl
@[simp] theorem raiseError_de (k : ErrorKind) (i : Word) (s : State) : (raiseError k i s).de = s.de := rfl
@[simp] theorem raiseError_perrSeen (k : ErrorKind) (i : Word) (s : State) : (raiseError k i s).perrSeen = s.perrSeen := rfl
@[simp] theorem raiseError_ferrSeen (k : ErrorKind) (i : Word) (s : State) : (raiseError k i s).ferrSeen = s.ferrSeen := rfl
@[simp] theorem raiseError_status (k : ErrorKind) (i : Word) (s : State) : (raiseError k i s).status = s.status := rfl
@[simp] theorem raiseError_actionSlot (k : ErrorKind) (i : Word) (s : State) : (raiseError k i s).actionSlot = s.actionSlot := rfl
@[simp] theorem raiseError_timeoutCnt (k : ErrorKind) (i : Word) (s : State) : (raiseError k i s).timeoutCnt = s.timeoutCnt := rfl
@[simp] theorem raiseError_cadenceTimer (k : ErrorKind) (i : Word) (s : State) : (raiseError k i s).cadenceTimer = s.cadenceTimer := rfl
@[simp] theorem raiseError_respTimer (k : ErrorKind) (i : Word) (s : State) : (raiseError k i s).respTimer = s.respTimer := rfl
@[simp] theorem raiseError_uart (k : ErrorKind) (i : Word) (s : State) : (raiseError k i s).uart = s.uart := rfl
@[simp] theorem raiseError_ret (k : ErrorKind) (i : Word) (s : State) : (raiseError k i s).ret = s.ret := rfl
@[simp] theorem raiseError_events (k : ErrorKind) (i : Word) (s : State) : (raiseError k i s).events = s.events ++ [.err k i] := rfl
@[simp] theorem raiseError_history (k : ErrorKind) (i : Word) (s : State) : (raiseError k i s).history = s.history := rfl
@[simp] theorem raiseError_errQueue (k : ErrorKind) (i : Word) (s : State) : (raiseError k i s).errQueue = s.errQueue := rfl
@[simp] theorem raiseError_inputs (k : ErrorKind) (i : Word) (s : State) : (raiseError k i s).inputs = s.inputs := rfl

@[simp] theorem crcInit_cfg (s : State) : (crcInit s).cfg = s.cfg := rfl
@[simp] theorem crcInit_crc (s : State) : (crcInit s).crc = 0xFFFF := rfl
@[simp] theorem crcInit_txbuf (s : State) : (crcInit s).txbuf = s.txbuf := rfl
@[simp] theorem crcInit_txlen (s : State) : (crcInit s).txlen = s.txlen := rfl
@[simp] theorem crcInit_txidx (s : State) : (crcInit s).txidx = s.txidx := rfl
@[simp] theorem crcInit_rxbuf (s : State) : (crcInit s).rxbuf = s.rxbuf := rfl
@[simp] theorem crcInit_rsp (s : State) : (crcInit s).rsp = s.rsp := rfl
@[simp] theorem crcInit_phase (s : State) : (crcInit s).phase = s.phase := rfl
@[simp] theorem crcInit_curKind (s : State) : (crcInit s).curKind = s.curKind := rfl
@[simp] theorem crcInit_scanDone (s : State) : (crcInit s).scanDone = s.scanDone := rfl
@[simp] theorem crcInit_firstSent (s : State) : (crcInit s).firstSent = s.firstSent := rfl
@[simp] theorem crcInit_connected (s : State) : (crcInit s).connected = s.connected := rfl
@[simp] theorem crcInit_de (s : State) : (crcInit s).de = s.de := rfl
@[simp] theorem crcInit_perrSeen (s : State) : (crcInit s).perrSeen = s.perrSeen := rfl
@[simp] theorem crcInit_ferrSeen (s : State) : (crcInit s).ferrSeen = s.ferrSeen := rfl
@[simp] theorem crcInit_status (s : State) : (crcInit s).status = s.status := rfl
@[simp] theorem crcInit_actionSlot (s : State) : (crcInit s).actionSlot = s.actionSlot := rfl
@[simp] theorem crcInit_timeoutCnt (s : State) : (crcInit s).timeoutCnt = s.timeoutCnt := rfl
@[simp] theorem crcInit_cadenceTimer (s : State) : (crcInit s).cadenceTimer = s.cadenceTimer := rfl
@[simp] theorem crcInit_respTimer (s : State) : (crcInit s).respTimer = s.respTimer := rfl
@[simp] theorem crcInit_uart (s : State) : (crcInit s).uart = s.uart := rfl
@[simp] theorem crcInit_ret (s : State) : (crcInit s).ret = s.ret := rfl
@[simp] theorem crcInit_events (s : State) : (crcInit s).events = s.events := rfl
@[simp] theorem crcInit_history (s : State) : (crcInit s).history = s.history := rfl
@[simp] theorem crcInit_errQueue (s : State) : (crcInit s).errQueue = s.errQueue := rfl
@[simp] theorem crcInit_inputs (s : State) : (crcInit s).inputs = s.inputs := rfl

@[simp] theorem crcUpdate_cfg (b : Byte) (s : State) : (crcUpdate b s).cfg = s.cfg := rfl
@[simp] theorem crcUpdate_crc (b : Byte) (s : State) : (crcUpdate b s).crc = crcByte s.crc b := rfl
@[simp] theorem crcUpdate_txbuf (b : Byte) (s : State) : (crcUpdate b s).txbuf = s.txbuf := rfl
@[simp] theorem crcUpdate_txlen (b : Byte) (s : State) : (crcUpdate b s).txlen = s.txlen := rfl
@[simp] theorem crcUpdate_txidx (b : Byte) (s : State) : (crcUpdate b s).txidx = s.txidx := rfl
@[simp] theorem crcUpdate_rxbuf (b : Byte) (s : State) : (crcUpdate b s).rxbuf = s.rxbuf := rfl
@[simp] theorem crcUpdate_rsp (b : Byte) (s : State) : (crcUpdate b s).rsp = s.rsp := rfl
@[simp] theorem crcUpdate_phase (b : Byte) (s : State) : (crcUpdate b s).phase = s.phase := rfl
@[simp] theorem crcUpdate_curKind (b : Byte) (s : State) : (crcUpdate b s).curKind = s.curKind := rfl
@[simp] theorem crcUpdate_scanDone (b : Byte) (s : State) : (crcUpdate b s).scanDone = s.scanDone := rfl
@[simp] theorem crcUpdate_firstSent (b : Byte) (s : State) : (crcUpdate b s).firstSent = s.firstSent := rfl
@[simp] theorem crcUpdate_connected (b : Byte) (s : State) : (crcUpdate b s).connected = s.connected := rfl
@[simp] theorem crcUpdate_de (b : Byte) (s : State) : (crcUpdate b s).de = s.de := rfl
@[simp] theorem crcUpdate_perrSeen (b : Byte) (s : State) : (crcUpdate b s).perrSeen = s.perrSeen := rfl
@[simp] theorem crcUpdate_ferrSeen (b : Byte) (s : State) : (crcUpdate b s).ferrSeen = s.ferrSeen := rfl
@[simp] theorem crcUpdate_status (b : Byte) (s : State) : (crcUpdate b s).status = s.status := rfl
@[simp] theorem crcUpdate_actionSlot (b : Byte) (s : State) : (crcUpdate b s).actionSlot = s.actionSlot := rfl
@[simp] theorem crcUpdate_timeoutCnt (b : Byte) (s : State) : (crcUpdate b s).timeoutCnt = s.timeoutCnt := rfl
@[simp] theorem crcUpdate_cadenceTimer (b : Byte) (s : State) : (crcUpdate b s).cadenceTimer = s.cadenceTimer := rfl
@[simp] theorem crcUpdate_respTimer (b : Byte) (s : State) : (crcUpdate b s).respTimer = s.respTimer := rfl
@[simp] theorem crcUpdate_uart (b : Byte) (s : State) : (crcUpdate b s).uart = s.uart := rfl
@[simp] theorem crcUpdate_ret (b : Byte) (s : State) : (crcUpdate b s).ret = s.ret := rfl
@[simp] theorem crcUpdate_events (b : Byte) (s : State) : (crcUpdate b s).events = s.events := rfl
@[simp] theorem crcUpdate_history (b : Byte) (s : State) : (crcUpdate b s).history = s.history := rfl
@[simp] theorem crcUpdate_errQueue (b : Byte) (s : State) : (crcUpdate b s).errQueue = s.errQueue := rfl
@[simp] theorem crcUpdate_inputs (b : Byte) (s : State) : (crcUpdate b s).inputs = s.inputs := rfl

@[simp] theorem crcRun_cfg (B : List Byte) (s : State) : (crcRun B s).cfg = s.cfg := rfl
@[simp] theorem crcRun_crc (B : List Byte) (s : State) : (crcRun B s).crc = crc16 B := rfl
@[simp] theorem crcRun_txbuf (B : List Byte) (s : State) : (crcRun B s).txbuf = s.txbuf := rfl
@[simp] theorem crcRun_txlen (B : List Byte) (s : State) : (crcRun B s).txlen = s.txlen := rfl
@[simp] theorem crcRun_txidx (B : List Byte) (s : State) : (crcRun B s).txidx = s.txidx := rfl
@[simp] theorem crcRun_rxbuf (B : List Byte) (s : State) : (crcRun B s).rxbuf = s.rxbuf := rfl
@[simp] theorem crcRun_rsp (B : List Byte) (s : State) : (crcRun B s).rsp = s.rsp := rfl
@[simp] theorem crcRun_phase (B : List Byte) (s : State) : (crcRun B s).phase = s.phase := rfl
@[simp] theorem crcRun_curKind (B : List Byte) (s : State) : (crcRun B s).curKind = s.curKind := rfl
@[simp] theorem crcRun_scanDone (B : List Byte) (s : State) : (crcRun B s).scanDone = s.scanDone := rfl
@[simp] theorem crcRun_firstSent (B : List Byte) (s : State) : (crcRun B s).firstSent = s.firstSent := rfl
@[simp] theorem crcRun_connected (B : List Byte) (s : State) : (crcRun B s).connected = s.connected := rfl
@[simp] theorem crcRun_de (B : List Byte) (s : State) : (crcRun B s).de = s.de := rfl
@[simp] theorem crcRun_perrSeen (B : List Byte) (s : State) : (crcRun B s).perrSeen = s.perrSeen := rfl
@[simp] theorem crcRun_ferrSeen (B : List Byte) (s : State) : (crcRun B s).ferrSeen = s.ferrSeen := rfl
@[simp] theorem crcRun_status (B : List Byte) (s : State) : (crcRun B s).status = s.status := rfl
@[simp] theorem crcRun_actionSlot (B : List Byte) (s : State) : (crcRun B s).actionSlot = s.actionSlot := rfl
@[simp] theorem crcRun_timeoutCnt (B : List Byte) (s : State) : (crcRun B s).timeoutCnt = s.timeoutCnt := rfl
@[simp] theorem crcRun_cadenceTimer (B : List Byte) (s : State) : (crcRun B s).cadenceTimer = s.cadenceTimer := rfl
@[simp] theorem crcRun_respTimer (B : List Byte) (s : State) : (crcRun B s).respTimer = s.respTimer := rfl
@[simp] theorem crcRun_uart (B : List Byte) (s : State) : (crcRun B s).uart = s.uart := rfl
@[simp] theorem crcRun_ret (B : List Byte) (s : State) : (crcRun B s).ret = s.ret := rfl
@[simp] theorem crcRun_events (B : List Byte) (s : State) : (crcRun B s).events = s.events := rfl
@[simp] theorem crcRun_history (B : List Byte) (s : State) : (crcRun B s).history = s.history := rfl
@[simp] theorem crcRun_errQueue (B : List Byte) (s : State) : (crcRun B s).errQueue = s.errQueue := rfl
@[simp] theorem crcRun_inputs (B : List Byte) (s : State) : (crcRun B s).inputs = s.inputs := rfl

@[simp] theorem loadFrame_cfg (a f : Byte) (P : List Byte) (s : State) : (loadFrame a f P s).cfg = s.cfg := rfl
@[simp] theorem loadFrame_crc (a f : Byte) (P : List Byte) (s : State) : (loadFrame a f P s).crc = crc16 (a :: f :: P) := rfl
@[simp] theorem loadFrame_txbuf (a f : Byte) (P : List Byte) (s : State) : (loadFrame a f P s).txbuf = memWrite s.txbuf 0 (frameBytes a f P) := rfl
@[simp] theorem loadFrame_txlen (a f : Byte) (P : List Byte) (s : State) : (loadFrame a f P s).txlen = (frameBytes a f P).length := rfl
@[simp] theorem loadFrame_txidx (a f : Byte) (P : List Byte) (s : State) : (loadFrame a f P s).txidx = 0 := rfl
@[simp] theorem loadFrame_rxbuf (a f : Byte) (P : List Byte) (s : State) : (loadFrame a f P s).rxbuf = s.rxbuf := rfl
@[simp] theorem loadFrame_rsp (a f : Byte) (P : List Byte) (s : State) : (loadFrame a f P s).rsp = s.rsp := rfl
@[simp] theorem loadFrame_phase (a f : Byte) (P : List Byte) (s : State) : (loadFrame a f P s).phase = s.phase := rfl
@[simp] theorem loadFrame_curKind (a f : Byte) (P : List Byte) (s : State) : (loadFrame a f P s).curKind = s.curKind := rfl
@[simp] theorem loadFrame_scanDone (a f : Byte) (P : List Byte) (s : State) : (loadFrame a f P s).scanDone = s.scanDone := rfl
@[simp] theorem loadFrame_firstSent (a f : Byte) (P : List Byte) (s : State) : (loadFrame a f P s).firstSent = s.firstSent := rfl
@[simp] theorem loadFrame_connected (a f : Byte) (P : List Byte) (s : State) : (loadFrame a f P s).connected = s.connected := rfl
@[simp] theorem loadFrame_de (a f : Byte) (P : List Byte) (s : State) : (loadFrame a f P s).de = s.de := rfl
@[simp] theorem loadFrame_perrSeen (a f : Byte) (P : List Byte) (s : State) : (loadFrame a f P s).perrSeen = s.perrSeen := rfl
@[simp] theorem loadFrame_ferrSeen (a f : Byte) (P : List Byte) (s : State) : (loadFrame a f P s).ferrSeen = s.ferrSeen := rfl
@[simp] theorem loadFrame_status (a f : Byte) (P : List Byte) (s : State) : (loadFrame a f P s).status = s.status := rfl
@[simp] theorem loadFrame_actionSlot (a f : Byte) (P : List Byte) (s : State) : (loadFrame a f P s).actionSlot = s.actionSlot := rfl
@[simp] theorem loadFrame_timeoutCnt (a f : Byte) (P : List Byte) (s : State) : (loadFrame a f P s).timeoutCnt = s.timeoutCnt := rfl
@[simp] theorem loadFrame_cadenceTimer (a f : Byte) (P : List Byte) (s : State) : (loadFrame a f P s).cadenceTimer = s.cadenceTimer := rfl
@[simp] theorem loadFrame_respTimer (a f : Byte) (P : List Byte) (s : State) : (loadFrame a f P s).respTimer = s.respTimer := rfl
@[simp] theorem loadFrame_uart (a f : Byte) (P : List Byte) (s : State) : (loadFrame a f P s).uart = s.uart := rfl
@[simp] theorem loadFrame_ret (a f : Byte) (P : List Byte) (s : State) : (loadFrame a f P s).ret = s.ret := rfl
@[simp] theorem loadFrame_events (a f : Byte) (P : List Byte) (s : State) : (loadFrame a f P s).events = s.events := rfl
@[simp] theorem loadFrame_history (a f : Byte) (P : List Byte) (s : State) : (loadFrame a f P s).history = s.history := rfl
@[simp] theorem loadFrame_errQueue (a f : Byte) (P : List Byte) (s : State) : (loadFrame a f P s).errQueue = s.errQueue := rfl
@[simp] theorem loadFrame_inputs (a f : Byte) (P : List Byte) (s : State) : (loadFrame a f P s).inputs = s.inputs := rfl

@[simp] theorem buildPoll_cfg (k : PollKind) (a : Word) (s : State) : (buildPoll k a s).cfg = s.cfg := rfl
@[simp] theorem buildPoll_crc (k : PollKind) (a : Word) (s : State) : (buildPoll k a s).crc = crc16 (0x02 :: 0x17 :: pollPayload s.cfg k a) := rfl
@[simp] theorem buildPoll_txbuf (k : PollKind) (a : Word) (s : State) : (buildPoll k a s).txbuf = memWrite s.txbuf 0 (pollFrame s.cfg k a) := rfl
@[simp] theorem buildPoll_txlen (k : PollKind) (a : Word) (s : State) : (buildPoll k a s).txlen = (pollFrame s.cfg k a).length := rfl
@[simp] theorem buildPoll_txidx (k : PollKind) (a : Word) (s : State) : (buildPoll k a s).txidx = 0 := rfl
@[simp] theorem buildPoll_rxbuf (k : PollKind) (a : Word) (s : State) : (buildPoll k a s).rxbuf = s.rxbuf := rfl
@[simp] theorem buildPoll_rsp (k : PollKind) (a : Word) (s : State) : (buildPoll k a s).rsp = s.rsp := rfl
@[simp] theorem buildPoll_phase (k : PollKind) (a : Word) (s : State) : (buildPoll k a s).phase = s.phase := rfl
@[simp] theorem buildPoll_curKind (k : PollKind) (a : Word) (s : State) : (buildPoll k a s).curKind = s.curKind := rfl
@[simp] theorem buildPoll_scanDone (k : PollKind) (a : Word) (s : State) : (buildPoll k a s).scanDone = s.scanDone := rfl
@[simp] theorem buildPoll_firstSent (k : PollKind) (a : Word) (s : State) : (buildPoll k a s).firstSent = s.firstSent := rfl
@[simp] theorem buildPoll_connected (k : PollKind) (a : Word) (s : State) : (buildPoll k a s).connected = s.connected := rfl
@[simp] theorem buildPoll_de (k : PollKind) (a : Word) (s : State) : (buildPoll k a s).de = s.de := rfl
@[simp] theorem buildPoll_perrSeen (k : PollKind) (a : Word) (s : State) : (buildPoll k a s).perrSeen = s.perrSeen := rfl
@[simp] theorem buildPoll_ferrSeen (k : PollKind) (a : Word) (s : State) : (buildPoll k a s).ferrSeen = s.ferrSeen := rfl
@[simp] theorem buildPoll_status (k : PollKind) (a : Word) (s : State) : (buildPoll k a s).status = s.status := rfl
@[simp] theorem buildPoll_actionSlot (k : PollKind) (a : Word) (s : State) : (buildPoll k a s).actionSlot = s.actionSlot := rfl
@[simp] theorem buildPoll_timeoutCnt (k : PollKind) (a : Word) (s : State) : (buildPoll k a s).timeoutCnt = s.timeoutCnt := rfl
@[simp] theorem buildPoll_cadenceTimer (k : PollKind) (a : Word) (s : State) : (buildPoll k a s).cadenceTimer = s.cadenceTimer := rfl
@[simp] theorem buildPoll_respTimer (k : PollKind) (a : Word) (s : State) : (buildPoll k a s).respTimer = s.respTimer := rfl
@[simp] theorem buildPoll_uart (k : PollKind) (a : Word) (s : State) : (buildPoll k a s).uart = s.uart := rfl
@[simp] theorem buildPoll_ret (k : PollKind) (a : Word) (s : State) : (buildPoll k a s).ret = s.ret := rfl
@[simp] theorem buildPoll_events (k : PollKind) (a : Word) (s : State) : (buildPoll k a s).events = s.events := rfl
@[simp] theorem buildPoll_history (k : PollKind) (a : Word) (s : State) : (buildPoll k a s).history = s.history := rfl
@[simp] theorem buildPoll_errQueue (k : PollKind) (a : Word) (s : State) : (buildPoll k a s).errQueue = s.errQueue := rfl
@[simp] theorem buildPoll_inputs (k : PollKind) (a : Word) (s : State) : (buildPoll k a s).inputs = s.inputs := rfl

@[simp] theorem startStep_cfg (r : List Input) (s : State) : (startStep r s).cfg = s.cfg := rfl
@[simp] theorem startStep_crc (r : List Input) (s : State) : (startStep r s).crc = s.crc := rfl
@[simp] theorem startStep_txbuf (r : List Input) (s : State) : (startStep r s).txbuf = s.txbuf := rfl
@[simp] theorem startStep_txlen (r : List Input) (s : State) : (startStep r s).txlen = s.txlen := rfl
@[simp] theorem startStep_txidx (r : List Input) (s : State) : (startStep r s).txidx = s.txidx := rfl
@[simp] theorem startStep_rxbuf (r : List Input) (s : State) : (startStep r s).rxbuf = s.rxbuf := rfl
@[simp] theorem startStep_rsp (r : List Input) (s : State) : (startStep r s).rsp = s.rsp := rfl
@[simp] theorem startStep_phase (r : List Input) (s : State) : (startStep r s).phase = s.phase := rfl
@[simp] theorem startStep_curKind (r : List Input) (s : State) : (startStep r s).curKind = s.curKind := rfl
@[simp] theorem startStep_scanDone (r : List Input) (s : State) : (startStep r s).scanDone = s.scanDone := rfl
@[simp] theorem startStep_firstSent (r : List Input) (s : State) : (startStep r s).firstSent = s.firstSent := rfl
@[simp] theorem startStep_connected (r : List Input) (s : State) : (startStep r s).connected = s.connected := rfl
@[simp] theorem startStep_de (r : List Input) (s : State) : (startStep r s).de = s.de := rfl
@[simp] theorem startStep_perrSeen (r : List Input) (s : State) : (startStep r s).perrSeen = s.perrSeen := rfl
@[simp] theorem startStep_ferrSeen (r : List Input) (s : State) : (startStep r s).ferrSeen = s.ferrSeen := rfl
@[simp] theorem startStep_status (r : List Input) (s : State) : (startStep r s).status = s.status := rfl
@[simp] theorem startStep_actionSlot (r : List Input) (s : State) : (startStep r s).actionSlot = s.actionSlot := rfl
@[simp] theorem startStep_timeoutCnt (r : List Input) (s : State) : (startStep r s).timeoutCnt = s.timeoutCnt := rfl
@[simp] theorem startStep_cadenceTimer (r : List Input) (s : State) : (startStep r s).cadenceTimer = s.cadenceTimer := rfl
@[simp] theorem startStep_respTimer (r : List Input) (s : State) : (startStep r s).respTimer = s.respTimer := rfl
@[simp] theorem startStep_uart (r : List Input) (s : State) : (startStep r s).uart = s.uart := rfl
@[simp] theorem startStep_ret (r : List Input) (s : State) : (startStep r s).ret = .none := rfl
@[simp] theorem startStep_events (r : List Input) (s : State) : (startStep r s).events = [] := rfl
@[simp] theorem startStep_history (r : List Input) (s : State) : (startStep r s).history = s.history ++ s.events := rfl
@[simp] theorem startStep_errQueue (r : List Input) (s : State) : (startStep r s).errQueue = s.errQueue := rfl
@[simp] theorem startStep_inputs (r : List Input) (s : State) : (startStep r s).inputs = r := rfl

@[simp] theorem msTick_cfg (s : State) : (msTick s).cfg = s.cfg := rfl
@[simp] theorem msTick_crc (s : State) : (msTick s).crc = s.crc := rfl
@[simp] theorem msTick_txbuf (s : State) : (msTick s).txbuf = s.txbuf := rfl
@[simp] theorem msTick_txlen (s : State) : (msTick s).txlen = s.txlen := rfl
@[simp] theorem msTick_txidx (s : State) : (msTick s).txidx = s.txidx := rfl
@[simp] theorem msTick_rxbuf (s : State) : (msTick s).rxbuf = s.rxbuf := rfl
@[simp] theorem msTick_rsp (s : State) : (msTick s).rsp = s.rsp := rfl
@[simp] theorem msTick_phase (s : State) : (msTick s).phase = s.phase := rfl
@[simp] theorem msTick_curKind (s : State) : (msTick s).curKind = s.curKind := rfl
@[simp] theorem msTick_scanDone (s : State) : (msTick s).scanDone = s.scanDone := rfl
@[simp] theorem msTick_firstSent (s : State) : (msTick s).firstSent = s.firstSent := rfl
@[simp] theorem msTick_connected (s : State) : (msTick s).connected = s.connected := rfl
@[simp] theorem msTick_de (s : State) : (msTick s).de = s.de := rfl
@[simp] theorem msTick_perrSeen (s : State) : (msTick s).perrSeen = s.perrSeen := rfl
@[simp] theorem msTick_ferrSeen (s : State) : (msTick s).ferrSeen = s.ferrSeen := rfl
@[simp] theorem msTick_status (s : State) : (msTick s).status = s.status := rfl
@[simp] theorem msTick_actionSlot (s : State) : (msTick s).actionSlot = s.actionSlot := rfl
@[simp] theorem msTick_timeoutCnt (s : State) : (msTick s).timeoutCnt = s.timeoutCnt := rfl
@[simp] theorem msTick_cadenceTimer (s : State) : (msTick s).cadenceTimer = countDown s.cadenceTimer := rfl
@[simp] theorem msTick_respTimer (s : State) : (msTick s).respTimer = if s.phase = .awaiting then countDown s.respTimer else s.respTimer := rfl
@[simp] theorem msTick_uart (s : State) : (msTick s).uart = s.uart := rfl
@[simp] theorem msTick_ret (s : State) : (msTick s).ret = s.ret := rfl
@[simp] theorem msTick_events (s : State) : (msTick s).events = s.events := rfl
@[simp] theorem msTick_history (s : State) : (msTick s).history = s.history := rfl
@[simp] theorem msTick_errQueue (s : State) : (msTick s).errQueue = s.errQueue := rfl
@[simp] theorem msTick_inputs (s : State) : (msTick s).inputs = s.inputs := rfl

@[simp] theorem txLoad_cfg (b : Byte) (s : State) : (txLoad b s).cfg = s.cfg := rfl
@[simp] theorem txLoad_crc (b : Byte) (s : State) : (txLoad b s).crc = s.crc := rfl
@[simp] theorem txLoad_txbuf (b : Byte) (s : State) : (txLoad b s).txbuf = s.txbuf := rfl
@[simp] theorem txLoad_txlen (b : Byte) (s : State) : (txLoad b s).txlen = s.txlen := rfl
@[simp] theorem txLoad_txidx (b : Byte) (s : State) : (txLoad b s).txidx = s.txidx := rfl
@[simp] theorem txLoad_rxbuf (b : Byte) (s : State) : (txLoad b s).rxbuf = s.rxbuf := rfl
@[simp] theorem txLoad_rsp (b : Byte) (s : State) : (txLoad b s).rsp = s.rsp := rfl
@[simp] theorem txLoad_phase (b : Byte) (s : State) : (txLoad b s).phase = s.phase := rfl
@[simp] theorem txLoad_curKind (b : Byte) (s : State) : (txLoad b s).curKind = s.curKind := rfl
@[simp] theorem txLoad_scanDone (b : Byte) (s : State) : (txLoad b s).scanDone = s.scanDone := rfl
@[simp] theorem txLoad_firstSent (b : Byte) (s : State) : (txLoad b s).firstSent = s.firstSent := rfl
@[simp] theorem txLoad_connected (b : Byte) (s : State) : (txLoad b s).connected = s.connected := rfl
@[simp] theorem txLoad_de (b : Byte) (s : State) : (txLoad b s).de = s.de := rfl
@[simp] theorem txLoad_perrSeen (b : Byte) (s : State) : (txLoad b s).perrSeen = s.perrSeen := rfl
@[simp] theorem txLoad_ferrSeen (b : Byte) (s : State) : (txLoad b s).ferrSeen = s.ferrSeen := rfl
@[simp] theorem txLoad_status (b : Byte) (s : State) : (txLoad b s).status = s.status := rfl
@[simp] theorem txLoad_actionSlot (b : Byte) (s : State) : (txLoad b s).actionSlot = s.actionSlot := rfl
@[simp] theorem txLoad_timeoutCnt (b : Byte) (s : State) : (txLoad b s).timeoutCnt = s.timeoutCnt := rfl
@[simp] theorem txLoad_cadenceTimer (b : Byte) (s : State) : (txLoad b s).cadenceTimer = s.cadenceTimer := rfl
@[simp] theorem txLoad_respTimer (b : Byte) (s : State) : (txLoad b s).respTimer = s.respTimer := rfl
@[simp] theorem txLoad_ret (b : Byte) (s : State) : (txLoad b s).ret = s.ret := rfl
@[simp] theorem txLoad_events (b : Byte) (s : State) : (txLoad b s).events = s.events := rfl
@[simp] theorem txLoad_history (b : Byte) (s : State) : (txLoad b s).history = s.history := rfl
@[simp] theorem txLoad_errQueue (b : Byte) (s : State) : (txLoad b s).errQueue = s.errQueue := rfl
@[simp] theorem txLoad_inputs (b : Byte) (s : State) : (txLoad b s).inputs = s.inputs := rfl

@[simp] theorem rxIdle_cfg (s : State) : (rxIdle s).cfg = s.cfg := rfl
@[simp] theorem rxIdle_crc (s : State) : (rxIdle s).crc = s.crc := rfl
@[simp] theorem rxIdle_txbuf (s : State) : (rxIdle s).txbuf = s.txbuf := rfl
@[simp] theorem rxIdle_txlen (s : State) : (rxIdle s).txlen = s.txlen := rfl
@[simp] theorem rxIdle_txidx (s : State) : (rxIdle s).txidx = s.txidx := rfl
@[simp] theorem rxIdle_rxbuf (s : State) : (rxIdle s).rxbuf = s.rxbuf := rfl
@[simp] theorem rxIdle_rsp (s : State) : (rxIdle s).rsp = s.rsp := rfl
@[simp] theorem rxIdle_phase (s : State) : (rxIdle s).phase = s.phase := rfl
@[simp] theorem rxIdle_curKind (s : State) : (rxIdle s).curKind = s.curKind := rfl
@[simp] theorem rxIdle_scanDone (s : State) : (rxIdle s).scanDone = s.scanDone := rfl
@[simp] theorem rxIdle_firstSent (s : State) : (rxIdle s).firstSent = s.firstSent := rfl
@[simp] theorem rxIdle_connected (s : State) : (rxIdle s).connected = s.connected := rfl
@[simp] theorem rxIdle_de (s : State) : (rxIdle s).de = s.de := rfl
@[simp] theorem rxIdle_perrSeen (s : State) : (rxIdle s).perrSeen = s.perrSeen := rfl
@[simp] theorem rxIdle_ferrSeen (s : State) : (rxIdle s).ferrSeen = s.ferrSeen := rfl
@[simp] theorem rxIdle_status (s : State) : (rxIdle s).status = s.status := rfl
@[simp] theorem rxIdle_actionSlot (s : State) : (rxIdle s).actionSlot = s.actionSlot := rfl
@[simp] theorem rxIdle_timeoutCnt (s : State) : (rxIdle s).timeoutCnt = s.timeoutCnt := rfl
@[simp] theorem rxIdle_cadenceTimer (s : State) : (rxIdle s).cadenceTimer = s.cadenceTimer := rfl
@[simp] theorem rxIdle_respTimer (s : State) : (rxIdle s).respTimer = s.respTimer := rfl
@[simp] theorem rxIdle_ret (s : State) : (rxIdle s).ret = s.ret := rfl
@[simp] theorem rxIdle_events (s : State) : (rxIdle s).events = s.events := rfl
@[simp] theorem rxIdle_history (s : State) : (rxIdle s).history = s.history := rfl
@[simp] theorem rxIdle_errQueue (s : State) : (rxIdle s).errQueue = s.errQueue := rfl
@[simp] theorem rxIdle_inputs (s : State) : (rxIdle s).inputs = s.inputs := rfl

@[simp] theorem baudStep_cfg (s : State) : (baudStep s).cfg = s.cfg := rfl
@[simp] theorem baudStep_crc (s : State) : (baudStep s).crc = s.crc := rfl
@[simp] theorem baudStep_txbuf (s : State) : (baudStep s).txbuf = s.txbuf := rfl
@[simp] theorem baudStep_txlen (s : State) : (baudStep s).txlen = s.txlen := rfl
@[simp] theorem baudStep_txidx (s : State) : (baudStep s).txidx = s.txidx := rfl
@[simp] theorem baudStep_rxbuf (s : State) : (baudStep s).rxbuf = s.rxbuf := rfl
@[simp] theorem baudStep_rsp (s : State) : (baudStep s).rsp = s.rsp := rfl
@[simp] theorem baudStep_phase (s : State) : (baudStep s).phase = s.phase := rfl
@[simp] theorem baudStep_curKind (s : State) : (baudStep s).curKind = s.curKind := rfl
@[simp] theorem baudStep_scanDone (s : State) : (baudStep s).scanDone = s.scanDone := rfl
@[simp] theorem baudStep_firstSent (s : State) : (baudStep s).firstSent = s.firstSent := rfl
@[simp] theorem baudStep_connected (s : State) : (baudStep s).connected = s.connected := rfl
@[simp] theorem baudStep_de (s : State) : (baudStep s).de = s.de := rfl
@[simp] theorem baudStep_perrSeen (s : State) : (baudStep s).perrSeen = s.perrSeen := rfl
@[simp] theorem baudStep_ferrSeen (s : State) : (baudStep s).ferrSeen = s.ferrSeen := rfl
@[simp] theorem baudStep_status (s : State) : (baudStep s).status = s.status := rfl
@[simp] theorem baudStep_actionSlot (s : State) : (baudStep s).actionSlot = s.actionSlot := rfl
@[simp] theorem baudStep_timeoutCnt (s : State) : (baudStep s).timeoutCnt = s.timeoutCnt := rfl
@[simp] theorem baudStep_cadenceTimer (s : State) : (baudStep s).cadenceTimer = s.cadenceTimer := rfl
@[simp] theorem baudStep_respTimer (s : State) : (baudStep s).respTimer = s.respTimer := rfl
@[simp] theorem baudStep_ret (s : State) : (baudStep s).ret = s.ret := rfl
@[simp] theorem baudStep_events (s : State) : (baudStep s).events = s.events := rfl
@[simp] theorem baudStep_history (s : State) : (baudStep s).history = s.history := rfl
@[simp] theorem baudStep_errQueue (s : State) : (baudStep s).errQueue = s.errQueue := rfl
@[simp] theorem baudStep_inputs (s : State) : (baudStep s).inputs = s.inputs := rfl

@[simp] theorem rxSyncStep_cfg (l : Bool) (s : State) : (rxSyncStep l s).cfg = s.cfg := rfl
@[simp] theorem rxSyncStep_crc (l : Bool) (s : State) : (rxSyncStep l s).crc = s.crc := rfl
@[simp] theorem rxSyncStep_txbuf (l : Bool) (s : State) : (rxSyncStep l s).txbuf = s.txbuf := rfl
@[simp] theorem rxSyncStep_txlen (l : Bool) (s : State) : (rxSyncStep l s).txlen = s.txlen := rfl
@[simp] theorem rxSyncStep_txidx (l : Bool) (s : State) : (rxSyncStep l s).txidx = s.txidx := rfl
@[simp] theorem rxSyncStep_rxbuf (l : Bool) (s : State) : (rxSyncStep l s).rxbuf = s.rxbuf := rfl
@[simp] theorem rxSyncStep_rsp (l : Bool) (s : State) : (rxSyncStep l s).rsp = s.rsp := rfl
@[simp] theorem rxSyncStep_phase (l : Bool) (s : State) : (rxSyncStep l s).phase = s.phase := rfl
@[simp] theorem rxSyncStep_curKind (l : Bool) (s : State) : (rxSyncStep l s).curKind = s.curKind := rfl
@[simp] theorem rxSyncStep_scanDone (l : Bool) (s : State) : (rxSyncStep l s).scanDone = s.scanDone := rfl
@[simp] theorem rxSyncStep_firstSent (l : Bool) (s : State) : (rxSyncStep l s).firstSent = s.firstSent := rfl
@[simp] theorem rxSyncStep_connected (l : Bool) (s : State) : (rxSyncStep l s).connected = s.connected := rfl
@[simp] theorem rxSyncStep_de (l : Bool) (s : State) : (rxSyncStep l s).de = s.de := rfl
@[simp] theorem rxSyncStep_perrSeen (l : Bool) (s : State) : (rxSyncStep l s).perrSeen = s.perrSeen := rfl
@[simp] theorem rxSyncStep_ferrSeen (l : Bool) (s : State) : (rxSyncStep l s).ferrSeen = s.ferrSeen := rfl
@[simp] theorem rxSyncStep_status (l : Bool) (s : State) : (rxSyncStep l s).status = s.status := rfl
@[simp] theorem rxSyncStep_actionSlot (l : Bool) (s : State) : (rxSyncStep l s).actionSlot = s.actionSlot := rfl
@[simp] theorem rxSyncStep_timeoutCnt (l : Bool) (s : State) : (rxSyncStep l s).timeoutCnt = s.timeoutCnt := rfl
@[simp] theorem rxSyncStep_cadenceTimer (l : Bool) (s : State) : (rxSyncStep l s).cadenceTimer = s.cadenceTimer := rfl
@[simp] theorem rxSyncStep_respTimer (l : Bool) (s : State) : (rxSyncStep l s).respTimer = s.respTimer := rfl
@[simp] theorem rxSyncStep_ret (l : Bool) (s : State) : (rxSyncStep l s).ret = s.ret := rfl
@[simp] theorem rxSyncStep_events (l : Bool) (s : State) : (rxSyncStep l s).events = s.events := rfl
@[simp] theorem rxSyncStep_history (l : Bool) (s : State) : (rxSyncStep l s).history = s.history := rfl
@[simp] theorem rxSyncStep_errQueue (l : Bool) (s : State) : (rxSyncStep l s).errQueue = s.errQueue := rfl
@[simp] theorem rxSyncStep_inputs (l : Bool) (s : State) : (rxSyncStep l s).inputs = s.inputs := rfl

@[simp] theorem giveNext_cfg (s : State) : (giveNext s).cfg = s.cfg := rfl
@[simp] theorem giveNext_crc (s : State) : (giveNext s).crc = s.crc := rfl
@[simp] theorem giveNext_txbuf (s : State) : (giveNext s).txbuf = s.txbuf := rfl
@[simp] theorem giveNext_txlen (s : State) : (giveNext s).txlen = s.txlen := rfl
@[simp] theorem giveNext_txidx (s : State) : (giveNext s).txidx = s.txidx + 1 := rfl
@[simp] theorem giveNext_rxbuf (s : State) : (giveNext s).rxbuf = s.rxbuf := rfl
@[simp] theorem giveNext_rsp (s : State) : (giveNext s).rsp = s.rsp := rfl
@[simp] theorem giveNext_phase (s : State) : (giveNext s).phase = s.phase := rfl
@[simp] theorem giveNext_curKind (s : State) : (giveNext s).curKind = s.curKind := rfl
@[simp] theorem giveNext_scanDone (s : State) : (giveNext s).scanDone = s.scanDone := rfl
@[simp] theorem giveNext_firstSent (s : State) : (giveNext s).firstSent = s.firstSent := rfl
@[simp] theorem giveNext_connected (s : State) : (giveNext s).connected = s.connected := rfl
@[simp] theorem giveNext_de (s : State) : (giveNext s).de = s.de := rfl
@[simp] theorem giveNext_perrSeen (s : State) : (giveNext s).perrSeen = s.perrSeen := rfl
@[simp] theorem giveNext_ferrSeen (s : State) : (giveNext s).ferrSeen = s.ferrSeen := rfl
@[simp] theorem giveNext_status (s : State) : (giveNext s).status = s.status := rfl
@[simp] theorem giveNext_actionSlot (s : State) : (giveNext s).actionSlot = s.actionSlot := rfl
@[simp] theorem giveNext_timeoutCnt (s : State) : (giveNext s).timeoutCnt = s.timeoutCnt := rfl
@[simp] theorem giveNext_cadenceTimer (s : State) : (giveNext s).cadenceTimer = s.cadenceTimer := rfl
@[simp] theorem giveNext_respTimer (s : State) : (giveNext s).respTimer = s.respTimer := rfl
@[simp] theorem giveNext_ret (s : State) : (giveNext s).ret = s.ret := rfl
@[simp] theorem giveNext_events (s : State) : (giveNext s).events = s.events := rfl
@[simp] theorem giveNext_history (s : State) : (giveNext s).history = s.history := rfl
@[simp] theorem giveNext_errQueue (s : State) : (giveNext s).errQueue = s.errQueue := rfl
@[simp] theorem giveNext_inputs (s : State) : (giveNext s).inputs = s.inputs := rfl

@[simp] theorem errQueueStep_cfg (s : State) : (errQueueStep s).cfg = s.cfg := rfl
@[simp] theorem errQueueStep_crc (s : State) : (errQueueStep s).crc = s.crc := rfl
@[simp] theorem errQueueStep_txbuf (s : State) : (errQueueStep s).txbuf = s.txbuf := rfl
@[simp] theorem errQueueStep_txlen (s : State) : (errQueueStep s).txlen = s.txlen := rfl
@[simp] theorem errQueueStep_txidx (s : State) : (errQueueStep s).txidx = s.txidx := rfl
@[simp] theorem errQueueStep_rxbuf (s : State) : (errQueueStep s).rxbuf = s.rxbuf := rfl
@[simp] theorem errQueueStep_rsp (s : State) : (errQueueStep s).rsp = s.rsp := rfl
@[simp] theorem errQueueStep_phase (s : State) : (errQueueStep s).phase = s.phase := rfl
@[simp] theorem errQueueStep_curKind (s : State) : (errQueueStep s).curKind = s.curKind := rfl
@[simp] theorem errQueueStep_scanDone (s : State) : (errQueueStep s).scanDone = s.scanDone := rfl
@[simp] theorem errQueueStep_firstSent (s : State) : (errQueueStep s).firstSent = s.firstSent := rfl
@[simp] theorem errQueueStep_connected (s : State) : (errQueueStep s).connected = s.connected := rfl
@[simp] theorem errQueueStep_de (s : State) : (errQueueStep s).de = s.de := rfl
@[simp] theorem errQueueStep_perrSeen (s : State) : (errQueueStep s).perrSeen = s.perrSeen := rfl
@[simp] theorem errQueueStep_ferrSeen (s : State) : (errQueueStep s).ferrSeen = s.ferrSeen := rfl
@[simp] theorem errQueueStep_status (s : State) : (errQueueStep s).status = s.status := rfl
@[simp] theorem errQueueStep_actionSlot (s : State) : (errQueueStep s).actionSlot = s.actionSlot := rfl
@[simp] theorem errQueueStep_timeoutCnt (s : State) : (errQueueStep s).timeoutCnt = s.timeoutCnt := rfl
@[simp] theorem errQueueStep_cadenceTimer (s : State) : (errQueueStep s).cadenceTimer = s.cadenceTimer := rfl
@[simp] theorem errQueueStep_respTimer (s : State) : (errQueueStep s).respTimer = s.respTimer := rfl
@[simp] theorem errQueueStep_uart (s : State) : (errQueueStep s).uart = s.uart := rfl
@[simp] theorem errQueueStep_ret (s : State) : (errQueueStep s).ret = s.ret := rfl
@[simp] theorem errQueueStep_events (s : State) : (errQueueStep s).events = s.events := rfl
@[simp] theorem errQueueStep_history (s : State) : (errQueueStep s).history = s.history := rfl
@[simp] theorem errQueueStep_errQueue (s : State) : (errQueueStep s).errQueue = s.errQueue.drop 1 ++ errorsOf s.events := rfl
@[simp] theorem errQueueStep_inputs (s : State) : (errQueueStep s).inputs = s.inputs := rfl

@[simp] theorem emitWake_cfg (s : State) : (emitWake s).cfg = s.cfg := by unfold emitWake; split <;> rfl
@[simp] theorem emitWake_crc (s : State) : (emitWake s).crc = s.crc := by unfold emitWake; split <;> rfl
@[simp] theorem emitWake_txbuf (s : State) : (emitWake s).txbuf = s.txbuf := by unfold emitWake; split <;> rfl
@[simp] theorem emitWake_txlen (s : State) : (emitWake s).txlen = s.txlen := by unfold emitWake; split <;> rfl
@[simp] theorem emitWake_txidx (s : State) : (emitWake s).txidx = s.txidx := by unfold emitWake; split <;> rfl
@[simp] theorem emitWake_rxbuf (s : State) : (emitWake s).rxbuf = s.rxbuf := by unfold emitWake; split <;> rfl
@[simp] theorem emitWake_rsp (s : State) : (emitWake s).rsp = s.rsp := by unfold emitWake; split <;> rfl
@[simp] theorem emitWake_phase (s : State) : (emitWake s).phase = s.phase := by unfold emitWake; split <;> rfl
@[simp] theorem emitWake_curKind (s : State) : (emitWake s).curKind = s.curKind := by unfold emitWake; split <;> rfl
@[simp] theorem emitWake_scanDone (s : State) : (emitWake s).scanDone = s.scanDone := by unfold emitWake; split <;> rfl
@[simp] theorem emitWake_firstSent (s : State) : (emitWake s).firstSent = s.firstSent := by unfold emitWake; split <;> rfl
@[simp] theorem emitWake_connected (s : State) : (emitWake s).connected = s.connected := by unfold emitWake; split <;> rfl
@[simp] theorem emitWake_de (s : State) : (emitWake s).de = s.de := by unfold emitWake; split <;> rfl
@[simp] theorem emitWake_perrSeen (s : State) : (emitWake s).perrSeen = s.perrSeen := by unfold emitWake; split <;> rfl
@[simp] theorem emitWake_ferrSeen (s : State) : (emitWake s).ferrSeen = s.ferrSeen := by unfold emitWake; split <;> rfl
@[simp] theorem emitWake_status (s : State) : (emitWake s).status = s.status := by unfold emitWake; split <;> rfl
@[simp] theorem emitWake_actionSlot (s : State) : (emitWake s).actionSlot = s.actionSlot := by unfold emitWake; split <;> rfl
@[simp] theorem emitWake_timeoutCnt (s : State) : (emitWake s).timeoutCnt = s.timeoutCnt := by unfold emitWake; split <;> rfl
@[simp] theorem emitWake_cadenceTimer (s : State) : (emitWake s).cadenceTimer = s.cadenceTimer := by unfold emitWake; split <;> rfl
@[simp] theorem emitWake_respTimer (s : State) : (emitWake s).respTimer = s.respTimer := by unfold emitWake; split <;> rfl
@[simp] theorem emitWake_uart (s : State) : (emitWake s).uart = s.uart := by unfold emitWake; split <;> rfl
@[simp] theorem emitWake_ret (s : State) : (emitWake s).ret = s.ret := by unfold emitWake; split <;> rfl
@[simp] theorem emitWake_history (s : State) : (emitWake s).history = s.history := by unfold emitWake; split <;> rfl
@[simp] theorem emitWake_errQueue (s : State) : (emitWake s).errQueue = s.errQueue := by unfold emitWake; split <;> rfl
@[simp] theorem emitWake_inputs (s : State) : (emitWake s).inputs = s.inputs := by unfold emitWake; split <;> rfl

@[simp] theorem decodeRun_cfg (F : List Byte) (s : State) : (decodeRun F s).cfg = s.cfg := by unfold decodeRun; split <;> rfl
@[simp] theorem decodeRun_txbuf (F : List Byte) (s : State) : (decodeRun F s).txbuf = s.txbuf := by unfold decodeRun; split <;> rfl
@[simp] theorem decodeRun_txlen (F : List Byte) (s : State) : (decodeRun F s).txlen = s.txlen := by unfold decodeRun; split <;> rfl
@[simp] theorem decodeRun_txidx (F : List Byte) (s : State) : (decodeRun F s).txidx = s.txidx := by unfold decodeRun; split <;> rfl
@[simp] theorem decodeRun_rxbuf (F : List Byte) (s : State) : (decodeRun F s).rxbuf = s.rxbuf := by unfold decodeRun; split <;> rfl
@[simp] theorem decodeRun_rsp (F : List Byte) (s : State) : (decodeRun F s).rsp = s.rsp := by unfold decodeRun; split <;> rfl
@[simp] theorem decodeRun_phase (F : List Byte) (s : State) : (decodeRun F s).phase = s.phase := by unfold decodeRun; split <;> rfl
@[simp] theorem decodeRun_curKind (F : List Byte) (s : State) : (decodeRun F s).curKind = s.curKind := by unfold decodeRun; split <;> rfl
@[simp] theorem decodeRun_scanDone (F : List Byte) (s : State) : (decodeRun F s).scanDone = s.scanDone := by unfold decodeRun; split <;> rfl
@[simp] theorem decodeRun_firstSent (F : List Byte) (s : State) : (decodeRun F s).firstSent = s.firstSent := by unfold decodeRun; split <;> rfl
@[simp] theorem decodeRun_connected (F : List Byte) (s : State) : (decodeRun F s).connected = s.connected := by unfold decodeRun; split <;> rfl
@[simp] theorem decodeRun_de (F : List Byte) (s : State) : (decodeRun F s).de = s.de := by unfold decodeRun; split <;> rfl
@[simp] theorem decodeRun_perrSeen (F : List Byte) (s : State) : (decodeRun F s).perrSeen = s.perrSeen := by unfold decodeRun; split <;> rfl
@[simp] theorem decodeRun_ferrSeen (F : List Byte) (s : State) : (decodeRun F s).ferrSeen = s.ferrSeen := by unfold decodeRun; split <;> rfl
@[simp] theorem decodeRun_status (F : List Byte) (s : State) : (decodeRun F s).status = s.status := by unfold decodeRun; split <;> rfl
@[simp] theorem decodeRun_actionSlot (F : List Byte) (s : State) : (decodeRun F s).actionSlot = s.actionSlot := by unfold decodeRun; split <;> rfl
@[simp] theorem decodeRun_timeoutCnt (F : List Byte) (s : State) : (decodeRun F s).timeoutCnt = s.timeoutCnt := by unfold decodeRun; split <;> rfl
@[simp] theorem decodeRun_cadenceTimer (F : List Byte) (s : State) : (decodeRun F s).cadenceTimer = s.cadenceTimer := by unfold decodeRun; split <;> rfl
@[simp] theorem decodeRun_respTimer (F : List Byte) (s : State) : (decodeRun F s).respTimer = s.respTimer := by unfold decodeRun; split <;> rfl
@[simp] theorem decodeRun_uart (F : List Byte) (s : State) : (decodeRun F s).uart = s.uart := by unfold decodeRun; split <;> rfl
@[simp] theorem decodeRun_ret (F : List Byte) (s : State) : (decodeRun F s).ret = s.ret := by unfold decodeRun; split <;> rfl
@[simp] theorem decodeRun_events (F : List Byte) (s : State) : (decodeRun F s).events = s.events := by unfold decodeRun; split <;> rfl
@[simp] theorem decodeRun_history (F : List Byte) (s : State) : (decodeRun F s).history = s.history := by unfold decodeRun; split <;> rfl
@[simp] theorem decodeRun_errQueue (F : List Byte) (s : State) : (decodeRun F s).errQueue = s.errQueue := by unfold decodeRun; split <;> rfl
@[simp] theorem decodeRun_inputs (F : List Byte) (s : State) : (decodeRun F s).inputs = s.inputs := by unfold decodeRun; split <;> rfl

@[simp] theorem publish_cfg (st : DriveStatus) (s : State) : (publish st s).cfg = s.cfg := by unfold publish; split <;> simp
@[simp] theorem publish_crc (st : DriveStatus) (s : State) : (publish st s).crc = s.crc := by unfold publish; split <;> simp
@[simp] theorem publish_txbuf (st : DriveStatus) (s : State) : (publish st s).txbuf = s.txbuf := by unfold publish; split <;> simp
@[simp] theorem publish_txlen (st : DriveStatus) (s : State) : (publish st s).txlen = s.txlen := by unfold publish; split <;> simp
@[simp] theorem publish_txidx (st : DriveStatus) (s : State) : (publish st s).txidx = s.txidx := by unfold publish; split <;> simp
@[simp] theorem publish_rxbuf (st : DriveStatus) (s : State) : (publish st s).rxbuf = s.rxbuf := by unfold publish; split <;> simp
@[simp] theorem publish_rsp (st : DriveStatus) (s : State) : (publish st s).rsp = s.rsp := by unfold publish; split <;> simp
@[simp] theorem publish_phase (st : DriveStatus) (s : State) : (publish st s).phase = s.phase := by unfold publish; split <;> simp
@[simp] theorem publish_curKind (st : DriveStatus) (s : State) : (publish st s).curKind = s.curKind := by unfold publish; split <;> simp
@[simp] theorem publish_scanDone (st : DriveStatus) (s : State) : (publish st s).scanDone = s.scanDone := by unfold publish; split <;> simp
@[simp] theorem publish_firstSent (st : DriveStatus) (s : State) : (publish st s).firstSent = s.firstSent := by unfold publish; split <;> simp
@[simp] theorem publish_connected (st : DriveStatus) (s : State) : (publish st s).connected = s.connected := by unfold publish; split <;> simp
@[simp] theorem publish_de (st : DriveStatus) (s : State) : (publish st s).de = s.de := by unfold publish; split <;> simp
@[simp] theorem publish_perrSeen (st : DriveStatus) (s : State) : (publish st s).perrSeen = s.perrSeen := by unfold publish; split <;> simp
@[simp] theorem publish_ferrSeen (st : DriveStatus) (s : State) : (publish st s).ferrSeen = s.ferrSeen := by unfold publish; split <;> simp
@[simp] theorem publish_status (st : DriveStatus) (s : State) : (publish st s).status = st := by unfold publish; split <;> simp
@[simp] theorem publish_actionSlot (st : DriveStatus) (s : State) : (publish st s).actionSlot = s.actionSlot := by unfold publish; split <;> simp
@[simp] theorem publish_timeoutCnt (st : DriveStatus) (s : State) : (publish st s).timeoutCnt = s.timeoutCnt := by unfold publish; split <;> simp
@[simp] theorem publish_cadenceTimer (st : DriveStatus) (s : State) : (publish st s).cadenceTimer = s.cadenceTimer := by unfold publish; split <;> simp
@[simp] theorem publish_respTimer (st : DriveStatus) (s : State) : (publish st s).respTimer = s.respTimer := by unfold publish; split <;> simp
@[simp] theorem publish_uart (st : DriveStatus) (s : State) : (publish st s).uart = s.uart := by unfold publish; split <;> simp
@[simp] theorem publish_ret (st : DriveStatus) (s : State) : (publish st s).ret = s.ret := by unfold publish; split <;> simp
@[simp] theorem publish_history (st : DriveStatus) (s : State) : (publish st s).history = s.history := by unfold publish; split <;> simp
@[simp] theorem publish_errQueue (st : DriveStatus) (s : State) : (publish st s).errQueue = s.errQueue := by unfold publish; split <;> simp
@[simp] theorem publish_inputs (st : DriveStatus) (s : State) : (publish st s).inputs = s.inputs := by unfold publish; split <;> simp

@[simp] theorem driveAction_cfg (k : PollKind) (x : List Word) (s : State) : (driveAction k x s).cfg = s.cfg := by unfold driveAction; split <;> first | rfl | (split <;> rfl)
@[simp] theorem driveAction_crc (k : PollKind) (x : List Word) (s : State) : (driveAction k x s).crc = s.crc := by unfold driveAction; split <;> first | rfl | (split <;> rfl)
@[simp] theorem driveAction_txbuf (k : PollKind) (x : List Word) (s : State) : (driveAction k x s).txbuf = s.txbuf := by unfold driveAction; split <;> first | rfl | (split <;> rfl)
@[simp] theorem driveAction_txlen (k : PollKind) (x : List Word) (s : State) : (driveAction k x s).txlen = s.txlen := by unfold driveAction; split <;> first | rfl | (split <;> rfl)
@[simp] theorem driveAction_txidx (k : PollKind) (x : List Word) (s : State) : (driveAction k x s).txidx = s.txidx := by unfold driveAction; split <;> first | rfl | (split <;> rfl)
@[simp] theorem driveAction_rxbuf (k : PollKind) (x : List Word) (s : State) : (driveAction k x s).rxbuf = s.rxbuf := by unfold driveAction; split <;> first | rfl | (split <;> rfl)
@[simp] theorem driveAction_rsp (k : PollKind) (x : List Word) (s : State) : (driveAction k x s).rsp = s.rsp := by unfold driveAction; split <;> first | rfl | (split <;> rfl)
@[simp] theorem driveAction_phase (k : PollKind) (x : List Word) (s : State) : (driveAction k x s).phase = s.phase := by unfold driveAction; split <;> first | rfl | (split <;> rfl)
@[simp] theorem driveAction_curKind (k : PollKind) (x : List Word) (s : State) : (driveAction k x s).curKind = s.curKind := by unfold driveAction; split <;> first | rfl | (split <;> rfl)
@[simp] theorem driveAction_scanDone (k : PollKind) (x : List Word) (s : State) : (driveAction k x s).scanDone = s.scanDone := by unfold driveAction; split <;> first | rfl | (split <;> rfl)
@[simp] theorem driveAction_firstSent (k : PollKind) (x : List Word) (s : State) : (driveAction k x s).firstSent = s.firstSent := by unfold driveAction; split <;> first | rfl | (split <;> rfl)
@[simp] theorem driveAction_connected (k : PollKind) (x : List Word) (s : State) : (driveAction k x s).connected = s.connected := by unfold driveAction; split <;> first | rfl | (split <;> rfl)
@[simp] theorem driveAction_de (k : PollKind) (x : List Word) (s : State) : (driveAction k x s).de = s.de := by unfold driveAction; split <;> first | rfl | (split <;> rfl)
@[simp] theorem driveAction_perrSeen (k : PollKind) (x : List Word) (s : State) : (driveAction k x s).perrSeen = s.perrSeen := by unfold driveAction; split <;> first | rfl | (split <;> rfl)
@[simp] theorem driveAction_ferrSeen (k : PollKind) (x : List Word) (s : State) : (driveAction k x s).ferrSeen = s.ferrSeen := by unfold driveAction; split <;> first | rfl | (split <;> rfl)
@[simp] theorem driveAction_status (k : PollKind) (x : List Word) (s : State) : (driveAction k x s).status = s.status := by unfold driveAction; split <;> first | rfl | (split <;> rfl)
@[simp] theorem driveAction_actionSlot (k : PollKind) (x : List Word) (s : State) : (driveAction k x s).actionSlot = s.actionSlot := by unfold driveAction; split <;> first | rfl | (split <;> rfl)
@[simp] theorem driveAction_timeoutCnt (k : PollKind) (x : List Word) (s : State) : (driveAction k x s).timeoutCnt = s.timeoutCnt := by unfold driveAction; split <;> first | rfl | (split <;> rfl)
@[simp] theorem driveAction_cadenceTimer (k : PollKind) (x : List Word) (s : State) : (driveAction k x s).cadenceTimer = s.cadenceTimer := by unfold driveAction; split <;> first | rfl | (split <;> rfl)
@[simp] theorem driveAction_respTimer (k : PollKind) (x : List Word) (s : State) : (driveAction k x s).respTimer = s.respTimer := by unfold driveAction; split <;> first | rfl | (split <;> rfl)
@[simp] theorem driveAction_uart (k : PollKind) (x : List Word) (s : State) : (driveAction k x s).uart = s.uart := by unfold driveAction; split <;> first | rfl | (split <;> rfl)
@[simp] theorem driveAction_ret (k : PollKind) (x : List Word) (s : State) : (driveAction k x s).ret = s.ret := by unfold driveAction; split <;> first | rfl | (split <;> rfl)
@[simp] theorem driveAction_history (k : PollKind) (x : List Word) (s : State) : (driveAction k x s).history = s.history := by unfold driveAction; split <;> first | rfl | (split <;> rfl)
@[simp] theorem driveAction_errQueue (k : PollKind) (x : List Word) (s : State) : (driveAction k x s).errQueue = s.errQueue := by unfold driveAction; split <;> first | rfl | (split <;> rfl)
@[simp] theorem driveAction_inputs (k : PollKind) (x : List Word) (s : State) : (driveAction k x s).inputs = s.inputs := by unfold driveAction; split <;> first | rfl | (split <;> rfl)

@[simp] theorem endStep_cfg (b : State) (s : State) : (endStep b s).cfg = s.cfg := by unfold endStep; split <;> rfl
@[simp] theorem endStep_crc (b : State) (s : State) : (endStep b s).crc = s.crc := by unfold endStep; split <;> rfl
@[simp] theorem endStep_txbuf (b : State) (s : State) : (endStep b s).txbuf = s.txbuf := by unfold endStep; split <;> rfl
@[simp] theorem endStep_txlen (b : State) (s : State) : (endStep b s).txlen = s.txlen := by unfold endStep; split <;> rfl
@[simp] theorem endStep_txidx (b : State) (s : State) : (endStep b s).txidx = s.txidx := by unfold endStep; split <;> rfl
@[simp] theorem endStep_rxbuf (b : State) (s : State) : (endStep b s).rxbuf = s.rxbuf := by unfold endStep; split <;> rfl
@[simp] theorem endStep_rsp (b : State) (s : State) : (endStep b s).rsp = s.rsp := by unfold endStep; split <;> rfl
@[simp] theorem endStep_phase (b : State) (s : State) : (endStep b s).phase = s.phase := by unfold endStep; split <;> rfl
@[simp] theorem endStep_curKind (b : State) (s : State) : (endStep b s).curKind = s.curKind := by unfold endStep; split <;> rfl
@[simp] theorem endStep_scanDone (b : State) (s : State) : (endStep b s).scanDone = s.scanDone := by unfold endStep; split <;> rfl
@[simp] theorem endStep_firstSent (b : State) (s : State) : (endStep b s).firstSent = s.firstSent := by unfold endStep; split <;> rfl
@[simp] theorem endStep_connected (b : State) (s : State) : (endStep b s).connected = s.connected := by unfold endStep; split <;> rfl
@[simp] theorem endStep_de (b : State) (s : State) : (endStep b s).de = s.de := by unfold endStep; split <;> rfl
@[simp] theorem endStep_perrSeen (b : State) (s : State) : (endStep b s).perrSeen = s.perrSeen := by unfold endStep; split <;> rfl
@[simp] theorem endStep_ferrSeen (b : State) (s : State) : (endStep b s).ferrSeen = s.ferrSeen := by unfold endStep; split <;> rfl
@[simp] theorem endStep_status (b : State) (s : State) : (endStep b s).status = s.status := by unfold endStep; split <;> rfl
@[simp] theorem endStep_actionSlot (b : State) (s : State) : (endStep b s).actionSlot = s.actionSlot := by unfold endStep; split <;> rfl
@[simp] theorem endStep_timeoutCnt (b : State) (s : State) : (endStep b s).timeoutCnt = s.timeoutCnt := by unfold endStep; split <;> rfl
@[simp] theorem endStep_cadenceTimer (b : State) (s : State) : (endStep b s).cadenceTimer = s.cadenceTimer := by unfold endStep; split <;> rfl
@[simp] theorem endStep_respTimer (b : State) (s : State) : (endStep b s).respTimer = s.respTimer := by unfold endStep; split <;> rfl
@[simp] theorem endStep_uart (b : State) (s : State) : (endStep b s).uart = s.uart := by unfold endStep; split <;> rfl
@[simp] theorem endStep_ret (b : State) (s : State) : (endStep b s).ret = s.ret := by unfold endStep; split <;> rfl
@[simp] theorem endStep_history (b : State) (s : State) : (endStep b s).history = s.history := by unfold endStep; split <;> rfl
@[simp] theorem endStep_errQueue (b : State) (s : State) : (endStep b s).errQueue = s.errQueue := by unfold endStep; split <;> rfl
@[simp] theorem endStep_inputs (b : State) (s : State) : (endStep b s).inputs = s.inputs := by unfold endStep; split <;> rfl

@[simp] theorem hostRead_cfg (p : PinsIn) (s : State) : (hostRead p s).cfg = s.cfg := by unfold hostRead; split <;> rfl
@[simp] theorem hostRead_crc (p : PinsIn) (s : State) : (hostRead p s).crc = s.crc := by unfold hostRead; split <;> rfl
@[simp] theorem hostRead_txbuf (p : PinsIn) (s : State) : (hostRead p s).txbuf = s.txbuf := by unfold hostRead; split <;> rfl
@[simp] theorem hostRead_txlen (p : PinsIn) (s : State) : (hostRead p s).txlen = s.txlen := by unfold hostRead; split <;> rfl
@[simp] theorem hostRead_txidx (p : PinsIn) (s : State) : (hostRead p s).txidx = s.txidx := by unfold hostRead; split <;> rfl
@[simp] theorem hostRead_rxbuf (p : PinsIn) (s : State) : (hostRead p s).rxbuf = s.rxbuf := by unfold hostRead; split <;> rfl
@[simp] theorem hostRead_rsp (p : PinsIn) (s : State) : (hostRead p s).rsp = s.rsp := by unfold hostRead; split <;> rfl
@[simp] theorem hostRead_phase (p : PinsIn) (s : State) : (hostRead p s).phase = s.phase := by unfold hostRead; split <;> rfl
@[simp] theorem hostRead_curKind (p : PinsIn) (s : State) : (hostRead p s).curKind = s.curKind := by unfold hostRead; split <;> rfl
@[simp] theorem hostRead_scanDone (p : PinsIn) (s : State) : (hostRead p s).scanDone = s.scanDone := by unfold hostRead; split <;> rfl
@[simp] theorem hostRead_firstSent (p : PinsIn) (s : State) : (hostRead p s).firstSent = s.firstSent := by unfold hostRead; split <;> rfl
@[simp] theorem hostRead_connected (p : PinsIn) (s : State) : (hostRead p s).connected = s.connected := by unfold hostRead; split <;> rfl
@[simp] theorem hostRead_de (p : PinsIn) (s : State) : (hostRead p s).de = s.de := by unfold hostRead; split <;> rfl
@[simp] theorem hostRead_perrSeen (p : PinsIn) (s : State) : (hostRead p s).perrSeen = s.perrSeen := by unfold hostRead; split <;> rfl
@[simp] theorem hostRead_ferrSeen (p : PinsIn) (s : State) : (hostRead p s).ferrSeen = s.ferrSeen := by unfold hostRead; split <;> rfl
@[simp] theorem hostRead_status (p : PinsIn) (s : State) : (hostRead p s).status = s.status := by unfold hostRead; split <;> rfl
@[simp] theorem hostRead_actionSlot (p : PinsIn) (s : State) : (hostRead p s).actionSlot = s.actionSlot := by unfold hostRead; split <;> rfl
@[simp] theorem hostRead_timeoutCnt (p : PinsIn) (s : State) : (hostRead p s).timeoutCnt = s.timeoutCnt := by unfold hostRead; split <;> rfl
@[simp] theorem hostRead_cadenceTimer (p : PinsIn) (s : State) : (hostRead p s).cadenceTimer = s.cadenceTimer := by unfold hostRead; split <;> rfl
@[simp] theorem hostRead_respTimer (p : PinsIn) (s : State) : (hostRead p s).respTimer = s.respTimer := by unfold hostRead; split <;> rfl
@[simp] theorem hostRead_uart (p : PinsIn) (s : State) : (hostRead p s).uart = s.uart := by unfold hostRead; split <;> rfl
@[simp] theorem hostRead_ret (p : PinsIn) (s : State) : (hostRead p s).ret = s.ret := by unfold hostRead; split <;> rfl
@[simp] theorem hostRead_history (p : PinsIn) (s : State) : (hostRead p s).history = s.history := by unfold hostRead; split <;> rfl
@[simp] theorem hostRead_errQueue (p : PinsIn) (s : State) : (hostRead p s).errQueue = s.errQueue := by unfold hostRead; split <;> rfl
@[simp] theorem hostRead_inputs (p : PinsIn) (s : State) : (hostRead p s).inputs = s.inputs := by unfold hostRead; split <;> rfl

@[simp] theorem hostWrite_cfg (p : PinsIn) (s : State) : (hostWrite p s).cfg = s.cfg := by unfold hostWrite; split <;> rfl
@[simp] theorem hostWrite_crc (p : PinsIn) (s : State) : (hostWrite p s).crc = s.crc := by unfold hostWrite; split <;> rfl
@[simp] theorem hostWrite_txbuf (p : PinsIn) (s : State) : (hostWrite p s).txbuf = s.txbuf := by unfold hostWrite; split <;> rfl
@[simp] theorem hostWrite_txlen (p : PinsIn) (s : State) : (hostWrite p s).txlen = s.txlen := by unfold hostWrite; split <;> rfl
@[simp] theorem hostWrite_txidx (p : PinsIn) (s : State) : (hostWrite p s).txidx = s.txidx := by unfold hostWrite; split <;> rfl
@[simp] theorem hostWrite_rxbuf (p : PinsIn) (s : State) : (hostWrite p s).rxbuf = s.rxbuf := by unfold hostWrite; split <;> rfl
@[simp] theorem hostWrite_rsp (p : PinsIn) (s : State) : (hostWrite p s).rsp = s.rsp := by unfold hostWrite; split <;> rfl
@[simp] theorem hostWrite_phase (p : PinsIn) (s : State) : (hostWrite p s).phase = s.phase := by unfold hostWrite; split <;> rfl
@[simp] theorem hostWrite_curKind (p : PinsIn) (s : State) : (hostWrite p s).curKind = s.curKind := by unfold hostWrite; split <;> rfl
@[simp] theorem hostWrite_scanDone (p : PinsIn) (s : State) : (hostWrite p s).scanDone = s.scanDone := by unfold hostWrite; split <;> rfl
@[simp] theorem hostWrite_firstSent (p : PinsIn) (s : State) : (hostWrite p s).firstSent = s.firstSent := by unfold hostWrite; split <;> rfl
@[simp] theorem hostWrite_connected (p : PinsIn) (s : State) : (hostWrite p s).connected = s.connected := by unfold hostWrite; split <;> rfl
@[simp] theorem hostWrite_de (p : PinsIn) (s : State) : (hostWrite p s).de = s.de := by unfold hostWrite; split <;> rfl
@[simp] theorem hostWrite_perrSeen (p : PinsIn) (s : State) : (hostWrite p s).perrSeen = s.perrSeen := by unfold hostWrite; split <;> rfl
@[simp] theorem hostWrite_ferrSeen (p : PinsIn) (s : State) : (hostWrite p s).ferrSeen = s.ferrSeen := by unfold hostWrite; split <;> rfl
@[simp] theorem hostWrite_status (p : PinsIn) (s : State) : (hostWrite p s).status = s.status := by unfold hostWrite; split <;> rfl
@[simp] theorem hostWrite_timeoutCnt (p : PinsIn) (s : State) : (hostWrite p s).timeoutCnt = s.timeoutCnt := by unfold hostWrite; split <;> rfl
@[simp] theorem hostWrite_cadenceTimer (p : PinsIn) (s : State) : (hostWrite p s).cadenceTimer = s.cadenceTimer := by unfold hostWrite; split <;> rfl
@[simp] theorem hostWrite_respTimer (p : PinsIn) (s : State) : (hostWrite p s).respTimer = s.respTimer := by unfold hostWrite; split <;> rfl
@[simp] theorem hostWrite_uart (p : PinsIn) (s : State) : (hostWrite p s).uart = s.uart := by unfold hostWrite; split <;> rfl
@[simp] theorem hostWrite_ret (p : PinsIn) (s : State) : (hostWrite p s).ret = s.ret := by unfold hostWrite; split <;> rfl
@[simp] theorem hostWrite_events (p : PinsIn) (s : State) : (hostWrite p s).events = s.events := by unfold hostWrite; split <;> rfl
@[simp] theorem hostWrite_history (p : PinsIn) (s : State) : (hostWrite p s).history = s.history := by unfold hostWrite; split <;> rfl
@[simp] theorem hostWrite_errQueue (p : PinsIn) (s : State) : (hostWrite p s).errQueue = s.errQueue := by unfold hostWrite; split <;> rfl
@[simp] theorem hostWrite_inputs (p : PinsIn) (s : State) : (hostWrite p s).inputs = s.inputs := by unfold hostWrite; split <;> rfl

@[simp] theorem gateReceiver_cfg (s : State) : (gateReceiver s).cfg = s.cfg := by unfold gateReceiver; split <;> rfl
@[simp] theorem gateReceiver_crc (s : State) : (gateReceiver s).crc = s.crc := by unfold gateReceiver; split <;> rfl
@[simp] theorem gateReceiver_txbuf (s : State) : (gateReceiver s).txbuf = s.txbuf := by unfold gateReceiver; split <;> rfl
@[simp] theorem gateReceiver_txlen (s : State) : (gateReceiver s).txlen = s.txlen := by unfold gateReceiver; split <;> rfl
@[simp] theorem gateReceiver_txidx (s : State) : (gateReceiver s).txidx = s.txidx := by unfold gateReceiver; split <;> rfl
@[simp] theorem gateReceiver_rxbuf (s : State) : (gateReceiver s).rxbuf = s.rxbuf := by unfold gateReceiver; split <;> rfl
@[simp] theorem gateReceiver_rsp (s : State) : (gateReceiver s).rsp = s.rsp := by unfold gateReceiver; split <;> rfl
@[simp] theorem gateReceiver_phase (s : State) : (gateReceiver s).phase = s.phase := by unfold gateReceiver; split <;> rfl
@[simp] theorem gateReceiver_curKind (s : State) : (gateReceiver s).curKind = s.curKind := by unfold gateReceiver; split <;> rfl
@[simp] theorem gateReceiver_scanDone (s : State) : (gateReceiver s).scanDone = s.scanDone := by unfold gateReceiver; split <;> rfl
@[simp] theorem gateReceiver_firstSent (s : State) : (gateReceiver s).firstSent = s.firstSent := by unfold gateReceiver; split <;> rfl
@[simp] theorem gateReceiver_connected (s : State) : (gateReceiver s).connected = s.connected := by unfold gateReceiver; split <;> rfl
@[simp] theorem gateReceiver_de (s : State) : (gateReceiver s).de = s.de := by unfold gateReceiver; split <;> rfl
@[simp] theorem gateReceiver_perrSeen (s : State) : (gateReceiver s).perrSeen = s.perrSeen := by unfold gateReceiver; split <;> rfl
@[simp] theorem gateReceiver_ferrSeen (s : State) : (gateReceiver s).ferrSeen = s.ferrSeen := by unfold gateReceiver; split <;> rfl
@[simp] theorem gateReceiver_status (s : State) : (gateReceiver s).status = s.status := by unfold gateReceiver; split <;> rfl
@[simp] theorem gateReceiver_actionSlot (s : State) : (gateReceiver s).actionSlot = s.actionSlot := by unfold gateReceiver; split <;> rfl
@[simp] theorem gateReceiver_timeoutCnt (s : State) : (gateReceiver s).timeoutCnt = s.timeoutCnt := by unfold gateReceiver; split <;> rfl
@[simp] theorem gateReceiver_cadenceTimer (s : State) : (gateReceiver s).cadenceTimer = s.cadenceTimer := by unfold gateReceiver; split <;> rfl
@[simp] theorem gateReceiver_respTimer (s : State) : (gateReceiver s).respTimer = s.respTimer := by unfold gateReceiver; split <;> rfl
@[simp] theorem gateReceiver_ret (s : State) : (gateReceiver s).ret = s.ret := by unfold gateReceiver; split <;> rfl
@[simp] theorem gateReceiver_events (s : State) : (gateReceiver s).events = s.events := by unfold gateReceiver; split <;> rfl
@[simp] theorem gateReceiver_history (s : State) : (gateReceiver s).history = s.history := by unfold gateReceiver; split <;> rfl
@[simp] theorem gateReceiver_errQueue (s : State) : (gateReceiver s).errQueue = s.errQueue := by unfold gateReceiver; split <;> rfl
@[simp] theorem gateReceiver_inputs (s : State) : (gateReceiver s).inputs = s.inputs := by unfold gateReceiver; split <;> rfl

@[simp] theorem txStart_cfg (s : State) : (txStart s).cfg = s.cfg := by unfold txStart; split <;> rfl
@[simp] theorem txStart_crc (s : State) : (txStart s).crc = s.crc := by unfold txStart; split <;> rfl
@[simp] theorem txStart_txbuf (s : State) : (txStart s).txbuf = s.txbuf := by unfold txStart; split <;> rfl
@[simp] theorem txStart_txlen (s : State) : (txStart s).txlen = s.txlen := by unfold txStart; split <;> rfl
@[simp] theorem txStart_rxbuf (s : State) : (txStart s).rxbuf = s.rxbuf := by unfold txStart; split <;> rfl
@[simp] theorem txStart_rsp (s : State) : (txStart s).rsp = s.rsp := by unfold txStart; split <;> rfl
@[simp] theorem txStart_phase (s : State) : (txStart s).phase = s.phase := by unfold txStart; split <;> rfl
@[simp] theorem txStart_curKind (s : State) : (txStart s).curKind = s.curKind := by unfold txStart; split <;> rfl
@[simp] theorem txStart_scanDone (s : State) : (txStart s).scanDone = s.scanDone := by unfold txStart; split <;> rfl
@[simp] theorem txStart_firstSent (s : State) : (txStart s).firstSent = s.firstSent := by unfold txStart; split <;> rfl
@[simp] theorem txStart_connected (s : State) : (txStart s).connected = s.connected := by unfold txStart; split <;> rfl
@[simp] theorem txStart_de (s : State) : (txStart s).de = s.de := by unfold txStart; split <;> rfl
@[simp] theorem txStart_perrSeen (s : State) : (txStart s).perrSeen = s.perrSeen := by unfold txStart; split <;> rfl
@[simp] theorem txStart_ferrSeen (s : State) : (txStart s).ferrSeen = s.ferrSeen := by unfold txStart; split <;> rfl
@[simp] theorem txStart_status (s : State) : (txStart s).status = s.status := by unfold txStart; split <;> rfl
@[simp] theorem txStart_actionSlot (s : State) : (txStart s).actionSlot = s.actionSlot := by unfold txStart; split <;> rfl
@[simp] theorem txStart_timeoutCnt (s : State) : (txStart s).timeoutCnt = s.timeoutCnt := by unfold txStart; split <;> rfl
@[simp] theorem txStart_cadenceTimer (s : State) : (txStart s).cadenceTimer = s.cadenceTimer := by unfold txStart; split <;> rfl
@[simp] theorem txStart_respTimer (s : State) : (txStart s).respTimer = s.respTimer := by unfold txStart; split <;> rfl
@[simp] theorem txStart_ret (s : State) : (txStart s).ret = s.ret := by unfold txStart; split <;> rfl
@[simp] theorem txStart_events (s : State) : (txStart s).events = s.events := by unfold txStart; split <;> rfl
@[simp] theorem txStart_history (s : State) : (txStart s).history = s.history := by unfold txStart; split <;> rfl
@[simp] theorem txStart_errQueue (s : State) : (txStart s).errQueue = s.errQueue := by unfold txStart; split <;> rfl
@[simp] theorem txStart_inputs (s : State) : (txStart s).inputs = s.inputs := by unfold txStart; split <;> rfl

end Sys2Proof.Machine
end

