-- ==== Sys2Proof/Laws/Codec.lean ====
section
/-! SUPPORT. The laws of the CRC engine, the frame formats and DECODE, stated once for the proofs that use them. -/

namespace Sys2Proof.Machine

/-- The accumulator after CRC.INIT and one CRC.UPDATE for each byte (R123). -/
theorem crcRun_eq_updates (B : List Byte) (s : State) :
    crcRun B s = B.foldl (fun t b => crcUpdate b t) (crcInit s) := by
  have h : ∀ (B : List Byte) (t : State),
      B.foldl (fun t b => crcUpdate b t) t = { t with crc := B.foldl crcByte t.crc } := by
    intro B
    induction B with
    | nil => intro t; rfl
    | cons b rest ih => intro t; simp only [List.foldl_cons]; rw [ih]; rfl
  rw [h]; rfl

theorem crc16_append (A B : List Byte) : crc16 (A ++ B) = B.foldl crcByte (crc16 A) := by
  simp [crc16, List.foldl_append]

@[simp] theorem frameBytes_length (a f : Byte) (P : List Byte) : (frameBytes a f P).length = P.length + 4 := by
  simp [frameBytes]

@[simp] theorem rawFrame_length (a f : Byte) (P : List Byte) (c : Word) : (rawFrame a f P c).length = P.length + 4 := by
  simp [rawFrame]

@[simp] theorem pollPayload_length (c : Cfg) (k : PollKind) (a : Word) : (pollPayload c k a).length = 11 := rfl

@[simp] theorem pollFrame_length (c : Cfg) (k : PollKind) (a : Word) : (pollFrame c k a).length = 15 := by
  simp [pollFrame]

@[simp] theorem joinBytes_getLsbD (h l : Byte) (i : Nat) :
    (joinBytes h l).getLsbD i = if i < 8 then l.getLsbD i else h.getLsbD (i - 8) := by
  refine (BitVec.getLsbD_append (x := h) (y := l) (i := i)).trans ?_
  split <;> simp_all

@[simp] theorem joinBytes_hi_lo (v : Word) : joinBytes (hiByte v) (loByte v) = v := by
  refine BitVec.eq_of_getLsbD_eq fun i hi => ?_
  simp only [joinBytes_getLsbD, hiByte, loByte, BitVec.getLsbD_extractLsb']
  split
  · simp [*]
  · have h1 : i - 8 < 8 := by omega
    have h2 : 8 + (i - 8) = i := by omega
    simp [h1, h2]

@[simp] theorem hiByte_joinBytes (h l : Byte) : hiByte (joinBytes h l) = h := by
  refine BitVec.eq_of_getLsbD_eq fun i hi => ?_
  simp [hiByte, hi]

@[simp] theorem loByte_joinBytes (h l : Byte) : loByte (joinBytes h l) = l := by
  refine BitVec.eq_of_getLsbD_eq fun i hi => ?_
  simp [loByte, hi]

/-- The frame ENCODE builds is the raw frame with its own checksum. -/
theorem frameBytes_eq_rawFrame (a f : Byte) (P : List Byte) :
    frameBytes a f P = rawFrame a f P (crc16 (a :: f :: P)) := rfl

theorem byteAt_append_right (A B : List Byte) (k : Nat) : byteAt (A ++ B) (A.length + k) = byteAt B k := by
  unfold byteAt
  rw [List.getD_append_right _ _ _ _ (Nat.le_add_right _ _), Nat.add_sub_cancel_left]

/-- The checksum field of a raw frame, read as DECODE reads it. -/
theorem le16_rawFrame (a f : Byte) (P : List Byte) (c : Word) :
    le16 (rawFrame a f P c) ((rawFrame a f P c).length - 2) = c := by
  have e : (rawFrame a f P c).length - 2 = (a :: f :: P).length := by simp
  rw [e]
  have h0 := byteAt_append_right (a :: f :: P) [loByte c, hiByte c] 0
  have h1 := byteAt_append_right (a :: f :: P) [loByte c, hiByte c] 1
  rw [le16]
  have r : rawFrame a f P c = (a :: f :: P) ++ [loByte c, hiByte c] := rfl
  rw [r, h1]
  rw [Nat.add_zero] at h0
  rw [h0]
  exact joinBytes_hi_lo c

/-- The bytes of a raw frame before its checksum. -/
theorem take_rawFrame (a f : Byte) (P : List Byte) (c : Word) :
    (rawFrame a f P c).take ((rawFrame a f P c).length - 2) = a :: f :: P := by
  have e : (rawFrame a f P c).length - 2 = (a :: f :: P).length := by simp
  rw [e]
  exact List.take_left' rfl

/-- The payload of a raw frame, read as DECODE reads it. -/
theorem slice_rawFrame (a f : Byte) (P : List Byte) (c : Word) :
    slice (rawFrame a f P c) 2 ((rawFrame a f P c).length - 2) = P := by
  rw [slice, take_rawFrame]; rfl

/-- DECODE of a raw frame that is long enough: its checksum decides (R142). -/
theorem decodeFrame_rawFrame {n : Nat} {a f : Byte} {P : List Byte} {c : Word} (h : n ≤ P.length + 4) :
    decodeFrame n (rawFrame a f P c)
      = if crc16 (a :: f :: P) = c then .frame ⟨a, f, P, c⟩ else .checksumMismatch := by
  unfold decodeFrame
  simp only [rawFrame_length]
  rw [if_neg (by omega)]
  have t := take_rawFrame a f P c
  have l := le16_rawFrame a f P c
  have p := slice_rawFrame a f P c
  rw [rawFrame_length] at t l p
  rw [t, l, p]
  by_cases hc : crc16 (a :: f :: P) = c
  · subst hc; simp [rawFrame, byteAt]
  · simp [hc]

/-- What DECODE can answer, and when (R142). -/
theorem decodeFrame_cases (n : Nat) (F : List Byte) :
    (F.length < n ∧ decodeFrame n F = .truncated) ∨
    (n ≤ F.length ∧ crc16 (F.take (F.length - 2)) ≠ le16 F (F.length - 2) ∧ decodeFrame n F = .checksumMismatch) ∨
    (n ≤ F.length ∧ crc16 (F.take (F.length - 2)) = le16 F (F.length - 2) ∧
      decodeFrame n F = .frame ⟨byteAt F 0, byteAt F 1, slice F 2 (F.length - 2), le16 F (F.length - 2)⟩) := by
  unfold decodeFrame
  by_cases h : F.length < n
  · simp [h]
  · by_cases hc : crc16 (F.take (F.length - 2)) = le16 F (F.length - 2)
    · simp [h, hc]; omega
    · simp [h, hc]; omega

theorem clampPos_le (p : Byte) : (clampPos p).toNat ≤ 200 := by
  unfold clampPos; split
  · assumption
  · decide

theorem posMap_le (c : Cfg) (v : Word) : (posMap c v).toNat ≤ 200 := by
  unfold posMap; split
  · rename_i h
    simp only [loByte, BitVec.extractLsb'_toNat, Nat.shiftRight_zero]
    omega
  · exact clampPos_le _

theorem pollStatus_le {c : Cfg} {k : PollKind} {x : List Word} {st : DriveStatus} (h : pollStatus c k x = some st) :
    st.position.toNat ≤ 200 := by
  unfold pollStatus at h
  cases ht : tableFind (k, x) c.pollTable with
  | none => simp [ht] at h
  | some d => simp [ht] at h; subst h; exact clampPos_le _

end Sys2Proof.Machine
end

