-- ==== Sys2Proof/Laws/Scheduler.lean ====
section
/-! SUPPORT. For each shared operation, one lemma that says everything it can do, so that proofs cite it instead of
unfolding the operation; and the induction over the lines of `settle`. -/

namespace Sys2Proof.Machine

/-- `emit Wake` adds at most the wake output. -/
theorem emitWake_effect (s : State) :
    ∃ ev, emitWake s = { s with events := ev } ∧ (ev = s.events ∨ ev = s.events ++ [.wake]) := by
  unfold emitWake
  split
  · exact ⟨_, rfl, Or.inr rfl⟩
  · exact ⟨s.events, rfl, Or.inl rfl⟩

/-- Publication writes the status and adds at most the wake output (R174). -/
theorem publish_effect (st : DriveStatus) (s : State) :
    ∃ ev, publish st s = { s with status := st, events := ev } ∧ (ev = s.events ∨ ev = s.events ++ [.wake]) := by
  unfold publish
  split
  · exact ⟨s.events, rfl, Or.inl rfl⟩
  · obtain ⟨ev, h, h'⟩ := emitWake_effect { s with status := st }
    exact ⟨ev, h, h'⟩

/-- The StatusDecoder writes a status within range, or raises `MalformedStatus`; nothing else (R170 to R175). -/
theorem statusDecoder_effect (fr : Frame) (s : State) :
    (broadcastOk fr = true ∧ ∃ st ev, statusDecoder fr s = { s with status := st, events := ev } ∧
      st = ⟨posMap s.cfg ((broadcastWords fr.payload).getD 1 0), stateMap s.cfg ((broadcastWords fr.payload).getD 2 0)⟩ ∧
      (ev = s.events ∨ ev = s.events ++ [.wake])) ∨
    (broadcastOk fr = false ∧ statusDecoder fr s = raiseError .malformedStatus (be16 fr.payload 0) s) := by
  unfold statusDecoder
  split
  · obtain ⟨ev, h, h'⟩ := publish_effect
      ⟨posMap s.cfg ((broadcastWords fr.payload).getD 1 0), stateMap s.cfg ((broadcastWords fr.payload).getD 2 0)⟩ s
    exact Or.inl ⟨‹_›, _, ev, h, rfl, h'⟩
  · exact Or.inr ⟨by simpa using ‹¬ broadcastOk fr = true›, rfl⟩

/-- The drive-to-host event changes nothing but the outputs (R181). -/
theorem driveAction_effect (k : PollKind) (x : List Word) (s : State) :
    ∃ ev, driveAction k x s = { s with events := ev } ∧
      (ev = s.events ∨ ∃ v, k = .commandPoll ∧ x[2]? = some v ∧ v ≠ 0 ∧ ev = s.events ++ [.drvAction v]) := by
  unfold driveAction
  split
  · split
    · exact ⟨s.events, rfl, Or.inl rfl⟩
    · exact ⟨_, rfl, Or.inr ⟨_, rfl, ‹_›, ‹_›, rfl⟩⟩
  · exact ⟨s.events, rfl, Or.inl rfl⟩
  · exact ⟨s.events, rfl, Or.inl rfl⟩

/-- The poll-response parser writes at most the status, within range, and adds outputs (R180 to R182). -/
theorem parseResponse_effect (rsp : List Byte) (s : State) :
    ∃ st ev, parseResponse rsp s = { s with status := st, events := ev } ∧
      (st = s.status ∨ st.position.toNat ≤ 200) := by
  unfold parseResponse embeddedStatus
  obtain ⟨ev, h, -⟩ := driveAction_effect s.curKind (responseWords (readQty s.cfg s.curKind) rsp) s
  simp only [h]
  split
  · exact ⟨s.status, ev, rfl, Or.inl rfl⟩
  · rename_i st hst
    obtain ⟨ev', h', -⟩ := publish_effect st { s with events := ev }
    exact ⟨st, ev', h', Or.inr (pollStatus_le hst)⟩

/-- The whole of what follows a complete candidate (R146, R147): the accumulator and the outputs change, and beside them
the status (a broadcast), or the latched response and the phase (an accepted response), or the phase alone (a response with
a bad checksum). -/
theorem judge_effect (F : List Byte) (s : State) :
    ∃ c st ev, (st = s.status ∨ st.position.toNat ≤ 200) ∧
      (judge F s = { s with crc := c, status := st, events := ev } ∨
       (s.phase = .awaiting ∧ judge F s = { s with crc := c, events := ev, rsp := F, phase := .completed }) ∨
       (s.phase = .awaiting ∧ judge F s = { s with crc := c, events := ev, phase := .timedOut })) := by
  have hd : decodeRun F s = { s with crc := (decodeRun F s).crc } := by
    unfold decodeRun; split <;> rfl
  unfold judge
  rw [hd]
  generalize (decodeRun F s).crc = c
  cases decodeFrame s.cfg.minFrameLen F with
  | truncated => exact ⟨c, s.status, s.events, Or.inl rfl, Or.inl rfl⟩
  | checksumMismatch =>
    simp only
    split
    · unfold crcFail
      by_cases hp : s.phase = .awaiting
      · exact ⟨c, s.status, _, Or.inl rfl, Or.inr (Or.inr ⟨hp, by rw [if_pos (by simpa using hp)]; rfl⟩)⟩
      · exact ⟨c, s.status, _, Or.inl rfl, Or.inl (by rw [if_neg (by simpa using hp)]; rfl)⟩
    · exact ⟨c, s.status, _, Or.inl rfl, Or.inl rfl⟩
  | frame fr =>
    simp only [deliver]
    split
    · rcases statusDecoder_effect fr { s with crc := c } with ⟨-, st, ev, h, hst, -⟩ | ⟨-, h⟩
      · exact ⟨c, st, ev, Or.inr (by rw [hst]; exact posMap_le _ _), Or.inl h⟩
      · exact ⟨c, s.status, _, Or.inl rfl, Or.inl h⟩
    · split
      · unfold acceptResponse
        by_cases hp : s.phase = .awaiting
        · exact ⟨c, s.status, s.events, Or.inl rfl, Or.inr (Or.inl ⟨hp, by rw [if_pos (by simpa using hp)]⟩)⟩
        · exact ⟨c, s.status, s.events, Or.inl rfl, Or.inl (by rw [if_neg (by simpa using hp)])⟩
      · exact ⟨c, s.status, s.events, Or.inl rfl, Or.inl rfl⟩

/-- T.COMPLETED, where it is taken (R208). -/
theorem completed_effect {s : State} (h : s.phase = .completed) :
    ∃ st ev, (st = s.status ∨ st.position.toNat ≤ 200) ∧
      completed s = { s with
        status := st, events := ev, timeoutCnt := 0, connected := true, scanDone := true, phase := .idle } := by
  unfold completed
  rw [if_pos h]
  obtain ⟨st, ev, hp, hst⟩ := parseResponse_effect s.rsp s
  simp only [hp]
  split
  · obtain ⟨ev', h', -⟩ := emitWake_effect { s with
      status := st, events := ev, timeoutCnt := 0, connected := true, scanDone := true, phase := .idle }
    exact ⟨st, ev', hst, h'⟩
  · exact ⟨st, ev, hst, rfl⟩

/-- T.TIMEDOUT, where it is taken (R211). -/
theorem timedOut_effect {s : State} (h : s.phase = .timedOut) :
    ∃ ev,
      (s.cfg.timeoutThreshold.toNat ≤ (satInc s.timeoutCnt).toNat ∧
        timedOut s = { s with
          events := ev, timeoutCnt := satInc s.timeoutCnt, connected := false, phase := .idle,
          scanDone := if s.cfg.scanPolicy = .rescanOnDisconnect then false else s.scanDone }) ∨
      ((satInc s.timeoutCnt).toNat < s.cfg.timeoutThreshold.toNat ∧
        timedOut s = { s with events := ev, timeoutCnt := satInc s.timeoutCnt, phase := .idle }) := by
  unfold timedOut
  rw [if_pos h]
  dsimp only
  split
  · split
    · obtain ⟨ev, h', -⟩ := emitWake_effect { s with
        timeoutCnt := satInc s.timeoutCnt, connected := false, phase := .idle,
        scanDone := if s.cfg.scanPolicy = .rescanOnDisconnect then false else s.scanDone }
      exact ⟨ev, Or.inl ⟨‹_›, h'⟩⟩
    · exact ⟨s.events, Or.inl ⟨‹_›, rfl⟩⟩
  · exact ⟨s.events, Or.inr ⟨by omega, rfl⟩⟩

/-- T.TICK, where it is taken (R202). -/
theorem tick_effect {s : State} (h : s.phase = .idle) (h0 : s.cadenceTimer = 0) :
    tick s = { s with
      crc := crc16 (0x02 :: 0x17 :: pollPayload s.cfg (nextKind s) s.actionSlot)
      txbuf := memWrite s.txbuf 0 (pollFrame s.cfg (nextKind s) s.actionSlot)
      txlen := 15
      txidx := 0
      curKind := nextKind s
      actionSlot := 0
      firstSent := true
      rxbuf := []
      cadenceTimer := s.cfg.pollIntervalMs
      de := true
      phase := .sending
      events := s.events ++ [.tx (pollFrame s.cfg (nextKind s) s.actionSlot), .de true] } := by
  unfold tick
  rw [if_pos ⟨h, h0⟩]
  have hl : (frameBytes 2#8 23#8 (pollPayload s.cfg (nextKind s) s.actionSlot)).length = 15 := rfl
  simp [emit, buildPoll, loadFrame, pollFrame, crcRun]

/-- A complete candidate is not empty (R145). -/
theorem classify_complete_pos {c : Cfg} {ph : Phase} {k : PollKind} {B : List Byte} {L : Nat}
    (h : classify c ph k B = .complete L) : 0 < L := by
  unfold classify at h
  dsimp only at h
  repeat' split at h
  all_goals cases h
  all_goals omega

/-- RX.SCAN removes at least one byte and at most what is there (R146). -/
theorem consumed_bounds {m L : Nat} {B : List Byte} (hL : 0 < L) (hB : B ≠ []) :
    0 < consumed m (B.take L) ∧ consumed m (B.take L) ≤ B.length := by
  have := List.length_pos_iff.mpr hB
  unfold consumed
  split
  · simp; omega
  · omega
  · omega

/-- RX.SCAN, one iteration, where it is enabled (R146). -/
theorem rxScan_effect {s : State} (h : scanEnabled s = true) :
    (classify s.cfg s.phase s.curKind s.rxbuf = .reject ∧ s.rxbuf ≠ [] ∧
      rxScan s = { s with rxbuf := s.rxbuf.drop 1 }) ∨
    ∃ L, classify s.cfg s.phase s.curKind s.rxbuf = .complete L ∧ s.rxbuf ≠ [] ∧
      rxScan s = judge (s.rxbuf.take L)
        { s with rxbuf := s.rxbuf.drop (consumed s.cfg.minFrameLen (s.rxbuf.take L)) } := by
  unfold scanEnabled at h
  unfold rxScan
  cases hb : s.rxbuf with
  | nil => simp [hb] at h
  | cons b rest =>
    rw [hb] at h
    cases hc : classify s.cfg s.phase s.curKind (b :: rest) with
    | needMore => simp [hc] at h
    | reject => exact Or.inl ⟨rfl, by simp, by simp only [hc]; rfl⟩
    | complete L => exact Or.inr ⟨L, rfl, by simp, by simp only [hc]⟩

/-- The lines of `settle` (R217), in their order. -/
theorem settleLine_cases {s t : State} (h : settleLine s = some t) :
    (s.phase = .completed ∧ t = completed s) ∨
    (s.phase = .timedOut ∧ t = timedOut s) ∨
    (s.phase ≠ .completed ∧ s.phase ≠ .timedOut ∧ scanEnabled s = true ∧ t = rxScan s) ∨
    (s.phase = .awaiting ∧ s.respTimer = 0 ∧ scanEnabled s = false ∧ t = timeout s) ∨
    (s.phase = .idle ∧ s.cadenceTimer = 0 ∧ scanEnabled s = false ∧ t = tick s) := by
  unfold settleLine at h
  split at h
  · cases h; exact Or.inl ⟨‹_›, rfl⟩
  split at h
  · cases h; exact Or.inr (Or.inl ⟨‹_›, rfl⟩)
  split at h
  · cases h; exact Or.inr (Or.inr (Or.inl ⟨‹_›, ‹_›, ‹_›, rfl⟩))
  have hs : scanEnabled s = false := by simpa using ‹¬ scanEnabled s = true›
  split at h
  · cases h; exact Or.inr (Or.inr (Or.inr (Or.inl ⟨(‹_ ∧ _›).1, (‹_ ∧ _›).2, hs, rfl⟩)))
  split at h
  · cases h; exact Or.inr (Or.inr (Or.inr (Or.inr ⟨(‹_ ∧ _›).1, (‹_ ∧ _›).2, hs, rfl⟩)))
  · cases h

/-- What every line of `settle` keeps, `settle` keeps. -/
theorem settle_induct {P : State → Prop} (hline : ∀ s t, P s → settleLine s = some t → P t) {s : State} (h : P s) :
    P (settle s) := by
  have key : ∀ n s, P s → P (settleFor n s) := by
    intro n
    induction n with
    | zero => intro s hs; exact hs
    | succ n ih =>
      intro s hs
      unfold settleFor
      cases hl : settleLine s with
      | none => exact hs
      | some t => exact ih t (hline s t hs hl)
  exact key _ _ h

/-- A settled state is left alone. -/
theorem settle_of_settled {s : State} (h : settleLine s = none) : settle s = s := by
  unfold settle settleFor; rw [h]

end Sys2Proof.Machine
end

