-- ==== Sys2Proof/Laws/Moves.lean ====
section
/-! SUPPORT. What the moves of a step say: a property that `settle` ends is ended by one of the lines it takes, and the
stages of a clock edge. -/

namespace Sys2Proof.Machine

theorem settleMoves_ends {P : State → Prop} : ∀ (n : Nat) {s : State}, P s → ¬P (settleFor n s) →
    ∃ m ∈ settleMoves n s, settleLine m.1 = some m.2 ∧ P m.1 ∧ ¬P m.2
  | 0, _, h, hn => absurd h hn
  | n + 1, s, h, hn => by
    simp only [settleFor, settleMoves] at hn ⊢
    cases hl : settleLine s with
    | none => simp only [hl] at hn; exact absurd h hn
    | some t =>
      simp only [hl] at hn
      by_cases ht : P t
      · obtain ⟨m, hm, e⟩ := settleMoves_ends n ht hn
        exact ⟨m, List.mem_cons_of_mem _ hm, e⟩
      · exact ⟨(s, t), List.mem_cons_self, hl, h, ht⟩

/-- A property that `settle` ends is ended by a line it takes. -/
theorem settleTaken_ends {P : State → Prop} {s : State} (h : P s) (hn : ¬P (settle s)) :
    ∃ m ∈ settleTaken s, settleLine m.1 = some m.2 ∧ P m.1 ∧ ¬P m.2 :=
  settleMoves_ends _ h hn

@[simp] theorem edgeSampled_connected (p : PinsIn) (s : State) : (edgeSampled p s).connected = s.connected := by
  simp only [edgeSampled, rxSyncStep, baudStep, hostRead, emit]; split <;> rfl

@[simp] theorem edgeSampled_phase (p : PinsIn) (s : State) : (edgeSampled p s).phase = s.phase := by
  simp only [edgeSampled, rxSyncStep, baudStep, hostRead, emit]; split <;> rfl

@[simp] theorem edgeSampled_actionSlot (p : PinsIn) (s : State) : (edgeSampled p s).actionSlot = s.actionSlot := by
  simp only [edgeSampled, rxSyncStep, baudStep, hostRead, emit]; split <;> rfl

@[simp] theorem edgeSampled_cadenceTimer (p : PinsIn) (s : State) : (edgeSampled p s).cadenceTimer = s.cadenceTimer := by
  simp only [edgeSampled, rxSyncStep, baudStep, hostRead, emit]; split <;> rfl

@[simp] theorem edgeSampled_txbuf (p : PinsIn) (s : State) : (edgeSampled p s).txbuf = s.txbuf := by
  simp only [edgeSampled, rxSyncStep, baudStep, hostRead, emit]; split <;> rfl

end Sys2Proof.Machine
end

