-- ==== Sys2Proof/Laws/PerInstr.lean ====
section
/-! SUPPORT. The family of lemmas `Selection`, one for each operation: only the two poll requests are selected through the
configuration (R93, R96 of 30_encoding.md); the word of every other operation is the same under every configuration. -/

namespace Sys2Proof.Laws.Selection

open Sys2Proof

/-- The operations whose word depends on the configuration. -/
def needsConfig : Instr → Bool
  | .pollreqScan _ | .pollreqCmd _ => true
  | _ => false

/-- The word of an operation that needs no configuration is the same under any two. -/
def Statement (i : Instr) : Prop := ∀ c c' : Cfg, needsConfig i = false → encode c i = encode c' i

theorem crcInit : Statement .crcInit := fun _ _ _ => rfl
theorem crcUpdate (b : Byte) : Statement (.crcUpdate b) := fun _ _ _ => rfl
theorem crcRead : Statement .crcRead := fun _ _ _ => rfl
theorem encode (a f : Byte) (p : List Byte) : Statement (.encode a f p) := fun _ _ _ => rfl
theorem decode (f : List Byte) : Statement (.decode f) := fun _ _ _ => rfl
theorem rxPush (b : Byte) : Statement (.rxPush b) := fun _ _ _ => rfl
theorem rxScan : Statement .rxScan := fun _ _ _ => rfl
theorem txNext : Statement .txNext := fun _ _ _ => rfl
theorem pollreqScan (a : Word) : Statement (.pollreqScan a) := fun _ _ h => absurd h (by simp [needsConfig])
theorem pollreqCmd (a : Word) : Statement (.pollreqCmd a) := fun _ _ h => absurd h (by simp [needsConfig])
theorem pollrsp (p : List Byte) (s : Word) : Statement (.pollrsp p s) := fun _ _ _ => rfl
theorem bcast (p : List Byte) (s : Word) : Statement (.bcast p s) := fun _ _ _ => rfl
theorem enqueue (c : Word) : Statement (.enqueue c) := fun _ _ _ => rfl
theorem currentStatus : Statement .currentStatus := fun _ _ _ => rfl
theorem isConnected : Statement .isConnected := fun _ _ _ => rfl
theorem tMstick : Statement .tMstick := fun _ _ _ => rfl
theorem tTick : Statement .tTick := fun _ _ _ => rfl
theorem tTxdone : Statement .tTxdone := fun _ _ _ => rfl
theorem tRsp (f : List Byte) : Statement (.tRsp f) := fun _ _ _ => rfl
theorem tCompleted : Statement .tCompleted := fun _ _ _ => rfl
theorem tTimeout : Statement .tTimeout := fun _ _ _ => rfl
theorem tCrcfail : Statement .tCrcfail := fun _ _ _ => rfl
theorem tTimedout : Statement .tTimedout := fun _ _ _ => rfl
theorem uartBaud : Statement .uartBaud := fun _ _ _ => rfl
theorem uartTxchar (a : TxAct) : Statement (.uartTxchar a) := by cases a <;> exact fun _ _ _ => rfl
theorem uartRxchar (a : RxAct) : Statement (.uartRxchar a) := by cases a <;> exact fun _ _ _ => rfl
theorem reset : Statement .reset := fun _ _ _ => rfl

end Sys2Proof.Laws.Selection
end

