-- ==== Sys2Proof/Tests/Slice0.lean ====
section
/-! SUPPORT. Tests on fixed values. `V<n>`, `PR<n>`, `S<n>` name the vectors, programs and scenarios of
spec/95_test_vectors.md, from which the expected values are taken; the others are worked out by hand from the rule named.
A theorem `wit_<Name>` shows inputs that meet the hypotheses of `Obligations.<Name>`, clause by clause. -/

namespace Sys2Proof.Tests

set_option Elab.async false

open Sys2Proof Sys2Proof.Machine

/-- The configuration of spec/95_test_vectors.md, with the clock of V76. -/
def exCfg : Cfg where
  pollReadAddr := 0x9CB9
  actionWriteAddr := 0x9C41
  readQtyScan := 5
  readQtyPoll := 8
  pollIntervalMs := 500
  responseTimeoutMs := 200
  timeoutThreshold := 3
  firstTickDelayMs := 0
  minFrameLen := 5
  scanPolicy := .rescanOnDisconnect
  stateTable := []
  posTable := []
  pollTable := []
  hasDe := true
  hasWake := true
  agentKind := .lowPower
  fClkHz := 1843200
  sharedBase := 0

/-- After reset, before `settle`. -/
def s0 : State := State.resetOf exCfg
/-- The first poll is being sent (V40). -/
def sSend : State := tick s0
/-- Its response is awaited (V41). -/
def sWait : State := txDone sSend
/-- Idle between two polls. -/
def sIdle : State := { s0 with cadenceTimer := 300 }

def zeros (n : Nat) : List Byte := List.replicate n 0
/-- The 18 data bytes of the broadcast S2. -/
def dataS2 : List Byte := [0, 0, 0, 0x32, 1, 0, 0, 0, 0, 0, 0, 0, 0, 0x10, 0, 0, 0, 0]
/-- The payload of S2. -/
def payloadS2 : List Byte := [0x9D, 0x31, 0x00, 0x09, 0x12] ++ dataS2
/-- The payload of the scan response V42. -/
def payloadScan : List Byte := 0x0A :: zeros 10
/-- The payload of V35. -/
def payloadV35 : List Byte := [0x0A, 0, 0, 0, 0, 0, 0x10, 0, 0, 0, 0]
/-- The 21 bytes of V37. -/
def frameV37 : List Byte := [0x02, 0x17, 0x10, 0x12, 0x34, 0x56, 0x78, 0x9A, 0xBC, 0xDE, 0xF0, 0, 1, 0, 2, 0, 3, 0, 4, 0xE0, 0xED]
/-- V10's bytes with their checksum. -/
def frameS1 : List Byte := [0x02, 0x17, 0x9C, 0xB9, 0x00, 0x05, 0x9C, 0x41, 0x00, 0x01, 0x02, 0x00, 0x00, 0x16, 0xEC]

/-- A check of the next state. -/
def next (o : Host.Outcome State Fault Refusal) (p : State → Bool) : Bool :=
  match o with
  | .next t => p t
  | .fault _ => false
  | .refused _ => false

/-- The decoder answers `i`. -/
def decodes (w : OpWord) (i : Instr) : Bool :=
  match decode exCfg w with
  | .ok j => j == i
  | .error _ => false

/-- The decoder rejects with `r`. -/
def rejects (w : OpWord) (r : Reject) : Bool :=
  match decode exCfg w with
  | .ok _ => false
  | .error e => e == r

/-! ### WellFormed: an ill-formed term for each check -/

/-- R140: at most 255 bytes. -/
theorem test_wf_encode_length : wellFormed (.encode 2 0x17 (zeros 255)) = true ∧ wellFormed (.encode 2 0x17 (zeros 256)) = false := by
  decide +kernel
/-- R97: five header bytes, a count that matches the data and the quantity, at most 250. -/
theorem test_wf_bcast_header : bcastPayloadOk [0x9D, 0x31, 0x00, 0x09] = false := by decide
theorem test_wf_bcast_missing_data : bcastPayloadOk ([0x9D, 0x31, 0x00, 0x09, 0x12] ++ zeros 17) = false := by decide
theorem test_wf_bcast_count_not_twice_quantity : bcastPayloadOk ([0x9D, 0x31, 0x00, 0x09, 0x10] ++ zeros 16) = false := by decide
theorem test_wf_bcast_over_250 : bcastPayloadOk ([0x9D, 0x31, 0x00, 0x7D, 0xFA] ++ zeros 250) = true ∧
    bcastPayloadOk ([0x9D, 0x31, 0x00, 0x7E, 0xFC] ++ zeros 252) = false := by decide +kernel
theorem test_wf_bcast_checksum : wellFormed (.bcast payloadS2 0xFA77) = true ∧ wellFormed (.bcast payloadS2 0xFA88) = false := by
  decide +kernel
/-- R94: an even count of at least 6 and at most 254 that matches the data. -/
theorem test_wf_pollrsp_empty : pollrspPayloadOk [] = false := by decide
theorem test_wf_pollrsp_missing_data : pollrspPayloadOk (0x0A :: zeros 9) = false := by decide
theorem test_wf_pollrsp_odd : pollrspPayloadOk (0x0B :: zeros 11) = false := by decide
theorem test_wf_pollrsp_short : pollrspPayloadOk (0x04 :: zeros 4) = false ∧ pollrspPayloadOk (0x06 :: zeros 6) = true := by decide
theorem test_wf_pollrsp_checksum : wellFormed (.pollrsp payloadV35 0x86D0) = true ∧ wellFormed (.pollrsp payloadV35 0xD086) = false := by
  decide +kernel
/-- R207: T.RSP takes a whole checked response. -/
theorem test_wf_rsp : wellFormed (.tRsp frameV37) = true ∧ wellFormed (.tRsp frameS1) = false ∧
    wellFormed (.tRsp (frameV37.take 20)) = false ∧ wellFormed (.tRsp (frameV37.take 20 ++ [0xEE])) = false ∧
    wellFormed (.tRsp (0x00 :: frameV37.tail)) = false := by decide +kernel

/-! ### Decode: every operation's word, written from R93 to R100 -/

theorem test_decode_crc : decodes (.internal .crcInit []) .crcInit = true ∧ decodes (.internal .crcUpdate [0x17]) (.crcUpdate 0x17) = true ∧
    decodes (.internal .crcRead []) .crcRead = true := by decide
theorem test_decode_codec : decodes (.internal .encode [0x01, 0x03, 0x00]) (.encode 0x01 0x03 [0x00]) = true ∧
    decodes (.internal .decode [0x02, 0x17, 0x40, 0xDE]) (.decode [0x02, 0x17, 0x40, 0xDE]) = true ∧
    decodes (.event (.rxChar 0x55)) (.rxPush 0x55) = true ∧ decodes (.internal .rxScan []) .rxScan = true ∧
    decodes (.internal .txNext []) .txNext = true := by decide
/-- V14. -/
theorem test_decode_pollreq_scan : decodes (.wireTx [0x02, 0x17, 0x9C, 0xB9, 0x00, 0x05, 0x9C, 0x41, 0x00, 0x01, 0x02, 0x10, 0x01,
    0xDA, 0xEC]) (.pollreqScan 0x1001) = true := by decide +kernel
/-- V22. -/
theorem test_decode_pollreq_cmd : decodes (.wireTx [0x02, 0x17, 0x9C, 0xB9, 0x00, 0x08, 0x9C, 0x41, 0x00, 0x01, 0x02, 0x22, 0x22,
    0x4F, 0xCC]) (.pollreqCmd 0x2222) = true := by decide +kernel
/-- V35. -/
theorem test_decode_pollrsp : decodes (.wireRx [0x02, 0x17, 0x0A, 0x00, 0x00, 0x00, 0x00, 0x00, 0x10, 0x00, 0x00, 0x00, 0x00, 0xD0,
    0x86]) (.pollrsp payloadV35 0x86D0) = true := by decide +kernel
/-- V11. -/
theorem test_decode_bcast : decodes (.wireRx [0x00, 0x10, 0x9D, 0x31, 0x00, 0x09, 0x12, 0x00, 0x00, 0x00, 0x32, 0x01, 0x00, 0x00,
    0x00, 0x00, 0x00, 0x00, 0x00, 0x00, 0x10, 0x00, 0x00, 0x00, 0x00, 0x77, 0xFA]) (.bcast payloadS2 0xFA77) = true := by
  decide +kernel
/-- R100. -/
theorem test_decode_host : decodes (.hostWrite 2 0x1001) (.enqueue 0x1001) = true ∧ decodes (.hostRead 0 10 0) .currentStatus = true ∧
    decodes (.hostRead 0 11 11) .isConnected = true ∧ decodes (.event (.hostWriteAction 0x1001)) (.enqueue 0x1001) = true ∧
    decodes (.event .hostReadStatus) .currentStatus = true := by decide
theorem test_decode_scheduler : decodes (.event .msTick) .tMstick = true ∧ decodes (.internal .tTick []) .tTick = true ∧
    decodes (.event .txFrameDone) .tTxdone = true ∧ decodes (.internal .tRsp frameV37) (.tRsp frameV37) = true ∧
    decodes (.internal .tCompleted []) .tCompleted = true ∧ decodes (.internal .tTimeout []) .tTimeout = true ∧
    decodes (.internal .tCrcfail []) .tCrcfail = true ∧ decodes (.internal .tTimedout []) .tTimedout = true := by decide
theorem test_decode_uart : decodes (.internal .uartBaud []) .uartBaud = true ∧ decodes (.internal .uartTxchar []) (.uartTxchar .bitTick) = true ∧
    decodes (.internal .uartTxchar [0x17]) (.uartTxchar (.load 0x17)) = true ∧
    decodes (.internal .uartRxchar [1]) (.uartRxchar (.osTick true)) = true ∧
    decodes (.internal .uartRxchar [0]) (.uartRxchar (.osTick false)) = true ∧
    decodes (.event (.rxCharErr true)) (.uartRxchar (.charErr true)) = true ∧ decodes (.event .reset) .reset = true := by decide
/-- R35, R98, R100, R291: what selects nothing. -/
theorem test_decode_rejects : rejects (.hostWrite 0 7) .statusReadOnly = true ∧ rejects (.hostWrite 1 7) .noSuchOffset = true ∧
    rejects (.hostRead 2 15 0) .actionRead = true ∧ rejects (.hostRead 0 15 0) .statusRead = true ∧
    rejects (.wireRx [0x55]) .droppedBytes = true ∧ rejects (.wireRx [0x02, 0x10, 0x00, 0x00, 0x00]) .droppedBytes = true ∧
    rejects (.internal .uartRxchar [2]) .badOperands = true ∧ rejects (.internal .crcRead [0]) .badOperands = true := by decide
theorem test_decode_rejects_other_request : rejects (.wireTx (frameS1.set 5 6)) .notAPollRequest = true := by decide +kernel
/-- The table's rows with bits: 0x0010, 0x0217, 0x2 and 0x0. -/
theorem test_table_words : decodeTableWord 16 0x0010 = some (.bcast (zeros 5) 0) ∧ decodeTableWord 16 0x0217 = some (.pollrsp (zeros 1) 0) ∧
    decodeTableWord 8 2 = some (.enqueue 0) ∧ decodeTableWord 8 0 = some .currentStatus ∧ decodeTableWord 8 1 = none := by
  refine ⟨rfl, rfl, rfl, rfl, rfl⟩
/-- The placed word is the first instruction after reset. -/
theorem test_fetch_runs : next (step (State.reset.withFetchWord 16 0x0010)) (fun _ => true) = true ∧
    next (step (State.reset.withFetchWord 16 0x0217)) (fun _ => true) = true ∧
    next (step (State.reset.withFetchWord 8 2)) (fun _ => true) = true ∧
    next (step (State.reset.withFetchWord 8 0)) (fun _ => true) = true := ⟨rfl, rfl, rfl, rfl⟩

/-! ### The CRC engine and the codec (V1 to V22) -/

theorem test_crc_vectors : crc16 [] = 0xFFFF ∧ crc16 [0x00] = 0x40BF ∧ crc16 [0xFF] = 0x00FF ∧ crc16 [0x02, 0x17] = 0xDE40 := by
  decide +kernel
theorem test_crc_update_V13 : crcByte 0x0001 0x00 = 0xC0C1 ∧ crcByte 0x8000 0x00 = 0x0080 ∧ crcByte 0x813E 0x17 = 0xDE40 := by
  decide +kernel
theorem test_crc_read : next (exec .crcRead { s0 with crc := 0xDE40 }) (fun t => t.ret == .crc 0x40 0xDE && t.crc == 0xDE40) = true := by
  decide +kernel
theorem test_crc_init : next (exec .crcInit { s0 with crc := 0x1234 }) (fun t => t.crc == 0xFFFF) = true := by decide
/-- V17. -/
theorem test_encode_V17 : next (exec (.encode 0x01 0x03 [0x00]) s0) (fun t =>
    memRead t.txbuf 0 5 == [0x01, 0x03, 0x00, 0x20, 0xF0] && t.txlen == 5 && t.crc == 0xF020) = true := by decide +kernel
/-- U1. -/
theorem test_encode_too_long : next (exec (.encode 0x01 0x03 (zeros 256)) sSend) (fun t =>
    t.ret == .encoded none && t.txbuf == sSend.txbuf && t.txlen == 15) = true := by decide +kernel
/-- V16, V17, V18. -/
theorem test_decode_frame_vectors : decodeFrame 5 [0x00, 0x10, 0x00, 0x7C] = .truncated ∧
    decodeFrame 5 [0x01, 0x03, 0x00, 0x20, 0xF0] = .frame ⟨0x01, 0x03, [0x00], 0xF020⟩ ∧
    decodeFrame 5 (frameS1.set 14 0xED) = .checksumMismatch := by decide +kernel
/-- R127: each bit of the byte enters with its own shift. -/
theorem test_crc_serial : crcByteSerial 0x813E 0x17 = 0xDE40 := by decide +kernel

/-! ### classify (V23) and RX.SCAN (V24 to V29) -/

theorem test_classify_broadcast : classify exCfg .idle .busScan [0x55] = .reject ∧ classify exCfg .idle .busScan [0x00] = .needMore ∧
    classify exCfg .idle .busScan [0x00, 0x7F] = .reject ∧
    classify exCfg .idle .busScan [0x00, 0x10, 0x9D, 0x31, 0x00, 0x09, 0x10] = .reject ∧
    classify exCfg .idle .busScan [0x00, 0x10, 0x9D, 0x31, 0x00, 0x7E, 0xFC] = .reject ∧
    classify exCfg .idle .busScan [0x00, 0x10, 0x9D, 0x31, 0x00, 0x7D, 0xFA] = .needMore := by decide
theorem test_classify_response : classify exCfg .idle .busScan [0x02] = .reject ∧ classify exCfg .awaiting .busScan [0x02] = .needMore ∧
    classify exCfg .awaiting .busScan [0x02, 0x17, 0x10] = .reject ∧ classify exCfg .awaiting .commandPoll [0x02, 0x17, 0x10] = .needMore ∧
    classify exCfg .awaiting .busScan (0x02 :: 0x17 :: 0x0A :: zeros 12) = .complete 15 := by decide
/-- V25. -/
theorem test_resynchronise_V25 : (settle { sIdle with rxbuf := [0x00, 0x10, 0x00, 0x00, 0x10, 0x9D, 0x31, 0x00, 0x09, 0x12] }).rxbuf
    = [0x00, 0x10, 0x9D, 0x31, 0x00, 0x09, 0x12] := by decide +kernel
/-- V26 and V30: from reset, the STATUS word and the wake. -/
theorem test_broadcast_V26 : (fun t : State => t.status = ⟨50, .opening⟩ ∧ statusWord t = 0x0132 ∧ t.rxbuf = [] ∧ Out.wake ∈ t.events)
    (settle { sIdle with rxbuf := [0x55, 0x00, 0x7F] ++ frameBytes 0x00 0x10 payloadS2 }) := by decide +kernel
/-- V27. -/
theorem test_bad_broadcast_V27 : (fun t : State => t.events = [.err .checksumMismatch 0x0000] ∧ t.rxbuf = [] ∧ t.status = sIdle.status)
    (settle { sIdle with rxbuf := rawFrame 0x00 0x10 payloadS2 0xFA88 }) := by decide +kernel
/-- V29. -/
theorem test_malformed_V29 : (fun t : State => t.events = [.err .malformedStatus 0x9D30] ∧ t.rxbuf = [] ∧ t.status = sIdle.status)
    (settle { sIdle with rxbuf := [0x00, 0x10, 0x9D, 0x30, 0x00, 0x09, 0x12] ++ zeros 18 ++ [0xD4, 0x21] }) := by decide +kernel

/-! ### Status, polls and host calls -/

/-- V28 as an operation. -/
theorem test_bcast_V28 : next (exec (.bcast ([0x9D, 0x31, 0x00, 0x08, 0x10] ++ zeros 16) 0x30FD) sIdle) (fun t =>
    t.events == [.err .malformedStatus 0x9D31] && t.status == sIdle.status) = true := by decide +kernel
/-- PR3 (V32): 250 saturates to 200, and a change of position alone wakes nobody. -/
theorem test_bcast_PR3 : next (exec (.bcast ([0x9D, 0x31, 0x00, 0x09, 0x12] ++ dataS2.set 3 0xFA) 0xACBF)
    { sIdle with status := ⟨50, .opening⟩ }) (fun t => t.status == ⟨200, .opening⟩ && t.events.isEmpty) = true := by decide +kernel
/-- V37. -/
theorem test_parse_V37 : wordsOf ((frameV37.drop 3).take 16) = [0x1234, 0x5678, 0x9ABC, 0xDEF0, 1, 2, 3, 4] := by decide
theorem test_pollrsp_V37 : next (exec (.pollrsp (slice frameV37 2 19) 0xEDE0) { s0 with phase := .completed, curKind := .commandPoll })
    (fun t => t.events == [.drvAction 0x9ABC]) = true := by decide +kernel
/-- V35: a BusScan response raises no action event. -/
theorem test_pollrsp_V35 : next (exec (.pollrsp payloadV35 0x86D0) { s0 with phase := .completed }) (fun t => t.events.isEmpty) = true := by
  decide +kernel
/-- V22. -/
theorem test_pollreq_cmd_V22 : next (exec (.pollreqCmd 0x1001) s0) (fun t =>
    memRead t.txbuf 0 15 == [0x02, 0x17, 0x9C, 0xB9, 0x00, 0x08, 0x9C, 0x41, 0x00, 0x01, 0x02, 0x10, 0x01, 0x1B, 0x75]) = true := by
  decide +kernel
/-- S1. -/
theorem test_pollreq_scan_S1 : next (exec (.pollreqScan 0) s0) (fun t => memRead t.txbuf 0 15 == frameS1 && t.crc == 0xEC16) = true := by
  decide +kernel
/-- V57. -/
theorem test_read_V57 : next (exec .currentStatus { s0 with connected := true, status := ⟨50, .opening⟩ }) (fun t =>
    t.ret == .status ⟨50, .opening⟩ && t.events == [.read 0x0932]) = true := by decide
/-- V60. -/
theorem test_write_to_status_ignored_V60 : next (step { sIdle with inputs := [.op (.hostWrite 0 0xFFFF)] }) (fun t =>
    statusWord t == 0x0400 && t.actionSlot == 0) = true := by decide +kernel

/-! ### The scheduler (V40 to V52) -/

/-- V40. -/
theorem test_reset_V40 : next (step { s0 with inputs := [.op (.event .reset)] }) (fun t =>
    t.phase == .sending && t.de && t.cadenceTimer == 500 && t.firstSent && t.txlen == 15 &&
    t.events == [.tx frameS1, .de true]) = true := by decide +kernel
/-- V41. -/
theorem test_txdone_V41 : next (exec .tTxdone sSend) (fun t => t.phase == .awaiting && !t.de && t.respTimer == 200) = true := by
  decide +kernel
/-- V42: the last byte of the response, received just before the timer expires. -/
theorem test_response_V42 : next (step { sWait with cadenceTimer := 301, respTimer := 1, events := []
                                                    rxbuf := [0x02, 0x17, 0x0A] ++ zeros 10 ++ [0x11]
                                                    inputs := [.op (.event (.rxChar 0x45))] })
    (fun t => t.connected && t.scanDone && t.timeoutCnt == 0 && t.phase == .idle && t.events == [.wake, .status 0x0C00]) = true := by
  decide +kernel
/-- V43: the 200th tick. -/
theorem test_timeout_V43 : next (step { sWait with cadenceTimer := 301, respTimer := 1, inputs := [.op (.event .msTick)] })
    (fun t => t.timeoutCnt == 1 && t.phase == .idle && t.events == [.err .responseTimeout 0]) = true := by decide +kernel
/-- V45: the overrun; timeout and the next tick in one step. -/
theorem test_overrun_V45 : next (step { sWait with cadenceTimer := 0, respTimer := 1, inputs := [.op (.event .msTick)] })
    (fun t => t.phase == .sending && t.events == [.err .responseTimeout 0, .tx frameS1, .de true]) = true := by decide +kernel
/-- V47, V48: the next kind after a disconnection under two policies. -/
theorem test_rescan_V48 : nextKind (timedOut { s0 with phase := .timedOut, timeoutCnt := 2, connected := true, scanDone := true })
    = .busScan := by decide
theorem test_no_rescan_V47 : nextKind (timedOut { State.resetOf { exCfg with scanPolicy := .untilFirstSuccess } with
    phase := .timedOut, timeoutCnt := 2, connected := true, scanDone := true }) = .commandPoll := by decide
/-- V51. -/
theorem test_saturation_V51 : (timedOut { s0 with phase := .timedOut, timeoutCnt := 255 }).timeoutCnt = 255 := by decide
/-- V52. -/
theorem test_crcfail_V52 : (fun t : State => t.phase = .idle ∧ t.timeoutCnt = 1 ∧ t.rxbuf = [] ∧ t.events = [.err .checksumMismatch 0x0002])
    (settle { sWait with events := [], rxbuf := rawFrame 0x02 0x17 payloadScan 0x45EE }) := by decide +kernel

/-! ### The UART (V65 to V81) -/

theorem test_levels_V65 : lineLevels 0x02 (parityBit 0x02) true
    = [false, false, true, false, false, false, false, false, false, true, true] := by decide
theorem test_divisors_V77 : ({ exCfg with fClkHz := 48000000 } : Cfg).baudDiv = 833 ∧
    ({ exCfg with fClkHz := 48000000 } : Cfg).osDiv = 52 ∧ ({ exCfg with fClkHz := 48000000 } : Cfg).msDiv = 48000 := by decide
/-- V79 and V80: the tolerance of R250. -/
theorem test_clock_tolerance : clockOk 20000000 = true ∧ clockOk 16000000 = false ∧ clockOk 8000000 = false := by decide
/-- V72 and V73. -/
theorem test_char_errors : checkChar 0x02 false true = .parityError ∧ checkChar 0x02 true false = .framingError ∧
    checkChar 0x02 true true = .good 0x02 := by decide
/-- V74: a glitch of seven ticks. -/
theorem test_glitch_V74 : (fun t : State => t.uart.rxBusy = false ∧ t.rxbuf = [] ∧ t.ferrSeen = false)
    ((rxTick true)^[9] ((rxTick false)^[7] s0)) := by decide +kernel
/-- R242: the millisecond divider's terminal count is an `MsTick`. -/
theorem test_baud_ms : next (exec .uartBaud { sIdle with uart := { Uart.reset with msCnt := 1842 } }) (fun t =>
    t.uart.msCnt == 0 && t.cadenceTimer == 299 && t.ret == .ticks false false true) = true := by decide +kernel

/-! ### Witnesses of the obligations' hypotheses -/

/-- The configuration of spec/95_test_vectors.md is legal (R8, R312), and so is one at the upper limits. -/
theorem exCfg_legal : exCfg.Legal := by decide
def edgeCfg : Cfg := { exCfg with readQtyScan := 126, readQtyPoll := 127, minFrameLen := 4, timeoutThreshold := 1, hasWake := false }
theorem edgeCfg_legal : edgeCfg.Legal := by decide

/-- Address, payload and checksum byte, first and last bit. -/
theorem wit_SingleBitFlipIsDetected : exCfg.minFrameLen ≤ [(0x00 : Byte)].length + 4 ∧ 4 < [(0x00 : Byte)].length + 4 ∧
    decodeFrame exCfg.minFrameLen (flipBit (frameBytes 0x01 0x03 [0x00]) 0 0) = .checksumMismatch ∧
    decodeFrame exCfg.minFrameLen (flipBit (frameBytes 0x01 0x03 [0x00]) 4 7) = .checksumMismatch := by decide +kernel
/-- Payloads of 255 and 256 bytes. -/
theorem wit_EncodeLoadsFrame : Memory.wf s0.txbuf = true ∧ (zeros 255).length ≤ 255 ∧ 255 < (zeros 256).length ∧
    next (exec (.encode 0x02 0x17 (zeros 256)) s0) (fun t => t.ret == .encoded none) = true := by decide +kernel
/-- Four bytes, and five bytes with a wrong and a right checksum. -/
theorem wit_DecodeJudgesLengthThenChecksum : [(0x00 : Byte), 0x10, 0x00, 0x7C].length < s0.cfg.minFrameLen ∧
    (s0.cfg.minFrameLen ≤ 5 ∧ crc16 [0x01, 0x03, 0x00] ≠ le16 [0x01, 0x03, 0x00, 0x20, 0xF1] 3) ∧
    (s0.cfg.minFrameLen ≤ 5 ∧ crc16 [0x01, 0x03, 0x00] = le16 [0x01, 0x03, 0x00, 0x20, 0xF0] 3) := by decide +kernel
/-- Payloads of 1 and 255 bytes. -/
theorem wit_EncodeDecodeRoundTrip : s0.cfg.Legal ∧ (1 ≤ (zeros 1).length ∧ (zeros 1).length ≤ 255) ∧
    (1 ≤ (zeros 255).length ∧ (zeros 255).length ≤ 255) ∧ s0.cfg.minFrameLen ≤ (zeros 3).length + 2 ∧
    (zeros 2).length + 2 < s0.cfg.minFrameLen := by decide +kernel
theorem wit_RxPushAppendsUnlessTransmitting : s0.de = false ∧ sSend.de = true := by decide +kernel
/-- One buffer for each answer of `classify`, and for each result on a complete candidate. -/
theorem wit_RxScanOneIteration : sWait.cfg.Legal ∧ sWait.rxbuf = [] ∧
    (classify exCfg .awaiting .busScan ([0x00, 0x10, 0x9D, 0x30, 0x00, 0x09, 0x12] ++ zeros 18 ++ [0xD4, 0x21]) = .complete 27 ∧
      crc16 ([0x00, 0x10, 0x9D, 0x30, 0x00, 0x09, 0x12] ++ zeros 18) = 0x21D4) ∧
    classify exCfg .awaiting .busScan [0x02] = .needMore ∧ classify exCfg .awaiting .busScan [0x55] = .reject ∧
    (classify exCfg .awaiting .busScan (rawFrame 0x00 0x10 payloadS2 0xFA88) = .complete 27 ∧ crc16 (0x00 :: 0x10 :: payloadS2) ≠ 0xFA88) ∧
    (classify exCfg .awaiting .busScan (rawFrame 0x02 0x17 payloadScan 0x45EE) = .complete 15 ∧ crc16 (0x02 :: 0x17 :: payloadScan) ≠ 0x45EE) ∧
    (classify exCfg .awaiting .busScan (rawFrame 0x02 0x17 payloadScan 0x4511) = .complete 15 ∧ crc16 (0x02 :: 0x17 :: payloadScan) = 0x4511) := by
  decide +kernel
theorem wit_RxScanAppliesBroadcast : Out.wake ∉ s0.events ∧ s0.cfg.Legal ∧ dataS2.length = 18 ∧
    ({ s0 with rxbuf := frameBytes 0x00 0x10 payloadS2 ++ [0x55] } : State).rxbuf
      = frameBytes 0x00 0x10 (0x9D :: 0x31 :: 0x00 :: 0x09 :: 0x12 :: dataS2) ++ [0x55] := by decide +kernel
/-- An incomplete candidate at the bound of 258 bytes stays. -/
theorem wit_SettleBoundsReceiveBuffer : edgeCfg.Legal ∧
    classify exCfg .idle .busScan ([0x00, 0x10, 0x9D, 0x31, 0x00, 0x7D, 0xFA] ++ zeros 251) = .needMore ∧
    ([0x00, 0x10, 0x9D, 0x31, 0x00, 0x7D, 0xFA] ++ zeros 251 : List Byte).length = 258 := by decide +kernel
/-- The last byte, and none. -/
theorem wit_TxNextGivesNextByte :
    (fun s : State => s.phase = .sending ∧ s.uart.txBitsLeft = 0 ∧ s.txidx < s.txlen) { sSend with txidx := 14 } ∧
    (fun s : State => s.txlen ≤ s.txidx) { sSend with txidx := 15 } := by decide +kernel
/-- In `Sending`; an ill-formed header; a wrong checksum; a good frame that is no status; a good status. -/
theorem wit_BroadcastFrameIsJudged : s0.cfg.Legal ∧ sSend.phase = .sending ∧ s0.phase ≠ .sending ∧ bcastPayloadOk [0x9D] = false ∧
    bcastPayloadOk payloadS2 = true ∧ (0xFA88 : Word) ≠ crc16 (0x00 :: 0x10 :: payloadS2) ∧
    bcastPayloadOk ([0x9D, 0x30, 0x00, 0x09, 0x12] ++ zeros 18) = true ∧
    be16 ([0x9D, 0x30, 0x00, 0x09, 0x12] ++ zeros 18) 0 ≠ 0x9D31 ∧
    bcastPayloadOk ([0x9D, 0x31, 0x00, 0x08, 0x10] ++ zeros 16) = true ∧
    be16 ([0x9D, 0x31, 0x00, 0x08, 0x10] ++ zeros 16) 2 ≠ 9 := by decide +kernel
/-- A wake, and none where only the position changes or the output does not exist. -/
theorem wit_BroadcastPublishesStatus : s0.cfg.Legal ∧ s0.phase ≠ .sending ∧ dataS2.length = 18 ∧ Out.wake ∉ s0.events ∧
    stateMap s0.cfg (be16 dataS2 4) ≠ s0.status.state ∧ edgeCfg.hasWake = false := by decide +kernel
theorem wit_BroadcastLeavesSchedulerAlone : next (exec (.bcast payloadS2 0xFA77) sWait) (fun t => t.status == ⟨50, .opening⟩) = true := by
  decide +kernel
/-- 200 and 201. -/
theorem wit_StatusMapsRespectFixedPoints : (200 : Word).toNat ≤ 200 ∧ posMap exCfg 200 = 200 ∧ posMap exCfg 201 = 200 := by decide
theorem wit_PollResponseIsParsed : ({ s0 with phase := .completed } : State).phase = .completed ∧
    (zeros 10).length = 2 * (readQty s0.cfg s0.curKind).toNat ∧ Out.wake ∉ s0.events := by decide
theorem wit_PollResponseIsAwaited : sWait.cfg.Legal ∧ sWait.phase = .awaiting ∧ (0x0A : Byte).toNat = 2 * (readQty sWait.cfg sWait.curKind).toNat ∧
    (zeros 10).length = 2 * (readQty sWait.cfg sWait.curKind).toNat ∧ crc16 (0x02 :: 0x17 :: payloadScan) = 0x4511 ∧
    (0x0C : Byte).toNat ≠ 2 * (readQty sWait.cfg sWait.curKind).toNat ∧ s0.phase ≠ .awaiting ∧ s0.phase ≠ .completed := by decide +kernel
theorem wit_PollRequestBytes : Memory.wf sSend.txbuf = true := by decide +kernel
theorem wit_NextPollKindByPolicy : ({ exCfg with scanPolicy := .firstTickOnly } : Cfg).scanPolicy = .firstTickOnly ∧
    ({ exCfg with scanPolicy := .untilFirstSuccess } : Cfg).scanPolicy = .untilFirstSuccess ∧ exCfg.scanPolicy = .rescanOnDisconnect := by
  decide
theorem wit_TickSendsPollAndClearsSlot : s0.phase = .idle ∧ s0.cadenceTimer = 0 ∧ Memory.wf s0.txbuf = true := by decide
theorem wit_TxDoneStartsWaiting : sSend.phase = .sending ∧ s0.phase ≠ .sending := by decide +kernel
theorem wit_ResponseIsLatched : sWait.phase = .awaiting := by decide +kernel
theorem wit_CompletedConnects : (fun s : State => s.phase = .completed ∧ s.rsp = rawFrame 0x02 0x17 payloadScan 0x4511 ∧
    (zeros 10).length = 2 * (readQty s.cfg s.curKind).toNat ∧ Out.wake ∉ s.events)
    { s0 with phase := .completed, rsp := frameBytes 0x02 0x17 payloadScan } := by decide +kernel
theorem wit_TimeoutAndChecksumEndTransaction : (fun s : State => s.phase = .awaiting ∧ s.respTimer = 0) { sWait with respTimer := 0 } := by
  decide +kernel
/-- Each guard false by its phase, and the two timer guards false by a timer at 1. -/
theorem wit_FalseGuardChangesNothing : ¬(s0.phase = .sending) ∧ ({ s0 with cadenceTimer := 1 } : State).cadenceTimer ≠ 0 ∧
    ({ sWait with respTimer := 1 } : State).respTimer ≠ 0 ∧ s0.phase ≠ .awaiting ∧ s0.phase ≠ .completed ∧ s0.phase ≠ .timedOut := by decide
/-- One below the threshold of 3, and at it; the count at its bound. -/
theorem wit_TimedOutCountsAndDisconnects :
    (fun s : State => Out.wake ∉ s.events ∧ s.phase = .timedOut ∧ min (s.timeoutCnt.toNat + 1) 255 < s.cfg.timeoutThreshold.toNat)
      { s0 with phase := .timedOut, timeoutCnt := 1 } ∧
    (fun s : State => Out.wake ∉ s.events ∧ s.phase = .timedOut ∧ s.cfg.timeoutThreshold.toNat ≤ min (s.timeoutCnt.toNat + 1) 255)
      { s0 with phase := .timedOut, timeoutCnt := 2, connected := true } ∧
    (fun s : State => Out.wake ∉ s.events ∧ s.phase = .timedOut ∧ s.cfg.timeoutThreshold.toNat ≤ min (s.timeoutCnt.toNat + 1) 255)
      { s0 with phase := .timedOut, timeoutCnt := 255 } := by decide
theorem wit_StrayResponseIsDropped : sIdle.phase ≠ .awaiting ∧ ({ sIdle with rxbuf := [0x02, 0x17] } : State).rxbuf = 0x02 :: [0x17] := by
  decide
theorem wit_PhaseMovesAlongEdges : next (exec .tTick s0) (fun t => t.phase == .sending) = true ∧ Instr.tTick ≠ .reset := by
  decide +kernel
theorem wit_ResponseBeatsTimeout : (fun s : State => s.cfg.Legal ∧ s.phase = .awaiting ∧ s.respTimer = 0 ∧ s.cadenceTimer ≠ 0 ∧
    (0x0A : Byte).toNat = 2 * (readQty s.cfg s.curKind).toNat ∧ (zeros 10).length = 2 * (readQty s.cfg s.curKind).toNat ∧
    s.rxbuf = frameBytes 0x02 0x17 (0x0A :: zeros 10) ∧ Out.err .responseTimeout 0 ∉ s.events)
    { sWait with respTimer := 0, rxbuf := frameBytes 0x02 0x17 payloadScan } := by decide +kernel
theorem wit_ExpiredTimerCountsOnce : (fun s : State => s.inputs = .op (.event .msTick) :: [] ∧ s.phase = .awaiting ∧ s.respTimer = 1 ∧
    s.rxbuf = [] ∧ 1 < s.cadenceTimer.toNat ∧ next (step s) (fun t => errorsOf t.events == [⟨.responseTimeout, 0⟩]) = true)
    { sWait with cadenceTimer := 2, respTimer := 1, inputs := [.op (.event .msTick)] } := by decide +kernel
/-- A step that reconnects, with the output and without it. -/
theorem wit_NotableTransitionsWake : resetsBlock exCfg (.op (.internal .tCompleted [])) = false ∧
    next (step { s0 with cadenceTimer := 1, phase := .completed, inputs := [.op (.internal .tCompleted [])] })
      (fun t => t.connected && t.cfg.hasWake) = true ∧
    next (step { s0 with cfg := edgeCfg, cadenceTimer := 1, phase := .completed, inputs := [.op (.internal .tCompleted [])] })
      (fun t => t.connected && !t.cfg.hasWake) = true := by decide +kernel
/-- A free and a busy transmitter; 2 bits and 1 bit left; a byte left and none. -/
theorem wit_TransmitterShiftsOut : sSend.phase = .sending ∧ sSend.uart.txBitsLeft = 0 ∧ sSend.txidx < sSend.txlen ∧
    (txLoad 0x02 sSend).uart.txBitsLeft ≠ 0 ∧ 1 < (txBitTick^[9] (txLoad 0x02 sSend)).uart.txBitsLeft ∧
    (txBitTick^[10] (txLoad 0x02 sSend)).uart.txBitsLeft = 1 ∧ (txBitTick^[10] (txLoad 0x02 sSend)).txidx < sSend.txlen ∧
    sSend.txlen ≤ ({ sSend with txidx := 15 } : State).txidx := by decide +kernel
/-- The first and the last level. -/
theorem wit_CharacterAppearsOnPin : 0 < 11 ∧ 10 < 11 ∧ (txBitTick^[9] (txLoad 0x02 sSend)).uart.uartTx = true ∧
    (txBitTick^[1] (txLoad 0x02 sSend)).uart.uartTx = false := by decide +kernel
theorem wit_FrameAppearsOnPin : sSend.phase = .sending ∧ sSend.de = true ∧ sSend.txidx = 0 ∧ 0 < sSend.txlen ∧ 164 < 11 * sSend.txlen ∧
    (txBitTick^[165] (giveNext sSend)).phase = .awaiting := by decide +kernel
/-- A receiver gated, idle, at the start bit's middle, and at a sample with two bits left. -/
theorem wit_ReceiverOneTick : sSend.de = true ∧ (s0.de = false ∧ s0.uart.rxBusy = false) ∧
    (fun s : State => s.de = false ∧ s.uart.rxBusy = true ∧ s.uart.rxConfirmed = false ∧ s.uart.rxPhase = 7) ((rxTick false)^[8] s0) ∧
    (fun s : State => s.de = false ∧ s.uart.rxBusy = true ∧ s.uart.rxConfirmed = true ∧ s.uart.rxPhase = 15 ∧ 1 < s.uart.rxBitsLeft)
      ((rxTick false)^[152] s0) ∧
    (fun s : State => s.de = false ∧ s.uart.rxBusy = true ∧ s.uart.rxPhase = 14 ∧ s.uart.rxConfirmed = true) ((rxTick false)^[151] s0) ∧
    (fun s : State => s.de = false ∧ s.uart.rxBusy = true ∧ s.uart.rxPhase = 6 ∧ s.uart.rxConfirmed = false) ((rxTick false)^[7] s0) := by decide +kernel
theorem wit_ReceiverReadsCharacter : s0.de = false ∧ s0.uart.rxBusy = false ∧ true = parityBit 0x02 ∧ false ≠ parityBit 0x02 ∧
    (feedReceiver (lineLevels 0x02 true true) s0).rxbuf = [0x02] := by decide +kernel
theorem wit_CharacterErrorFlagsAreSticky : Instr.tMstick ≠ .reset ∧
    next (exec .tMstick { s0 with perrSeen := true }) (fun t => t.perrSeen && !t.ferrSeen) = true := by decide
theorem wit_ResetStepSendsBusScan : (fun s : State => s.inputs = .op (.event .reset) :: [] ∧ s.cfg.firstTickDelayMs = 0)
    { sWait with inputs := [.op (.event .reset)] } := by decide +kernel
theorem wit_HeldResetDrivesPins : (fun s : State => s.inputs = .clk { rstN := false } :: [])
    { sWait with inputs := [.clk { rstN := false }] } := by decide +kernel
/-- The write of a code in one clock. -/
def pinsWrite : PinsIn := { hSel := true, hWe := true, hAddr := true, hWdata := 0x1001 }
/-- The first clock after a held reset, and the ordinary clock of T.TICK: the last millisecond tick in `Idle`, with another
code in the slot. -/
theorem wit_HostWriteInClockOfTick :
    (fun s : State => s.inputs = .clk pinsWrite :: [] ∧ s.phase ≠ .sending ∧ Memory.wf s.txbuf = true ∧ s.phase = .idle ∧
      s.cadenceTimer = 0 ∧ s.uart.txBitsLeft = 0) { s0 with inputs := [.clk pinsWrite] } ∧
    (fun s : State => s.inputs = .clk pinsWrite :: [] ∧ s.phase ≠ .sending ∧ Memory.wf s.txbuf = true ∧ s.phase = .idle ∧
      s.cadenceTimer = 1 ∧ msTickNow s = true ∧ s.uart.txBitsLeft = 0 ∧
      next (step s) (fun t => t.actionSlot == 0x1001 && memRead t.txbuf 11 2 == [0x22, 0x22]) = true)
      { s0 with cadenceTimer := 1, actionSlot := 0x2222, uart := { Uart.reset with msCnt := 1842 }, inputs := [.clk pinsWrite] } := by
  decide +kernel
theorem wit_QuietClockEdge : (fun (p : PinsIn) (s : State) => s.inputs = .clk p :: [] ∧ p.rstN = true ∧ p.hSel = false ∧ settleLine s = none ∧
    s.phase ≠ .sending ∧ s.de = false ∧ osTickNow s = false ∧ msTickNow s = false ∧ bitTickNow s = false)
    {} { sIdle with inputs := [.clk {}] } := by
  refine ⟨rfl, rfl, rfl, rfl, ?_⟩
  decide
theorem wit_StepRunsDecodedInstruction : decode exCfg (.hostWrite 2 0x1001) = .ok (.enqueue 0x1001) ∧ wellFormed (.enqueue 0x1001) = true ∧
    ({ sIdle with inputs := [.op (.hostWrite 2 0x1001)] } : State).inputs = .op (.hostWrite 2 0x1001) :: [] := ⟨rfl, rfl, rfl⟩
/-- An event, the host accesses, a clock edge, and received bytes; offsets 1 and 3 are not the environment's. -/
theorem wit_EventsNeverStopTheMachine : (Input.op (.event .reset)).external = true ∧ (Input.op (.hostWrite 2 7)).external = true ∧
    (Input.op (.hostWrite 0 7)).external = true ∧ (Input.op (.hostRead 0 15 0)).external = true ∧
    (Input.op (.hostRead 2 15 0)).external = true ∧ (Input.op (.hostRead 1 15 0)).external = false ∧
    (Input.op (.hostWrite 3 7)).external = false ∧ (Input.clk {}).external = true ∧
    ({ s0 with inputs := [.op (.wireRx [0x55])] } : State).inputs = .op (.wireRx [0x55]) :: [] := by
  refine ⟨?_, ?_, ?_, ?_, ?_, ?_, ?_, ?_, rfl⟩ <;> decide
/-- R35: a read of the whole STATUS word. -/
theorem test_read_whole_status : next (step { sIdle with inputs := [.op (.hostRead 0 15 0)] }) (fun t => t.events == [.read 0x0400]) = true := by
  decide +kernel
theorem wit_ConfigurationIsNeverWritten : next (step { s0 with inputs := [.op (.event .reset)] }) (fun t => t.cfg == exCfg) = true := by
  decide +kernel
/-- The invariant holds of the example's reset state, which a step leaves. -/
theorem wit_EveryStepKeepsInvariant : Inv s0 ∧ next (step { s0 with inputs := [.op (.event .reset)] }) (fun t => t.phase == .sending) = true := by
  refine ⟨⟨by decide, by decide, by decide, by decide, by decide, by decide, by decide, by decide, by decide, by decide, by decide⟩, ?_⟩
  decide +kernel
theorem wit_SendingMeansPollLoaded : PollLoaded s0 ∧ ExternalInputs { s0 with inputs := [.op (.event .reset)] } ∧
    next (step { s0 with inputs := [.op (.event .reset)] }) (fun t => t.phase == .sending && t.txlen == 15) = true := by decide +kernel
theorem wit_DisconnectionFollowsCount : (fun s : State => DisconnectedByCount s ∧ s.connected = false) { sIdle with timeoutCnt := 3 } ∧
    resetsBlock exCfg (.op (.event .msTick)) = false ∧
    (fun s : State => s.connected = false ∧ next (step s) (fun t => t.connected) = true ∧ (stepMoves s).length = 3)
      { sWait with cadenceTimer := 301, rxbuf := [0x02, 0x17, 0x0A] ++ zeros 10 ++ [0x11], inputs := [.op (.event (.rxChar 0x45))] } := by
  decide +kernel
theorem wit_DecodeEncodeAgree : exCfg.Legal ∧ wellFormed (.pollreqCmd 0x2222) = true ∧ wellFormed (.bcast payloadS2 0xFA77) = true ∧
    wellFormed (.encode 0x02 0x17 (zeros 255)) = true ∧ bcastPayloadOk payloadS2 = true ∧ pollrspPayloadOk payloadV35 = true ∧
    decodes (encode exCfg (.bcast payloadS2 0xFA88)) (.bcast payloadS2 0xFA88) = true := by decide +kernel

end Sys2Proof.Tests
end

/-! ### Quiet clock edges (R13, R242, R245): each stage of an edge that has nothing to do leaves the state alone -/

namespace Sys2Proof.Machine

/-- The guards of `settle`'s five lines (R217), all false. -/
theorem settled_iff {s : State} : Settled s ↔ s.phase ≠ .completed ∧ s.phase ≠ .timedOut ∧ scanEnabled s = false ∧
    ¬ (s.phase = .awaiting ∧ s.respTimer = 0) ∧ ¬ (s.phase = .idle ∧ s.cadenceTimer = 0) := by
  unfold Settled settleLine
  split_ifs <;> simp_all

/-- Those guards read six registers only. -/
theorem settled_congr {s t : State} (hcfg : t.cfg = s.cfg) (hphase : t.phase = s.phase) (hkind : t.curKind = s.curKind)
    (hrxbuf : t.rxbuf = s.rxbuf) (hresp : t.respTimer = s.respTimer) (hcadence : t.cadenceTimer = s.cadenceTimer) :
    Settled t ↔ Settled s := by
  have hscan : scanEnabled t = scanEnabled s := by unfold scanEnabled; rw [hcfg, hphase, hkind, hrxbuf]
  rw [settled_iff, settled_iff, hscan, hphase, hresp, hcadence]

theorem settled_startStep {rest : List Input} {s : State} : Settled (startStep rest s) ↔ Settled s :=
  settled_congr rfl rfl rfl rfl rfl rfl

theorem settled_edgeSampled {p : PinsIn} {s : State} : Settled (edgeSampled p s) ↔ Settled s := by
  apply settled_congr <;> simp [edgeSampled]

/-- A divider below its terminal count counts up (R242). -/
theorem nextCount_of_not_terminal {cnt div : Nat} (h : atTerminal cnt div = false) : nextCount cnt div = cnt + 1 := by
  simp [nextCount, h]

theorem baudStep_of_no_tick {s : State} (hos : osTickNow s = false) (hms : msTickNow s = false)
    (hbit : bitTickNow s = false) :
    baudStep s = { s with uart := { s.uart with
      baudCnt := s.uart.baudCnt + 1, osCnt := s.uart.osCnt + 1, msCnt := s.uart.msCnt + 1 } } := by
  unfold baudStep
  rw [nextCount_of_not_terminal hos, nextCount_of_not_terminal hms, nextCount_of_not_terminal hbit]

theorem hostRead_of_not_selected {p : PinsIn} (h : p.hSel = false) (s : State) : hostRead p s = s := by
  simp [hostRead, h]

theorem hostWrite_of_not_selected {p : PinsIn} (h : p.hSel = false) (s : State) : hostWrite p s = s := by
  simp [hostWrite, h]

/-- Outside `Sending` no character starts (R243). -/
theorem txStart_of_not_sending {s : State} (h : s.phase ≠ .sending) : txStart s = s := by
  simp [txStart, txReady, h]

/-- The receiver is gated only while the driver is enabled (R248). -/
theorem gateReceiver_of_de_false {s : State} (h : s.de = false) : gateReceiver s = s := by
  simp [gateReceiver, h]

/-- STATUS is shown only where its value changed (R104). -/
theorem endStep_of_statusWord_eq {before s : State} (h : statusWord s = statusWord before) : endStep before s = s := by
  simp [endStep, h]

/-- Without a tick an edge raises no event of R283 (a): nothing stands between its first stage and the final `settle`. -/
theorem edgeTx_of_no_tick {s : State} (hos : osTickNow s = false) (hms : msTickNow s = false)
    (hbit : bitTickNow s = false) (p : PinsIn) : edgeTx p s = edgeSampled p s := by
  simp [edgeTx, edgeMsDone, edgeCharDone, hos, hms, hbit]

/-- A quiet edge is its first stage, and the error queue moving on. -/
theorem runEdge_of_quiet {p : PinsIn} {s : State} (hsel : p.hSel = false) (hsettled : Settled s)
    (hphase : s.phase ≠ .sending) (hde : s.de = false) (hos : osTickNow s = false) (hms : msTickNow s = false)
    (hbit : bitTickNow s = false) : runEdge p s = errQueueStep (edgeSampled p s) := by
  have hphase' : (edgeSampled p s).phase ≠ .sending := by simpa using hphase
  have hde' : (edgeSampled p s).de = false := by simpa [edgeSampled] using hde
  unfold runEdge
  rw [edgeTx_of_no_tick hos hms hbit, settle_of_settled (settled_edgeSampled.mpr hsettled),
    txStart_of_not_sending hphase', gateReceiver_of_de_false hde', hostWrite_of_not_selected hsel]

/-- Settles O51: an edge on which no stage is active is `runEdge_of_quiet`, and the STATUS word stands still. -/
theorem quietClockEdge : Obligations.QuietClockEdge := by
  intro p rest s hin hrst hsel hsettled hphase hde hos hms hbit
  have hedge : clockEdge p (startStep rest s) = errQueueStep (edgeSampled p (startStep rest s)) := by
    rw [clockEdge, if_pos hrst, runEdge_of_quiet hsel (settled_startStep.mpr hsettled) hphase hde hos hms hbit]
  have hstatus : statusWord (errQueueStep (edgeSampled p (startStep rest s))) = statusWord s := by
    simp [statusWord, edgeSampled]
  have hsampled : edgeSampled p (startStep rest s) = rxSyncStep p.uartRx (baudStep (startStep rest s)) := by
    rw [edgeSampled, hostRead_of_not_selected hsel]
  have hbaud := baudStep_of_no_tick (s := startStep rest s) hos hms hbit
  simp only [step, hin]
  rw [hedge, endStep_of_statusWord_eq hstatus, hsampled, hbaud]
  simp [errQueueStep, rxSyncStep, startStep, errorsOf]

end Sys2Proof.Machine

/-! ### What a step can do to the registers of R42

Every operation but RESET, T.COMPLETED and the loads of a frame is a sequence of the elementary changes below. That is
proved once, for each operation (`exec_effect`), each line of `settle` (`settleLine_changes`) and each stage of a clock edge;
`step_keeps` then says what a property has to survive for a step to keep it. -/

namespace Sys2Proof.Machine

/-- `t` has the registers of `s` that R42 speaks of, and no input more; a character-error flag may have been set. -/
structure ControlSame (s t : State) : Prop where
  cfg : t.cfg = s.cfg := by rfl
  txbuf : t.txbuf = s.txbuf := by rfl
  txlen : t.txlen = s.txlen := by rfl
  txidx : t.txidx = s.txidx := by rfl
  phase : t.phase = s.phase := by rfl
  scanDone : t.scanDone = s.scanDone := by rfl
  connected : t.connected = s.connected := by rfl
  de : t.de = s.de := by rfl
  status : t.status = s.status := by rfl
  timeoutCnt : t.timeoutCnt = s.timeoutCnt := by rfl
  perrSeen : s.perrSeen = true → t.perrSeen = true := by exact id
  ferrSeen : s.ferrSeen = true → t.ferrSeen = true := by exact id
  inputs : t.inputs ⊆ s.inputs := by exact List.Subset.refl _

theorem ControlSame.trans {s t u : State} (h : ControlSame s t) (k : ControlSame t u) : ControlSame s u where
  cfg := k.cfg.trans h.cfg
  txbuf := k.txbuf.trans h.txbuf
  txlen := k.txlen.trans h.txlen
  txidx := k.txidx.trans h.txidx
  phase := k.phase.trans h.phase
  scanDone := k.scanDone.trans h.scanDone
  connected := k.connected.trans h.connected
  de := k.de.trans h.de
  status := k.status.trans h.status
  timeoutCnt := k.timeoutCnt.trans h.timeoutCnt
  perrSeen := k.perrSeen ∘ h.perrSeen
  ferrSeen := k.ferrSeen ∘ h.ferrSeen
  inputs := List.Subset.trans k.inputs h.inputs

/-- A frame loaded into the transmit buffer (R140): what ENCODE does to the registers of R42. -/
def frameLoaded (F : List Byte) (s : State) : State :=
  { s with txbuf := memWrite s.txbuf 0 F, txlen := F.length, txidx := 0 }

/-- The elementary changes of the registers of R42: the edges of the scheduler (R202 to R211) but T.COMPLETED, a published
status (R174, R182), a byte given to the transmitter (R150), and what leaves those registers alone. -/
inductive Change : State → State → Prop
  | quiet {s t} (h : ControlSame s t) : Change s t
  | publish {s} (st : DriveStatus) (h : st.position.toNat ≤ 200) : Change s { s with status := st }
  | giveByte {s} (h : s.txidx < s.txlen) : Change s { s with txidx := s.txidx + 1 }
  | startPoll {s} (F : List Byte) (h : s.phase = .idle) :
      Change s { s with txbuf := memWrite s.txbuf 0 F, txlen := 15, txidx := 0, de := true, phase := .sending }
  | pollSent {s} (h : s.phase = .sending) : Change s { s with de := false, phase := .awaiting }
  | answered {s} (h : s.phase = .awaiting) : Change s { s with phase := .completed }
  | failed {s} (h : s.phase = .awaiting) : Change s { s with phase := .timedOut }
  | count {s} (h : s.phase = .timedOut) (hn : (satInc s.timeoutCnt).toNat < s.cfg.timeoutThreshold.toNat) :
      Change s { s with timeoutCnt := satInc s.timeoutCnt, phase := .idle }
  | disconnect {s} (h : s.phase = .timedOut) (hn : s.cfg.timeoutThreshold.toNat ≤ (satInc s.timeoutCnt).toNat) :
      Change s { s with
        timeoutCnt := satInc s.timeoutCnt, connected := false, phase := .idle
        scanDone := if s.cfg.scanPolicy = .rescanOnDisconnect then false else s.scanDone }

/-- Any number of elementary changes. -/
abbrev Changes : State → State → Prop := Relation.ReflTransGen Change

theorem Changes.quiet {s t : State} (h : ControlSame s t) : Changes s t := .single (.quiet h)

/-- One change, and then what leaves the registers of R42 alone. -/
theorem Changes.thenQuiet {s t u : State} (h : Change s t) (hq : ControlSame t u) : Changes s u :=
  .head h (Changes.quiet hq)

/-- What every elementary change keeps, any number of them keeps. -/
theorem Changes.keeps {P : State → Prop} (hP : ∀ u v, Change u v → P u → P v) {s t : State} (h : Changes s t)
    (hs : P s) : P t := by
  induction h with
  | refl => exact hs
  | tail _ hstep ih => exact hP _ _ hstep ih

/-! #### Operations that leave the registers of R42 alone -/

theorem controlSame_startStep {x : Input} {rest : List Input} {s : State} (h : s.inputs = x :: rest) :
    ControlSame s (startStep rest s) :=
  { inputs := by rw [h]; exact List.subset_cons_self x rest }

theorem controlSame_endStep (before s : State) : ControlSame s (endStep before s) := by
  unfold endStep
  split <;> exact {}

theorem controlSame_hostRead (p : PinsIn) (s : State) : ControlSame s (hostRead p s) := by
  unfold hostRead
  split <;> exact {}

theorem controlSame_hostWrite (p : PinsIn) (s : State) : ControlSame s (hostWrite p s) := by
  unfold hostWrite
  split <;> exact {}

theorem controlSame_gateReceiver (s : State) : ControlSame s (gateReceiver s) := by
  unfold gateReceiver
  split <;> exact {}

theorem controlSame_decodeRun (F : List Byte) (s : State) : ControlSame s (decodeRun F s) := by
  unfold decodeRun
  split <;> exact {}

theorem controlSame_rxPush (b : Byte) (s : State) : ControlSame s (rxPush b s) := by
  unfold rxPush
  split <;> exact {}

theorem controlSame_rxCharError (framing : Bool) (s : State) : ControlSame s (rxCharError framing s) := by
  unfold rxCharError
  split_ifs
  · exact {}
  · exact { ferrSeen := fun _ => rfl }
  · exact { perrSeen := fun _ => rfl }

/-- The end of a character takes its byte or sets a flag (R247). -/
theorem controlSame_rxCharEnd (d : Byte) (p stop : Bool) (s : State) : ControlSame s (rxCharEnd d p stop s) := by
  unfold rxCharEnd
  split
  · exact controlSame_rxPush _ s
  · exact controlSame_rxCharError true s
  · exact controlSame_rxCharError false s

theorem controlSame_rxSample (level : Bool) (s : State) : ControlSame s (rxSample level s) := by
  unfold rxSample
  dsimp only
  split
  · exact {}
  · exact ControlSame.trans {} (controlSame_rxCharEnd _ _ _ _)

/-- One `os_tick` (R245 to R248): the receiver's own registers, and at a character's last sample its end. -/
theorem controlSame_rxTick (level : Bool) (s : State) : ControlSame s (rxTick level s) := by
  unfold rxTick
  split_ifs
  pick_goal 8
  · exact controlSame_rxSample level s
  all_goals exact {}

theorem controlSame_edgeSampled (p : PinsIn) (s : State) : ControlSame s (edgeSampled p s) := by
  have hread := controlSame_hostRead p s
  unfold edgeSampled
  generalize hostRead p s = u at hread ⊢
  exact hread.trans {}

/-- A word that selects no operation changes no register (log 13). -/
theorem controlSame_rejectedWord {why : Reject} {s t : State} (h : rejectedWord why s = .next t) : ControlSame s t := by
  cases why <;> cases h <;> exact {}

/-! #### Operations that change them -/

theorem giveNext_changes {s : State} (h : s.txidx < s.txlen) : Changes s (giveNext s) :=
  Changes.thenQuiet (.giveByte h) {}

theorem txidx_lt_of_txReady {s : State} (h : txReady s = true) : s.txidx < s.txlen := by
  simp only [txReady, Bool.and_eq_true, decide_eq_true_eq] at h
  exact h.2

theorem txStart_changes (s : State) : Changes s (txStart s) := by
  unfold txStart
  split
  · exact (giveNext_changes (txidx_lt_of_txReady ‹_›)).trans (Changes.quiet {})
  · exact .refl

theorem txDone_changes (s : State) : Changes s (txDone s) := by
  unfold txDone
  split
  · exact Changes.thenQuiet (.pollSent ‹_›) {}
  · exact .refl

/-- One `bit_tick` (R243): the next bit, the next character, or the end of transmission. -/
theorem txBitTick_changes (s : State) : Changes s (txBitTick s) := by
  unfold txBitTick
  split_ifs with hfree hbits hleft
  · exact .refl
  · exact Changes.quiet {}
  · exact .head (.quiet {}) (giveNext_changes hleft)
  · exact .head (.quiet {}) (txDone_changes _)

theorem acceptResponse_changes (F : List Byte) (s : State) : Changes s (acceptResponse F s) := by
  unfold acceptResponse
  split
  · exact Changes.thenQuiet (.answered ‹_›) {}
  · exact .refl

theorem crcFail_changes (s : State) : Changes s (crcFail s) := by
  unfold crcFail
  split
  · exact .single (.failed ‹_›)
  · exact .refl

theorem timeout_changes (s : State) : Changes s (timeout s) := by
  unfold timeout
  split
  · rename_i h
    exact Changes.thenQuiet (.failed h.1) {}
  · exact .refl

theorem timedOut_changes (s : State) : Changes s (timedOut s) := by
  by_cases h : s.phase = .timedOut
  · obtain ⟨ev, ⟨hn, e⟩ | ⟨hn, e⟩⟩ := timedOut_effect h
    · exact e ▸ Changes.thenQuiet (.disconnect h hn) {}
    · exact e ▸ Changes.thenQuiet (.count h hn) {}
  · rw [timedOut, if_neg h]

theorem tick_changes (s : State) : Changes s (tick s) := by
  by_cases h : s.phase = .idle ∧ s.cadenceTimer = 0
  · rw [tick_effect h.1 h.2]
    generalize pollFrame s.cfg (nextKind s) s.actionSlot = F
    exact Changes.thenQuiet (.startPoll F h.1) {}
  · rw [tick, if_neg h]

/-- A status within range, or the old one, with whatever else is no register of R42. -/
theorem changes_of_status {s t : State} {st : DriveStatus} (hst : st = s.status ∨ st.position.toNat ≤ 200)
    (h : ControlSame { s with status := st } t) : Changes s t := by
  obtain rfl | hst := hst
  · exact Changes.quiet h
  · exact Changes.thenQuiet (.publish st hst) h

theorem parseResponse_changes (rsp : List Byte) (s : State) : Changes s (parseResponse rsp s) := by
  obtain ⟨st, ev, e, hst⟩ := parseResponse_effect rsp s
  exact e ▸ changes_of_status hst {}

/-- A complete candidate's judgement (R146, R147) publishes a status, latches the response, or ends the transaction. -/
theorem judge_changes (F : List Byte) (s : State) : Changes s (judge F s) := by
  obtain ⟨c, st, ev, hst, e | ⟨hp, e⟩ | ⟨hp, e⟩⟩ := judge_effect F s
  · exact e ▸ changes_of_status hst {}
  · exact e ▸ Changes.thenQuiet (.answered hp) {}
  · exact e ▸ Changes.thenQuiet (.failed hp) {}

theorem rxScan_of_not_scanEnabled {s : State} (h : scanEnabled s = false) : rxScan s = s := by
  unfold rxScan
  split
  · rfl
  · rename_i b rest hb
    have hmore : classify s.cfg s.phase s.curKind (b :: rest) = .needMore := by simpa [scanEnabled, hb] using h
    rw [hmore]

theorem rxScan_changes (s : State) : Changes s (rxScan s) := by
  cases hscan : scanEnabled s with
  | false => rw [rxScan_of_not_scanEnabled hscan]
  | true =>
    obtain ⟨-, -, e⟩ | ⟨L, -, -, e⟩ := rxScan_effect hscan
    · exact e ▸ Changes.quiet {}
    · exact e ▸ .head (.quiet {}) (judge_changes _ _)

/-- The lines of `settle` (R217) are T.COMPLETED and elementary changes. -/
theorem settleLine_changes {s t : State} (h : settleLine s = some t) :
    (s.phase = .completed ∧ t = completed s) ∨ Changes s t := by
  obtain h | ⟨-, rfl⟩ | ⟨-, -, -, rfl⟩ | ⟨-, -, -, rfl⟩ | ⟨-, -, -, rfl⟩ := settleLine_cases h
  · exact Or.inl h
  · exact Or.inr (timedOut_changes s)
  · exact Or.inr (rxScan_changes s)
  · exact Or.inr (timeout_changes s)
  · exact Or.inr (tick_changes s)

/-! #### Every operation -/

/-- The operations that load a frame into the transmit buffer at the invoker's wish (R140, R185). -/
def loadsFrame : Instr → Bool
  | .encode .. | .pollreqScan _ | .pollreqCmd _ => true
  | _ => false

/-- What an operation can do to the registers of R42. -/
inductive ExecEffect (i : Instr) (s : State) : State → Prop
  | reset (hi : i = .reset) : ExecEffect i s (resetRegisters s)
  | completed (hi : i = .tCompleted) (h : s.phase = .completed) : ExecEffect i s (completed s)
  | load {t} (hi : loadsFrame i = true) (F : List Byte) (hF : F.length ≤ 259) (h : ControlSame (frameLoaded F s) t) :
      ExecEffect i s t
  | changes {t} (h : Changes s t) : ExecEffect i s t

theorem execEffect_of_controlSame {i : Instr} {s t : State} (h : ControlSame s t) : ExecEffect i s t :=
  .changes (Changes.quiet h)

theorem controlSame_loadFrame (a f : Byte) (P : List Byte) (s : State) :
    ControlSame (frameLoaded (frameBytes a f P) s) (loadFrame a f P s) := {}

theorem controlSame_ret (r : Ret) (s : State) : ControlSame s { s with ret := r } := {}

/-- BUILD_POLL (R185) loads a frame of fifteen bytes. -/
theorem execEffect_of_buildPoll {i : Instr} (kind : PollKind) (a : Word) {s t : State} (hi : loadsFrame i = true)
    (h : ControlSame (buildPoll kind a s) t) : ExecEffect i s t :=
  .load hi (frameBytes 0x02 0x17 (pollPayload s.cfg kind a)) (by simp) ((controlSame_loadFrame _ _ _ s).trans h)

theorem execEncode_effect (a f : Byte) (P : List Byte) (s : State) :
    ∃ t, execEncode a f P s = .next t ∧ ExecEffect (.encode a f P) s t := by
  unfold execEncode
  split
  · have hlength : (frameBytes a f P).length ≤ 259 := by rw [frameBytes_length]; omega
    exact ⟨_, rfl, .load rfl (frameBytes a f P) hlength ((controlSame_loadFrame a f P s).trans {})⟩
  · exact ⟨_, rfl, execEffect_of_controlSame {}⟩

theorem execDecode_effect (F : List Byte) (s : State) :
    ∃ t, execDecode F s = .next t ∧ ExecEffect (.decode F) s t := by
  have hrun := controlSame_decodeRun F s
  unfold execDecode
  dsimp only
  split <;> exact ⟨_, rfl, execEffect_of_controlSame (hrun.trans {})⟩

theorem execBcast_effect (P : List Byte) (sum : Word) (s : State) :
    ∃ t, execBcast P sum s = .next t ∧ ExecEffect (.bcast P sum) s t := by
  unfold execBcast
  dsimp only
  split_ifs
  · exact ⟨_, rfl, .changes .refl⟩
  · exact ⟨_, rfl, .changes (judge_changes _ s)⟩
  · exact ⟨_, rfl, .changes .refl⟩

theorem execPollrsp_effect (P : List Byte) (sum : Word) (s : State) :
    ∃ t, execPollrsp P sum s = .next t ∧ ExecEffect (.pollrsp P sum) s t := by
  unfold execPollrsp
  dsimp only
  split
  · exact ⟨_, rfl, .changes (parseResponse_changes _ s)⟩
  · split
    · exact ⟨_, rfl, .changes (judge_changes _ s)⟩
    · exact ⟨_, rfl, .changes .refl⟩
  all_goals exact ⟨_, rfl, .changes .refl⟩

theorem execTxNext_effect (s : State) : ∃ t, execTxNext s = .next t ∧ ExecEffect .txNext s t := by
  unfold execTxNext
  split
  · exact ⟨_, rfl, .changes ((giveNext_changes (txidx_lt_of_txReady ‹_›)).trans (Changes.quiet {}))⟩
  · exact ⟨_, rfl, execEffect_of_controlSame {}⟩

theorem execUartBaud_effect (s : State) : ∃ t, execUartBaud s = .next t ∧ ExecEffect .uartBaud s t := by
  refine ⟨_, rfl, execEffect_of_controlSame ?_⟩
  split <;> exact {}

theorem execUartTxchar_effect (act : TxAct) (s : State) :
    ∃ t, execUartTxchar act s = .next t ∧ ExecEffect (.uartTxchar act) s t := by
  cases act with
  | load d =>
    refine ⟨_, rfl, execEffect_of_controlSame ?_⟩
    split <;> exact {}
  | bitTick => exact ⟨_, rfl, .changes (txBitTick_changes s)⟩

theorem execUartRxchar_effect (act : RxAct) (s : State) :
    ∃ t, execUartRxchar act s = .next t ∧ ExecEffect (.uartRxchar act) s t := by
  cases act with
  | osTick level => exact ⟨_, rfl, execEffect_of_controlSame (controlSame_rxTick level s)⟩
  | charErr framing => exact ⟨_, rfl, execEffect_of_controlSame (controlSame_rxCharError framing s)⟩

theorem execTCompleted_effect (s : State) : ∃ t, execTCompleted s = .next t ∧ ExecEffect .tCompleted s t := by
  by_cases h : s.phase = .completed
  · exact ⟨_, rfl, .completed rfl h⟩
  · exact ⟨s, by rw [execTCompleted, completed, if_neg h], .changes .refl⟩

/-- Every operation completes, and with one of four effects on the registers of R42. -/
theorem exec_effect (i : Instr) (s : State) : ∃ t, exec i s = .next t ∧ ExecEffect i s t := by
  cases i with
  | crcInit => exact ⟨_, rfl, execEffect_of_controlSame {}⟩
  | crcUpdate b => exact ⟨_, rfl, execEffect_of_controlSame {}⟩
  | crcRead => exact ⟨_, rfl, execEffect_of_controlSame {}⟩
  | encode a f P => exact execEncode_effect a f P s
  | decode F => exact execDecode_effect F s
  | rxPush b => exact ⟨_, rfl, execEffect_of_controlSame (controlSame_rxPush b s)⟩
  | rxScan => exact ⟨_, rfl, .changes (rxScan_changes s)⟩
  | txNext => exact execTxNext_effect s
  | pollreqScan a => exact ⟨_, rfl, execEffect_of_buildPoll .busScan a rfl (controlSame_ret _ _)⟩
  | pollreqCmd a => exact ⟨_, rfl, execEffect_of_buildPoll .commandPoll a rfl (controlSame_ret _ _)⟩
  | pollrsp P sum => exact execPollrsp_effect P sum s
  | bcast P sum => exact execBcast_effect P sum s
  | enqueue code => exact ⟨_, rfl, execEffect_of_controlSame {}⟩
  | currentStatus => exact ⟨_, rfl, execEffect_of_controlSame {}⟩
  | isConnected => exact ⟨_, rfl, execEffect_of_controlSame {}⟩
  | tMstick => exact ⟨_, rfl, execEffect_of_controlSame {}⟩
  | tTick => exact ⟨_, rfl, .changes (tick_changes s)⟩
  | tTxdone => exact ⟨_, rfl, .changes (txDone_changes s)⟩
  | tRsp F => exact ⟨_, rfl, .changes (acceptResponse_changes F s)⟩
  | tCompleted => exact execTCompleted_effect s
  | tTimeout => exact ⟨_, rfl, .changes (timeout_changes s)⟩
  | tCrcfail => exact ⟨_, rfl, .changes (crcFail_changes s)⟩
  | tTimedout => exact ⟨_, rfl, .changes (timedOut_changes s)⟩
  | uartBaud => exact execUartBaud_effect s
  | uartTxchar act => exact execUartTxchar_effect act s
  | uartRxchar act => exact execUartRxchar_effect act s
  | reset => exact ⟨_, rfl, .reset rfl⟩

theorem execEffect_of_next {i : Instr} {s t : State} (h : exec i s = .next t) : ExecEffect i s t := by
  obtain ⟨u, hu, heffect⟩ := exec_effect i s
  cases hu.symm.trans h
  exact heffect

end Sys2Proof.Machine

/-! ### What a property has to survive for a step to keep it -/

namespace Sys2Proof.Machine

/-- A property that every elementary change keeps, and T.COMPLETED where `settle` takes it, `settle` keeps. -/
theorem settle_keeps {P : State → Prop} {s : State} (hchange : ∀ u v, Change u v → P u → P v)
    (hcompleted : ∀ u, u.phase = .completed → (u, completed u) ∈ settleTaken s → P u → P (completed u)) (hs : P s) :
    P (settle s) := by
  by_contra hend
  obtain ⟨⟨u, v⟩, hmem, hline, hu, hv⟩ := settleTaken_ends hs hend
  dsimp only at hline hu hv
  obtain ⟨hphase, rfl⟩ | hchanges := settleLine_changes hline
  · exact hv (hcompleted u hphase hmem hu)
  · exact hv (hchanges.keeps hchange hu)

/-- The stages of a clock edge (R283): elementary changes, and `settle` at most three times. -/
theorem runEdge_keeps {P : State → Prop} {p : PinsIn} {s : State} (hchange : ∀ u v, Change u v → P u → P v)
    (hcompleted : ∀ u, u.phase = .completed → (u, completed u) ∈ edgeMoves p s → P u → P (completed u)) (hs : P s) :
    P (runEdge p s) := by
  have hquiet {u v : State} (h : ControlSame u v) (hu : P u) : P v := hchange u v (.quiet h) hu
  have hsettle {u : State} (hsub : settleTaken u ⊆ edgeMoves p s) (hu : P u) : P (settle u) :=
    settle_keeps hchange (fun v hphase hmem => hcompleted v hphase (hsub hmem)) hu
  have hsampled : P (edgeSampled p s) := hquiet (controlSame_edgeSampled p s) hs
  have hchar : P (edgeCharDone p s) := by
    unfold edgeCharDone
    split_ifs with htick
    · refine hsettle ?_ (hquiet (controlSame_rxTick _ _) hsampled)
      simp [edgeMoves, htick]
    · exact hsampled
  have hms : P (edgeMsDone p s) := by
    unfold edgeMsDone
    split_ifs with htick
    · refine hsettle ?_ (hquiet {} hchar)
      simp [edgeMoves, htick]
    · exact hchar
  have htx : P (edgeTx p s) := by
    unfold edgeTx
    split
    · exact (txBitTick_changes _).keeps hchange hms
    · exact hms
  have hsettled : P (settle (edgeTx p s)) := hsettle (by simp [edgeMoves]) htx
  have hstarted : P (txStart (settle (edgeTx p s))) := (txStart_changes _).keeps hchange hsettled
  have hwritten := hquiet (controlSame_hostWrite p _) (hquiet (controlSame_gateReceiver _) hstarted)
  exact hquiet {} hwritten

/-- What one step can do (R13, R217). -/
inductive StepEffect (s : State) : State → Prop
  | waits (h : s.inputs = []) : StepEffect s s
  | clock {p : PinsIn} {rest : List Input} (h : s.inputs = .clk p :: rest) :
      StepEffect s (endStep s (clockEdge p (startStep rest s)))
  | operation {w : OpWord} {rest : List Input} {i : Instr} {t : State} (h : s.inputs = .op w :: rest)
      (hi : decode s.cfg w = .ok i) (ht : exec i (startStep rest s) = .next t) : StepEffect s (endStep s (settle t))
  | rejected {w : OpWord} {rest : List Input} {why : Reject} {t : State} (h : s.inputs = .op w :: rest)
      (hw : decode s.cfg w = .error why) (ht : rejectedWord why (startStep rest s) = .next t) :
      StepEffect s (endStep s (settle t))

/-- An outcome that `settle` follows is the operation's next state, settled. -/
theorem next_of_afterOp {before t : State} {o : Host.Outcome State Fault Refusal} (h : afterOp before o = .next t) :
    ∃ u, o = .next u ∧ t = endStep before (settle u) := by
  cases o with
  | next u => cases h; exact ⟨u, rfl, rfl⟩
  | fault f => cases h
  | refused r => cases h

theorem stepEffect_of_next {s t : State} (h : step s = .next t) : StepEffect s t := by
  unfold step at h
  split at h
  · cases h; exact .waits ‹_›
  · cases h; exact .clock ‹_›
  · split at h
    · obtain ⟨u, hu, rfl⟩ := next_of_afterOp h
      exact .operation ‹_› ‹_› hu
    · obtain ⟨u, hu, rfl⟩ := next_of_afterOp h
      exact .rejected ‹_› ‹_› hu

/-- The step's T.COMPLETED moves, RESET and loads of a frame are all that a property has to survive beside the elementary
changes. -/
theorem step_keeps {P : State → Prop} {s t : State} (hstep : step s = .next t)
    (hchange : ∀ u v, Change u v → P u → P v)
    (hcompleted : ∀ u, u.phase = .completed → (u, completed u) ∈ stepMoves s → P u → P (completed u))
    (hreset : ∀ x rest, s.inputs = x :: rest → resetsBlock s.cfg x = true → ∀ u, P u → P (resetRegisters u))
    (hload : ∀ w rest i, s.inputs = .op w :: rest → decode s.cfg w = .ok i → loadsFrame i = true →
      ∀ u F, F.length ≤ 259 → P u → P (frameLoaded F u))
    (hs : P s) : P t := by
  have hquiet {u v : State} (h : ControlSame u v) (hu : P u) : P v := hchange u v (.quiet h) hu
  have hsettle {u : State} (hsub : settleTaken u ⊆ stepMoves s) (hu : P u) : P (settle u) :=
    settle_keeps hchange (fun v hphase hmem => hcompleted v hphase (hsub hmem)) hu
  cases stepEffect_of_next hstep with
  | waits => exact hs
  | @clock p rest h =>
    have hstart : P (startStep rest s) := hquiet (controlSame_startStep h) hs
    refine hquiet (controlSame_endStep _ _) ?_
    unfold clockEdge
    split_ifs with hrst
    · have hmoves : stepMoves s = edgeMoves p (startStep rest s) := by simp [stepMoves, h, hrst]
      exact runEdge_keeps hchange (fun u hphase hmem => hcompleted u hphase (hmoves ▸ hmem)) hstart
    · have hresets : resetsBlock s.cfg (.clk p) = true := by simpa [resetsBlock] using hrst
      exact hquiet (controlSame_hostRead p _) (hreset _ _ h hresets _ hstart)
  | @operation w rest i u h hi hu =>
    have hstart : P (startStep rest s) := hquiet (controlSame_startStep h) hs
    have hmoves : stepMoves s = (startStep rest s, u) :: settleTaken u := by simp [stepMoves, h, hi, hu, wordMoves]
    refine hquiet (controlSame_endStep _ _) (hsettle (by simp [hmoves]) ?_)
    cases execEffect_of_next hu with
    | reset hreseti => exact hreset _ _ h (by simp [resetsBlock, hi, hreseti]) _ hstart
    | completed _ hphase => exact hcompleted _ hphase (by simp [hmoves]) hstart
    | load hloads F hF hq => exact hquiet hq (hload _ _ _ h hi hloads _ F hF hstart)
    | changes hc => exact hc.keeps hchange hstart
  | @rejected w rest why u h hw hu =>
    have hmoves : stepMoves s = (startStep rest s, u) :: settleTaken u := by simp [stepMoves, h, hw, hu, wordMoves]
    refine hquiet (controlSame_endStep _ _) (hsettle (by simp [hmoves]) ?_)
    exact hquiet (controlSame_rejectedWord hu) (hquiet (controlSame_startStep h) hs)

end Sys2Proof.Machine

/-! ### `settle` reaches a settled state (R217) -/

namespace Sys2Proof.Machine

/-- How many phases are still before the scheduler until it sends (R200). -/
def phaseRank : Phase → Nat
  | .awaiting => 3
  | .completed => 2
  | .timedOut => 2
  | .idle => 1
  | .sending => 0

/-- R217: "each line shortens `rxbuf` or moves `phase` forward". -/
def settleMeasure (s : State) : Nat := s.rxbuf.length + phaseRank s.phase

theorem settleMeasure_lt (s : State) : settleMeasure s < s.rxbuf.length + 4 := by
  unfold settleMeasure
  cases s.phase <;> simp [phaseRank]

/-- The judgement of a candidate leaves the receive buffer alone and does not take the phase back. -/
theorem settleMeasure_judge_le (F : List Byte) (s : State) : settleMeasure (judge F s) ≤ settleMeasure s := by
  obtain ⟨c, st, ev, -, e | ⟨hp, e⟩ | ⟨hp, e⟩⟩ := judge_effect F s
  · simp [e, settleMeasure]
  · simp [e, settleMeasure, phaseRank, hp]
  · simp [e, settleMeasure, phaseRank, hp]

theorem settleMeasure_rxScan_lt {s : State} (h : scanEnabled s = true) :
    settleMeasure (rxScan s) < settleMeasure s := by
  obtain ⟨-, hne, e⟩ | ⟨L, hL, hne, e⟩ := rxScan_effect h
  · have := List.length_pos_iff.mpr hne
    simp only [e, settleMeasure, List.length_drop]
    omega
  · obtain ⟨hpos, hle⟩ := consumed_bounds (m := s.cfg.minFrameLen) (classify_complete_pos hL) hne
    have hjudge := settleMeasure_judge_le (s.rxbuf.take L)
      { s with rxbuf := s.rxbuf.drop (consumed s.cfg.minFrameLen (s.rxbuf.take L)) }
    rw [← e] at hjudge
    simp only [settleMeasure, List.length_drop] at hjudge ⊢
    omega

theorem settleMeasure_lt_of_settleLine {s t : State} (h : settleLine s = some t) :
    settleMeasure t < settleMeasure s := by
  obtain ⟨hp, rfl⟩ | ⟨hp, rfl⟩ | ⟨-, -, hscan, rfl⟩ | ⟨hp, hresp, -, rfl⟩ | ⟨hp, hcadence, -, rfl⟩ :=
    settleLine_cases h
  · obtain ⟨st, ev, -, e⟩ := completed_effect hp
    simp [e, settleMeasure, phaseRank, hp]
  · obtain ⟨ev, ⟨-, e⟩ | ⟨-, e⟩⟩ := timedOut_effect hp <;> simp [e, settleMeasure, phaseRank, hp]
  · exact settleMeasure_rxScan_lt hscan
  · simp [timeout, settleMeasure, phaseRank, hp, hresp]
  · simp only [tick_effect hp hcadence, settleMeasure, phaseRank, hp, List.length_nil]
    omega

theorem settled_settleFor {n : Nat} {s : State} (h : settleMeasure s < n) : Settled (settleFor n s) := by
  induction n generalizing s with
  | zero => exact absurd h (Nat.not_lt_zero _)
  | succ n ih =>
    unfold settleFor
    cases hline : settleLine s with
    | none => exact hline
    | some t =>
      have hlt := settleMeasure_lt_of_settleLine hline
      exact ih (by omega)

/-- The bound of `settle` suffices from every state. -/
theorem settled_settle (s : State) : Settled (settle s) := settled_settleFor (settleMeasure_lt s)

end Sys2Proof.Machine

/-! ### The invariant of R42 -/

namespace Sys2Proof.Machine

/-- The part of R42 that holds at every moment, within a step too: (a), (b), (d), (e), (g), the legal configuration and the
canonical transmit buffer. -/
structure CoreInv (s : State) : Prop where
  legal : s.cfg.Legal
  direction : s.de = true ↔ s.phase = .sending
  position : s.status.position.toNat ≤ 200
  counter : s.connected = true → s.timeoutCnt.toNat < s.cfg.timeoutThreshold.toNat
  rescan : s.cfg.scanPolicy = .rescanOnDisconnect → s.scanDone = s.connected
  indices : s.txidx ≤ s.txlen ∧ s.txlen ≤ 259
  memory : Memory.wf s.txbuf = true

/-- The part of R42 that `settle` brings about, (f): no transient phase, and at most an incomplete candidate. -/
structure Resting (s : State) : Prop where
  notCompleted : s.phase ≠ .completed
  notTimedOut : s.phase ≠ .timedOut
  buffer : BufferIncomplete s

/-- An incomplete candidate is shorter than the longest frame (R42 (f), R149). -/
theorem length_le_of_needMore {c : Cfg} {phase : Phase} {kind : PollKind} {B : List Byte} (hc : c.Legal)
    (h : classify c phase kind B = .needMore) : B.length ≤ 258 := by
  have hq : (readQty c kind).toNat ≤ 127 := by cases kind <;> simp only [readQty] <;> omega
  unfold classify at h
  dsimp only at h
  split_ifs at h <;> omega

theorem inv_iff {s : State} : Inv s ↔ CoreInv s ∧ Resting s where
  mp h := ⟨⟨h.legal, h.direction, h.position, h.counter, h.rescan, h.indices, h.memory⟩,
    ⟨h.notCompleted, h.notTimedOut, h.buffer⟩⟩
  mpr h := by
    obtain ⟨hcore, hrest⟩ := h
    refine { hcore, hrest with bufferLength := ?_ }
    obtain hempty | hmore := hrest.buffer
    · simp [hempty]
    · exact length_le_of_needMore hcore.legal hmore

theorem coreInv_of_controlSame {s t : State} (h : ControlSame s t) (hs : CoreInv s) : CoreInv t where
  legal := by rw [h.cfg]; exact hs.legal
  direction := by rw [h.de, h.phase]; exact hs.direction
  position := by rw [h.status]; exact hs.position
  counter := by rw [h.connected, h.timeoutCnt, h.cfg]; exact hs.counter
  rescan := by rw [h.cfg, h.scanDone, h.connected]; exact hs.rescan
  indices := by rw [h.txidx, h.txlen]; exact hs.indices
  memory := by rw [h.txbuf]; exact hs.memory

/-- Outside `Sending` the driver is off (R42 (a)). -/
theorem CoreInv.de_eq_false {s : State} (hs : CoreInv s) (h : s.phase ≠ .sending) : s.de = false := by
  simpa using mt hs.direction.mp h

/-- An edge of the scheduler between two phases in which the driver is off keeps R42 (a). -/
theorem CoreInv.direction_of_phase {s : State} (hs : CoreInv s) {p : Phase} (h : s.phase ≠ .sending)
    (hp : p ≠ .sending) : s.de = true ↔ p = .sending := by
  simp [hs.de_eq_false h, hp]

theorem coreInv_of_change {s t : State} (h : Change s t) (hs : CoreInv s) : CoreInv t := by
  cases h with
  | quiet h => exact coreInv_of_controlSame h hs
  | publish st h => exact { hs with position := h }
  | giveByte h => exact { hs with indices := ⟨h, hs.indices.2⟩ }
  | startPoll F h =>
    exact { hs with
      direction := by simp
      indices := by simp
      memory := wf_memWrite F 0 hs.memory }
  | pollSent h => exact { hs with direction := by simp }
  | answered h => exact { hs with direction := hs.direction_of_phase (by simp [h]) (by simp) }
  | failed h => exact { hs with direction := hs.direction_of_phase (by simp [h]) (by simp) }
  | count h hn =>
    exact { hs with
      direction := hs.direction_of_phase (by simp [h]) (by simp)
      counter := fun _ => hn }
  | disconnect h hn =>
    exact { hs with
      direction := hs.direction_of_phase (by simp [h]) (by simp)
      counter := by simp
      rescan := fun hpolicy => if_pos hpolicy }

/-- T.COMPLETED clears the count, which is then below every legal threshold (R208, R312). -/
theorem coreInv_completed {s : State} (h : s.phase = .completed) (hs : CoreInv s) : CoreInv (completed s) := by
  obtain ⟨st, ev, hst, e⟩ := completed_effect h
  have hthreshold : 0 < s.cfg.timeoutThreshold.toNat := by have := hs.legal; omega
  rw [e]
  exact { hs with
    direction := hs.direction_of_phase (by simp [h]) (by simp)
    position := hst.elim (fun hold => hold ▸ hs.position) id
    counter := fun _ => by simpa using hthreshold
    rescan := fun _ => rfl }

theorem coreInv_frameLoaded {s : State} {F : List Byte} (hF : F.length ≤ 259) (hs : CoreInv s) :
    CoreInv (frameLoaded F s) :=
  { hs with
    indices := ⟨Nat.zero_le _, hF⟩
    memory := wf_memWrite F 0 hs.memory }

/-- The reset table of R43 meets the invariant. -/
theorem coreInv_resetOf {c : Cfg} (hc : c.Legal) : CoreInv (State.resetOf c) where
  legal := hc
  direction := by simp [State.resetOf]
  position := by simp [State.resetOf]
  counter := by simp [State.resetOf]
  rescan := by simp [State.resetOf]
  indices := by simp [State.resetOf]
  memory := wf_reset_txbuf c

theorem coreInv_resetRegisters {s : State} (hs : CoreInv s) : CoreInv (resetRegisters s) :=
  coreInv_of_controlSame
    (s := { State.resetOf s.cfg with inputs := s.inputs }) {} { coreInv_resetOf hs.legal with }

theorem coreInv_step {s t : State} (hstep : step s = .next t) (hs : CoreInv s) : CoreInv t :=
  step_keeps hstep (fun _ _ => coreInv_of_change) (fun _ hphase _ => coreInv_completed hphase)
    (fun _ _ _ _ _ => coreInv_resetRegisters) (fun _ _ _ _ _ _ _ _ => coreInv_frameLoaded) hs

/-! #### (f): what `settle` brings about -/

theorem resting_of_settled {s : State} (h : Settled s) : Resting s := by
  obtain ⟨hcompleted, htimedOut, hscan, -, -⟩ := settled_iff.mp h
  refine ⟨hcompleted, htimedOut, ?_⟩
  simpa [scanEnabled, BufferIncomplete, or_iff_not_imp_left] using hscan

theorem resting_congr {s t : State} (hcfg : t.cfg = s.cfg) (hphase : t.phase = s.phase) (hkind : t.curKind = s.curKind)
    (hrxbuf : t.rxbuf = s.rxbuf) (hs : Resting s) : Resting t where
  notCompleted := hphase ▸ hs.notCompleted
  notTimedOut := hphase ▸ hs.notTimedOut
  buffer := by
    unfold BufferIncomplete
    rw [hcfg, hphase, hkind, hrxbuf]
    exact hs.buffer

theorem resting_endStep {before s : State} (hs : Resting s) : Resting (endStep before s) :=
  resting_congr (by simp) (by simp) (by simp) (by simp) hs

theorem resting_resetOf (c : Cfg) : Resting (State.resetOf c) := ⟨by simp [State.resetOf], by simp [State.resetOf], .inl rfl⟩

/-- After an edge's last `settle` no stage touches the phase or the receive buffer. -/
theorem resting_clockEdge (p : PinsIn) (s : State) : Resting (clockEdge p s) := by
  unfold clockEdge
  split
  · refine resting_congr ?_ ?_ ?_ ?_ (resting_of_settled (settled_settle (edgeTx p s))) <;> simp [runEdge]
  · refine resting_congr ?_ ?_ ?_ ?_ (resting_resetOf s.cfg) <;> simp [resetEdge, resetRegisters]

theorem resting_step {s t : State} (hstep : step s = .next t) (hs : Resting s) : Resting t := by
  cases stepEffect_of_next hstep with
  | waits => exact hs
  | clock => exact resting_endStep (resting_clockEdge _ _)
  | operation => exact resting_endStep (resting_of_settled (settled_settle _))
  | rejected => exact resting_endStep (resting_of_settled (settled_settle _))

/-- Settles O55: the core of R42 survives each change a step is made of, and `settle` brings about the rest. -/
theorem everyStepKeepsInvariant : Obligations.EveryStepKeepsInvariant := by
  intro s t hs hstep
  obtain ⟨hcore, hrest⟩ := inv_iff.mp hs
  exact inv_iff.mpr ⟨coreInv_step hstep hcore, resting_step hstep hrest⟩

end Sys2Proof.Machine

/-! ### Reset (R43, R310) -/

namespace Sys2Proof.Machine

/-- A clock that meets R250 stands in `Config.fClkHz` whatever the free value. -/
theorem clockOk_config : clockOk Config.cfg.fClkHz = true := by
  simp only [Config.cfg, Config.fClkHz]
  split
  · assumption
  · decide

/-- Each OPEN field of `Config.cfg` falls back to a legal value, so the configuration is legal whatever they hold (R8). -/
theorem legal_config : Config.cfg.Legal := by
  have hqty : 6 ≤ Config.readQtyPoll.toNat ∧ Config.readQtyPoll.toNat ≤ 127 := by
    unfold Config.readQtyPoll
    split
    · assumption
    · decide
  have hinterval : 1 ≤ Config.pollIntervalMs.toNat := by
    unfold Config.pollIntervalMs
    split
    · assumption
    · decide
  have hdelay : Config.firstTickDelayMs.toNat ≤ Config.pollIntervalMs.toNat := by
    unfold Config.firstTickDelayMs
    split
    · assumption
    · simp
  exact ⟨by decide, by decide, hqty.1, hqty.2, hinterval, by decide, by decide, hdelay, .inr rfl, clockOk_config⟩

/-- Settles O56: the table of R43 meets the invariant under every legal configuration. -/
theorem resetHasInvariant : Obligations.ResetHasInvariant :=
  inv_iff.mpr ⟨coreInv_resetOf legal_config, resting_resetOf Config.cfg⟩

/-- Settles O47: RESET is `resetRegisters`, whose fields are those of the table. -/
theorem resetGivesTable : Obligations.ResetGivesTable := by
  intro s
  refine ⟨resetRegisters s, rfl, ?_⟩
  simp [resetRegisters, State.resetOf, Uart.reset, actionWord, statusWord, statusWordOf, doorCode]

end Sys2Proof.Machine

/-! ### Registers that no operation writes back (R29, R37) -/

namespace Sys2Proof.Machine

theorem cfg_of_change {s t : State} (h : Change s t) : t.cfg = s.cfg := by
  cases h with
  | quiet h => exact h.cfg
  | _ => rfl

theorem completed_cfg (s : State) : (completed s).cfg = s.cfg := by
  by_cases h : s.phase = .completed
  · obtain ⟨st, ev, -, e⟩ := completed_effect h
    rw [e]
  · rw [completed, if_neg h]

/-- Settles O54: no change that a step is made of writes the configuration. -/
theorem configurationIsNeverWritten : Obligations.ConfigurationIsNeverWritten := by
  intro s t hstep
  refine step_keeps (P := fun u => u.cfg = s.cfg) hstep ?_ ?_ ?_ ?_ rfl
  · exact fun u v hchange hu => (cfg_of_change hchange).trans hu
  · exact fun u _ _ hu => (completed_cfg u).trans hu
  · exact fun _ _ _ _ _ hu => hu
  · exact fun _ _ _ _ _ _ _ _ _ hu => hu

theorem perrSeen_of_change {s t : State} (h : Change s t) (hs : s.perrSeen = true) : t.perrSeen = true := by
  cases h with
  | quiet h => exact h.perrSeen hs
  | _ => exact hs

theorem ferrSeen_of_change {s t : State} (h : Change s t) (hs : s.ferrSeen = true) : t.ferrSeen = true := by
  cases h with
  | quiet h => exact h.ferrSeen hs
  | _ => exact hs

/-- Settles O46: only RESET clears a flag of R29. -/
theorem characterErrorFlagsAreSticky : Obligations.CharacterErrorFlagsAreSticky := by
  intro i s t hreset hexec
  cases execEffect_of_next hexec with
  | reset hi => exact absurd hi hreset
  | completed _ hphase =>
    obtain ⟨st, ev, -, e⟩ := completed_effect hphase
    rw [e]
    exact ⟨id, id⟩
  | load _ F _ h => exact ⟨h.perrSeen, h.ferrSeen⟩
  | changes h =>
    exact ⟨h.keeps (P := fun u => u.perrSeen = true) fun _ _ => perrSeen_of_change,
      h.keeps (P := fun u => u.ferrSeen = true) fun _ _ => ferrSeen_of_change⟩

end Sys2Proof.Machine

/-! ### R42 (g): a poll is loaded while it is sent -/

namespace Sys2Proof.Machine

/-- What the environment supplies invokes no load: the poll of T.TICK is the only frame that is sent (R13, R96). -/
theorem loadsFrame_of_external {c : Cfg} {w : OpWord} {i : Instr} (hw : w.external = true) (hi : decode c w = .ok i) :
    loadsFrame i = false := by
  cases w with
  | wireTx B => cases hw
  | wireRx B => cases hw
  | internal op operands => cases hw
  | event e =>
    obtain rfl : decodeEvent e = i := Except.ok.inj hi
    cases e <;> rfl
  | hostWrite offset data =>
    simp only [decode, decodeHostWrite] at hi
    split_ifs at hi
    cases hi
    rfl
  | hostRead offset hi' lo =>
    simp only [decode, decodeHostRead] at hi
    split_ifs at hi <;> cases hi <;> rfl

theorem pollLoaded_of_change {s t : State} (h : Change s t) (hs : PollLoaded s) : PollLoaded t := by
  cases h with
  | quiet h =>
    unfold PollLoaded
    rw [h.phase, h.txlen]
    exact hs
  | publish st h => exact hs
  | giveByte h => exact hs
  | startPoll F h => exact fun _ => rfl
  | _ => exact nofun

theorem completed_phase {s : State} (h : s.phase = .completed) : (completed s).phase = .idle := by
  obtain ⟨st, ev, -, e⟩ := completed_effect h
  rw [e]

theorem inputs_subset_of_change {s t : State} (h : Change s t) : t.inputs ⊆ s.inputs := by
  cases h with
  | quiet h => exact h.inputs
  | _ => exact List.Subset.refl _

theorem completed_inputs {s : State} (h : s.phase = .completed) : (completed s).inputs = s.inputs := by
  obtain ⟨st, ev, -, e⟩ := completed_effect h
  rw [e]

/-- A step adds no input. -/
theorem inputs_subset_of_step {s t : State} (hstep : step s = .next t) : t.inputs ⊆ s.inputs := by
  refine step_keeps (P := fun u => u.inputs ⊆ s.inputs) hstep ?_ ?_ ?_ ?_ (List.Subset.refl _)
  · exact fun u v hchange hu => List.Subset.trans (inputs_subset_of_change hchange) hu
  · exact fun u hphase _ hu => by rwa [completed_inputs hphase]
  · exact fun _ _ _ _ _ hu => hu
  · exact fun _ _ _ _ _ _ _ _ _ hu => hu

/-- Settles O57: among the environment's inputs only T.TICK enters `Sending`, and none loads another frame. -/
theorem sendingMeansPollLoaded : Obligations.SendingMeansPollLoaded := by
  intro s t _ hloaded hexternal hstep
  refine ⟨step_keeps hstep (fun _ _ => pollLoaded_of_change) ?_ ?_ ?_ hloaded,
    fun x hx => hexternal x (inputs_subset_of_step hstep hx)⟩
  · intro u hphase _ _ hsending
    simp [completed_phase hphase] at hsending
  · exact fun _ _ _ _ _ _ => nofun
  · intro w rest i hin hi hloads
    have hw : w.external = true := hexternal (.op w) (by simp [hin])
    simp [loadsFrame_of_external hw hi] at hloads

end Sys2Proof.Machine

/-! ### R42 (c): who connects and disconnects -/

namespace Sys2Proof.Machine

theorem toNat_le_satInc (n : BitVec 8) : n.toNat ≤ (satInc n).toNat := by
  unfold satInc
  split
  · simp [*]
  · bv_omega

theorem disconnectedByCount_of_change {s t : State} (h : Change s t) (hs : DisconnectedByCount s) :
    DisconnectedByCount t := by
  cases h with
  | quiet h =>
    unfold DisconnectedByCount
    rw [h.connected, h.cfg, h.timeoutCnt]
    exact hs
  | count h hn => exact fun hconnected => (hs hconnected).trans (toNat_le_satInc _)
  | disconnect h hn => exact fun _ => hn
  | _ => exact hs

/-- No elementary change connects: T.COMPLETED is the only operation that does (R208). -/
theorem connected_of_change {s t : State} (h : Change s t) (hs : s.connected = false) : t.connected = false := by
  cases h with
  | quiet h => exact h.connected.trans hs
  | disconnect h hn => rfl
  | _ => exact hs

theorem completed_connected {s : State} (h : s.phase = .completed) : (completed s).connected = true := by
  obtain ⟨st, ev, -, e⟩ := completed_effect h
  rw [e]

/-- Below the threshold T.TIMEDOUT never lowers the count, and at it the count is what disconnects (R211). -/
theorem disconnectedByCount_of_step {x : Input} {rest : List Input} {s t : State} (hin : s.inputs = x :: rest)
    (hx : resetsBlock s.cfg x = false) (hs : DisconnectedByCount s) (hstep : step s = .next t) :
    DisconnectedByCount t := by
  refine step_keeps hstep (fun _ _ => disconnectedByCount_of_change) ?_ ?_ ?_ hs
  · intro u hphase _ _ hconnected
    simp [completed_connected hphase] at hconnected
  · intro y rest' hin' hy
    cases hin.symm.trans hin'
    exact absurd hy (by simp [hx])
  · exact fun _ _ _ _ _ _ _ _ _ hu => hu

/-- A step without a T.COMPLETED that connects leaves the machine disconnected. -/
theorem disconnected_of_step {s t : State} (hstep : step s = .next t) (hs : s.connected = false)
    (hnone : ¬ ∃ m ∈ stepMoves s, m.1.connected = false ∧ IsCompleted m) : t.connected = false := by
  refine step_keeps hstep (fun _ _ => connected_of_change) ?_ ?_ ?_ hs
  · exact fun u hphase hmem hu => absurd ⟨_, hmem, hu, hphase, rfl⟩ hnone
  · exact fun _ _ _ _ _ _ => rfl
  · exact fun _ _ _ _ _ _ _ _ _ hu => hu

/-- Settles O58, part by part. -/
theorem disconnectionFollowsCount : Obligations.DisconnectionFollowsCount := by
  refine ⟨fun x rest s t => disconnectedByCount_of_step, fun s t hstep hs ht => ?_⟩
  by_contra hnone
  simp [disconnected_of_step hstep hs hnone] at ht

end Sys2Proof.Machine

/-! ### A host write in the clock of T.TICK (R74, R283 (c), log 17)

Within one edge the stages before the host write either have not taken T.TICK yet, and then what it reads still stands
(`TickInputsSame`), or have taken it, and then the poll with the old code stands in the transmit buffer (`PollStarted`).
`TickStage` is the two together; each stage of the edge keeps it, and the last `settle` decides in `Idle`. -/

namespace Sys2Proof.Machine

/-- `u` holds what T.TICK would read and write in `s`, up to the receiver and the outcome of a transaction in flight: no
transmission has started since, and `Idle` has not been left. -/
structure TickInputsSame (s u : State) : Prop where
  cfg : u.cfg = s.cfg := by rfl
  txbuf : u.txbuf = s.txbuf := by rfl
  actionSlot : u.actionSlot = s.actionSlot := by rfl
  cadenceTimer : u.cadenceTimer = s.cadenceTimer := by rfl
  notSending : s.phase ≠ .sending → u.phase ≠ .sending := by exact id
  idle : s.phase = .idle → u.phase = .idle ∧ u.firstSent = s.firstSent ∧ u.scanDone = s.scanDone := by
    exact fun h => ⟨h, rfl, rfl⟩
  txFree : s.uart.txBitsLeft = 0 → u.uart.txBitsLeft = 0 := by exact id

theorem TickInputsSame.trans {s u v : State} (h : TickInputsSame s u) (k : TickInputsSame u v) :
    TickInputsSame s v where
  cfg := k.cfg.trans h.cfg
  txbuf := k.txbuf.trans h.txbuf
  actionSlot := k.actionSlot.trans h.actionSlot
  cadenceTimer := k.cadenceTimer.trans h.cadenceTimer
  notSending := k.notSending ∘ h.notSending
  idle hs := by
    obtain ⟨hphase, hfirst, hscan⟩ := h.idle hs
    obtain ⟨hphase', hfirst', hscan'⟩ := k.idle hphase
    exact ⟨hphase', hfirst'.trans hfirst, hscan'.trans hscan⟩
  txFree := k.txFree ∘ h.txFree

/-- The kind of the next poll, which R203 reads from the configuration and two flags, is fixed in `Idle`. -/
theorem TickInputsSame.nextKind {s u : State} (h : TickInputsSame s u) (hs : s.phase = .idle) :
    nextKind u = nextKind s := by
  obtain ⟨-, hfirst, hscan⟩ := h.idle hs
  unfold Machine.nextKind
  rw [h.cfg, hfirst, hscan]

/-- In `u` the poll of T.TICK stands in the transmit buffer with the code that `s` held in the slot, and a transmitter
that was free still is, with the whole poll before it. -/
structure PollUnderway (s u : State) : Prop where
  phase : u.phase = .sending
  de : u.de = true
  rxbuf : u.rxbuf = []
  frame : memRead u.txbuf 0 15 = pollFrame s.cfg u.curKind s.actionSlot
  kind : s.phase = .idle → u.curKind = nextKind s
  waiting : s.uart.txBitsLeft = 0 → u.uart.txBitsLeft = 0 ∧ u.txidx = 0 ∧ u.txlen = 15

/-- T.TICK has been taken, and its poll has bytes left to send. -/
structure PollStarted (s u : State) : Prop extends PollUnderway s u where
  bytesLeft : u.txidx < u.txlen

/-- Before the transmitter's stage of an edge, T.TICK is ahead or has just been taken. -/
abbrev TickStage (s u : State) : Prop := TickInputsSame s u ∨ PollStarted s u

/-! #### The lines of `settle` -/

/-- T.TICK takes the pending code (R202). -/
theorem pollStarted_tick {s u : State} (hwf : Memory.wf s.txbuf = true) (h : TickInputsSame s u)
    (hphase : u.phase = .idle) (hcadence : u.cadenceTimer = 0) : PollStarted s (tick u) := by
  have hframe : memRead (memWrite u.txbuf 0 (pollFrame u.cfg (nextKind u) u.actionSlot)) 0 15
      = pollFrame s.cfg (nextKind u) s.actionSlot := by
    rw [h.txbuf, h.cfg, h.actionSlot]
    simpa using memRead_memWrite (pollFrame s.cfg (nextKind u) s.actionSlot) 0 hwf
  rw [tick_effect hphase hcadence]
  exact {
    phase := rfl
    de := rfl
    rxbuf := rfl
    frame := hframe
    kind := h.nextKind
    waiting := fun hs => ⟨h.txFree hs, rfl, rfl⟩
    bytesLeft := Nat.zero_lt_succ 14 }

/-- A judged candidate moves the phase from `AwaitingResponse` only (R207, R210). -/
theorem tickInputsSame_judge (F : List Byte) (s : State) : TickInputsSame s (judge F s) := by
  obtain ⟨c, st, ev, -, e | ⟨hp, e⟩ | ⟨hp, e⟩⟩ := judge_effect F s
  · exact e ▸ {}
  · exact e ▸ { notSending := by simp, idle := by simp [hp] }
  · exact e ▸ { notSending := by simp, idle := by simp [hp] }

/-- Every line of `settle` but T.TICK leaves T.TICK's inputs alone. -/
theorem settleLine_tick_or_same {s t : State} (h : settleLine s = some t) :
    (s.phase = .idle ∧ s.cadenceTimer = 0 ∧ t = tick s) ∨ TickInputsSame s t := by
  obtain ⟨hp, rfl⟩ | ⟨hp, rfl⟩ | ⟨-, -, hscan, rfl⟩ | ⟨hp, hresp, -, rfl⟩ | ⟨hp, hcadence, -, rfl⟩ :=
    settleLine_cases h
  · obtain ⟨st, ev, -, e⟩ := completed_effect hp
    exact .inr (e ▸ { notSending := by simp, idle := by simp [hp] })
  · obtain ⟨ev, ⟨-, e⟩ | ⟨-, e⟩⟩ := timedOut_effect hp
    · exact .inr (e ▸ { notSending := by simp, idle := by simp [hp] })
    · exact .inr (e ▸ { notSending := by simp, idle := by simp [hp] })
  · obtain ⟨-, -, e⟩ | ⟨L, -, -, e⟩ := rxScan_effect hscan
    · exact .inr (e ▸ {})
    · exact .inr (e ▸ TickInputsSame.trans {} (tickInputsSame_judge _ _))
  · rw [timeout, if_pos ⟨hp, hresp⟩]
    exact .inr { notSending := by simp, idle := by simp [hp] }
  · exact .inl ⟨hp, hcadence, rfl⟩

/-- With its receive buffer empty, `Sending` has no line to take. -/
theorem PollUnderway.settled {s u : State} (h : PollUnderway s u) : Settled u := by
  simp [settled_iff, scanEnabled, h.phase, h.rxbuf]

theorem tickStage_settle {s u : State} (hwf : Memory.wf s.txbuf = true) (h : TickStage s u) :
    TickStage s (settle u) := by
  refine settle_induct (P := TickStage s) ?_ h
  rintro v w (hsame | hstarted) hline
  · obtain ⟨hphase, hcadence, rfl⟩ | hline := settleLine_tick_or_same hline
    · exact .inr (pollStarted_tick hwf hsame hphase hcadence)
    · exact .inl (hsame.trans hline)
  · cases hstarted.settled.symm.trans hline

/-! #### The stages of an edge before the last `settle` -/

theorem tickInputsSame_edgeSampled (p : PinsIn) (s : State) : TickInputsSame s (edgeSampled p s) := by
  have hread : TickInputsSame s (hostRead p s) := by
    unfold hostRead
    split <;> exact {}
  unfold edgeSampled
  generalize hostRead p s = u at hread ⊢
  exact hread.trans {}

/-- A received character writes the receive buffer or a sticky flag (R247). -/
theorem tickInputsSame_rxCharEnd (d : Byte) (p stop : Bool) (s : State) : TickInputsSame s (rxCharEnd d p stop s) := by
  unfold rxCharEnd rxPush rxCharError
  split <;> split_ifs <;> exact {}

/-- The receiver's `os_tick` (R245 to R248). -/
theorem tickInputsSame_rxTick (level : Bool) (s : State) : TickInputsSame s (rxTick level s) := by
  have hsample : TickInputsSame s (rxSample level s) := by
    unfold rxSample
    dsimp only
    split
    · exact {}
    · exact TickInputsSame.trans {} (tickInputsSame_rxCharEnd _ _ _ _)
  unfold rxTick
  split_ifs
  pick_goal 8
  · exact hsample
  all_goals exact {}

/-- The millisecond tick moves the timers of both sides alike (R201). -/
theorem tickStage_msTick {s u : State} (h : TickStage s u) : TickStage (msTick s) (msTick u) := by
  obtain h | h := h
  · exact .inl { h with cadenceTimer := congrArg countDown h.cadenceTimer }
  · exact .inr { h with }

theorem tickStage_edgeCharDone {p : PinsIn} {s : State} (hwf : Memory.wf s.txbuf = true) :
    TickStage s (edgeCharDone p s) := by
  have hsampled := tickInputsSame_edgeSampled p s
  unfold edgeCharDone
  split
  · exact tickStage_settle hwf (.inl (hsampled.trans (tickInputsSame_rxTick _ _)))
  · exact .inl hsampled

/-- The registers before an edge, with the millisecond tick of the edge taken where there is one. -/
def msTicked (s : State) : State := if msTickNow s then msTick s else s

@[simp] theorem msTicked_phase (s : State) : (msTicked s).phase = s.phase := by
  unfold msTicked
  split <;> rfl

@[simp] theorem msTicked_txbuf (s : State) : (msTicked s).txbuf = s.txbuf := by
  unfold msTicked
  split <;> rfl

theorem tickStage_edgeMsDone {p : PinsIn} {s : State} (hwf : Memory.wf s.txbuf = true) :
    TickStage (msTicked s) (edgeMsDone p s) := by
  have hchar : TickStage s (edgeCharDone p s) := tickStage_edgeCharDone hwf
  unfold edgeMsDone msTicked
  split
  · exact tickStage_settle hwf (tickStage_msTick hchar)
  · exact hchar

/-- Outside `Sending` a `bit_tick` moves the transmitter only. -/
theorem tickInputsSame_txBitTick {s : State} (h : s.phase ≠ .sending) : TickInputsSame s (txBitTick s) := by
  unfold txBitTick
  split_ifs with hfree hbits hleft
  · exact {}
  · exact { txFree := fun hs => absurd hs hfree }
  · exact { txFree := fun hs => absurd hs hfree }
  · rw [txDone, if_neg h]
    exact { txFree := fun _ => rfl }

/-- A `bit_tick` in the clock of T.TICK cannot end the transmission: there are bytes left (R243). -/
theorem pollUnderway_txBitTick {s u : State} (h : PollStarted s u) : PollUnderway s (txBitTick u) := by
  obtain ⟨hunderway, hbytes⟩ := h
  have hbusy (hu : u.uart.txBitsLeft ≠ 0) {P : Prop} : s.uart.txBitsLeft = 0 → P :=
    fun hs => absurd (hunderway.waiting hs).1 hu
  unfold txBitTick
  rw [if_pos hbytes]
  split_ifs with hfree hbits
  · exact hunderway
  · exact { hunderway with waiting := hbusy hfree }
  · exact { hunderway with waiting := hbusy hfree }

theorem edgeTx_same_or_underway {p : PinsIn} {s : State} (hphase : s.phase ≠ .sending)
    (hwf : Memory.wf s.txbuf = true) :
    TickInputsSame (msTicked s) (edgeTx p s) ∨ PollUnderway (msTicked s) (edgeTx p s) := by
  obtain h | h := tickStage_edgeMsDone (p := p) hwf
  · left
    unfold edgeTx
    split
    · exact h.trans (tickInputsSame_txBitTick (h.notSending (by simpa using hphase)))
    · exact h
  · right
    unfold edgeTx
    split
    · exact pollUnderway_txBitTick h
    · exact h.toPollUnderway

/-! #### The last `settle`, and what follows it -/

theorem settle_edgeTx_same_or_underway {p : PinsIn} {s : State} (hphase : s.phase ≠ .sending)
    (hwf : Memory.wf s.txbuf = true) :
    TickInputsSame (msTicked s) (settle (edgeTx p s)) ∨ PollUnderway (msTicked s) (settle (edgeTx p s)) := by
  obtain h | h := edgeTx_same_or_underway (p := p) hphase hwf
  · exact (tickStage_settle (by simpa using hwf) (.inl h)).imp_right PollStarted.toPollUnderway
  · exact .inr (by rwa [settle_of_settled h.settled])

theorem pollUnderway_of_msTicked {s u : State} (h : PollUnderway (msTicked s) u) : PollUnderway s u := by
  unfold msTicked at h
  split at h
  · exact { h with }
  · exact h

/-- After an edge's last `settle` a machine in `Sending` sends the poll of this clock. -/
theorem pollUnderway_of_sending {p : PinsIn} {s : State} (hphase : s.phase ≠ .sending) (hwf : Memory.wf s.txbuf = true)
    (h : (settle (edgeTx p s)).phase = .sending) : PollUnderway s (settle (edgeTx p s)) := by
  obtain hsame | hunderway := settle_edgeTx_same_or_underway (p := p) hphase hwf
  · exact absurd h (hsame.notSending (by simpa using hphase))
  · exact pollUnderway_of_msTicked hunderway

/-- The cadence timer of `Idle` is at 0 in this edge, at the latest after its millisecond tick. -/
theorem msTicked_cadenceTimer {s : State}
    (h : s.cadenceTimer = 0 ∨ (s.cadenceTimer = 1 ∧ msTickNow s = true)) : (msTicked s).cadenceTimer = 0 := by
  unfold msTicked
  obtain h | ⟨h, htick⟩ := h
  · split
    · simp [msTick, countDown, h]
    · exact h
  · rw [if_pos htick]
    simp [msTick, countDown, h]

/-- An edge in `Idle` whose cadence runs out leaves for `Sending`: the state after `settle` is settled, and with T.TICK
still ahead it would not be. -/
theorem sending_of_cadence {p : PinsIn} {s : State} (hidle : s.phase = .idle) (hwf : Memory.wf s.txbuf = true)
    (h : s.cadenceTimer = 0 ∨ (s.cadenceTimer = 1 ∧ msTickNow s = true)) :
    (settle (edgeTx p s)).phase = .sending := by
  obtain hsame | hunderway := settle_edgeTx_same_or_underway (p := p) (by simp [hidle]) hwf
  · obtain ⟨hphase, -, -⟩ := hsame.idle (by simpa using hidle)
    obtain ⟨-, -, -, -, hnoTick⟩ := settled_iff.mp (settled_settle (edgeTx p s))
    exact absurd ⟨hphase, hsame.cadenceTimer.trans (msTicked_cadenceTimer h)⟩ hnoTick
  · exact hunderway.phase

/-- A free transmitter starts the poll's first character in the clock of T.TICK (R242 to R244). -/
theorem PollUnderway.txStart {s u : State} (h : PollUnderway s u) (hs : s.uart.txBitsLeft = 0) :
    (txStart u).txidx = 1 ∧ (txStart u).uart.baudCnt = 0 ∧ (txStart u).uart.uartTx = false := by
  obtain ⟨hfree, hidx, hlen⟩ := h.waiting hs
  have hready : txReady u = true := by simp [txReady, h.phase, hfree, hidx, hlen]
  simp [Machine.txStart, hready, giveNext, txLoad, hidx]

/-- The receiver's gating leaves the transmitter alone (R248). -/
theorem gateReceiver_transmitter (s : State) :
    (gateReceiver s).uart.baudCnt = s.uart.baudCnt ∧ (gateReceiver s).uart.uartTx = s.uart.uartTx := by
  unfold gateReceiver
  split <;> exact ⟨rfl, rfl⟩

/-- Settles O50: the host write is an edge's last stage, and every stage before it works on the old code. -/
theorem hostWriteInClockOfTick : Obligations.HostWriteInClockOfTick := by
  intro p rest s hin hrst hsel hwe haddr hphase hwf
  have hedge : clockEdge p (startStep rest s) = runEdge p (startStep rest s) := by rw [clockEdge, if_pos hrst]
  have hunderway := pollUnderway_of_sending (p := p) (s := startStep rest s) hphase hwf
  refine ⟨endStep s (runEdge p (startStep rest s)), by simp only [step, hin, hedge], ?_, ?_, ?_⟩
  · simp [runEdge, hostWrite, hsel, hwe, haddr]
  · intro hidle hcadence
    have hsending := sending_of_cadence (p := p) (s := startStep rest s) hidle hwf hcadence
    have hkind : (settle (edgeTx p (startStep rest s))).curKind = nextKind s := (hunderway hsending).kind hidle
    simp [runEdge, hsending, hkind]
  · intro hsending
    have hunderway := hunderway (by simpa [runEdge] using hsending)
    refine ⟨by simpa [runEdge] using hunderway.de, by simpa [runEdge] using hunderway.frame, fun hfree => ?_⟩
    simpa [runEdge, gateReceiver_transmitter] using hunderway.txStart hfree

end Sys2Proof.Machine

/-! ### Decoding an encoded word (R90 to R100)

A frame carries everything its decoder reads: a received frame its payload, of the length its byte count gives, and its
checksum field (R94, R95, R97); a poll request its read quantity, which tells the two kinds apart, and its write data
(R93). -/

namespace Sys2Proof

open Machine

/-- The payload follows the two bytes that select the operation (R90). -/
theorem byteAt_rawFrame_payload {P : List Byte} {k : Nat} (h : k < P.length) (a f : Byte) (sum : Word) :
    byteAt (rawFrame a f P sum) (k + 2) = byteAt P k := by
  simp [rawFrame, byteAt, List.getElem?_append_left h]

/-- R95, R97: the header's byte count gives the payload's length. -/
theorem length_of_bcastPayloadOk {P : List Byte} (h : bcastPayloadOk P = true) :
    5 ≤ P.length ∧ P.length = 5 + (byteAt P 4).toNat := by
  simp only [bcastPayloadOk, Bool.and_eq_true, decide_eq_true_eq, beq_iff_eq] at h
  obtain ⟨⟨⟨hheader, hlen⟩, -⟩, -⟩ := h
  exact ⟨hheader, hlen⟩

/-- R94: the byte count gives the payload's length. -/
theorem length_of_pollrspPayloadOk {P : List Byte} (h : pollrspPayloadOk P = true) :
    1 ≤ P.length ∧ P.length = 1 + (byteAt P 0).toNat := by
  simp only [pollrspPayloadOk, Bool.and_eq_true, decide_eq_true_eq, beq_iff_eq] at h
  obtain ⟨⟨⟨⟨hheader, hlen⟩, -⟩, -⟩, -⟩ := h
  exact ⟨hheader, hlen⟩

/-- A broadcast is given back, whatever its checksum field holds (R95). -/
theorem decodeRx_bcast {P : List Byte} (h : bcastPayloadOk P = true) (sum : Word) :
    decodeRx (rawFrame 0x00 0x10 P sum) = .ok (.bcast P sum) := by
  obtain ⟨hheader, hlen⟩ := length_of_bcastPayloadOk h
  have hcount : byteAt (rawFrame 0x00 0x10 P sum) 6 = byteAt P 4 := byteAt_rawFrame_payload (by omega) ..
  have hselect : 9 ≤ (rawFrame 0x00 0x10 P sum).length ∧ byteAt (rawFrame 0x00 0x10 P sum) 0 = 0x00 ∧
      byteAt (rawFrame 0x00 0x10 P sum) 1 = 0x10 ∧
      (rawFrame 0x00 0x10 P sum).length = 9 + (byteAt (rawFrame 0x00 0x10 P sum) 6).toNat := by
    rw [rawFrame_length, hcount]
    exact ⟨by omega, rfl, rfl, by omega⟩
  rw [decodeRx, if_pos hselect, slice_rawFrame, le16_rawFrame]

/-- A poll response is given back, whatever its checksum field holds (R94): its address is not a broadcast's. -/
theorem decodeRx_pollrsp {P : List Byte} (h : pollrspPayloadOk P = true) (sum : Word) :
    decodeRx (rawFrame 0x02 0x17 P sum) = .ok (.pollrsp P sum) := by
  obtain ⟨hheader, hlen⟩ := length_of_pollrspPayloadOk h
  have hcount : byteAt (rawFrame 0x02 0x17 P sum) 2 = byteAt P 0 := byteAt_rawFrame_payload hheader ..
  have hbcast : byteAt (rawFrame 0x02 0x17 P sum) 0 ≠ 0x00 := by simp [rawFrame, byteAt]
  have hselect : 5 ≤ (rawFrame 0x02 0x17 P sum).length ∧ byteAt (rawFrame 0x02 0x17 P sum) 0 = 0x02 ∧
      byteAt (rawFrame 0x02 0x17 P sum) 1 = 0x17 ∧
      (rawFrame 0x02 0x17 P sum).length = 5 + (byteAt (rawFrame 0x02 0x17 P sum) 2).toNat := by
    rw [rawFrame_length, hcount]
    exact ⟨by omega, rfl, rfl, by omega⟩
  rw [decodeRx, if_neg fun hb => hbcast hb.2.1, if_pos hselect, slice_rawFrame, le16_rawFrame]

/-- A poll request's read quantity (R93). -/
theorem be16_pollFrame_quantity (c : Cfg) (kind : PollKind) (a : Word) : be16 (pollFrame c kind a) 4 = readQty c kind :=
  joinBytes_hi_lo _

/-- A poll request's write data (R93). -/
theorem be16_pollFrame_action (c : Cfg) (kind : PollKind) (a : Word) : be16 (pollFrame c kind a) 11 = a :=
  joinBytes_hi_lo _

/-- R8, R93: a legal configuration's read quantities differ, and a request carries its own. -/
theorem pollFrame_cmd_ne_scan {c : Cfg} (hc : c.Legal) (a b : Word) :
    pollFrame c .commandPoll a ≠ pollFrame c .busScan b := by
  intro heq
  have hqty : c.readQtyPoll = c.readQtyScan := calc
    readQty c .commandPoll
    _ = be16 (pollFrame c .commandPoll a) 4 := (be16_pollFrame_quantity c .commandPoll a).symm
    _ = be16 (pollFrame c .busScan b) 4 := by rw [heq]
    _ = readQty c .busScan := be16_pollFrame_quantity c .busScan b
  obtain ⟨-, -, hlt, -⟩ := hc
  rw [hqty] at hlt
  exact lt_irrefl _ hlt

theorem decodeTx_scan (c : Cfg) (a : Word) : decodeTx c (pollFrame c .busScan a) = .ok (.pollreqScan a) := by
  rw [decodeTx, be16_pollFrame_action, if_pos rfl]

theorem decodeTx_cmd {c : Cfg} (hc : c.Legal) (a : Word) : decodeTx c (pollFrame c .commandPoll a) = .ok (.pollreqCmd a) := by
  rw [decodeTx, be16_pollFrame_action, if_neg (pollFrame_cmd_ne_scan hc a a), if_pos rfl]

/-- Outside the wire frames an encoded word holds its operands as they are (R96, R100, log 27). -/
theorem decode_encode {c : Cfg} {i : Instr} (hc : c.Legal) (hwf : wellFormed i = true) : decode c (encode c i) = .ok i := by
  cases i with
  | pollreqScan a => exact decodeTx_scan c a
  | pollreqCmd a => exact decodeTx_cmd hc a
  | bcast P sum =>
    obtain ⟨hpayload, -⟩ := Bool.and_eq_true_iff.mp hwf
    exact decodeRx_bcast hpayload sum
  | pollrsp P sum =>
    obtain ⟨hpayload, -⟩ := Bool.and_eq_true_iff.mp hwf
    exact decodeRx_pollrsp hpayload sum
  | uartTxchar act => cases act <;> rfl
  | uartRxchar act =>
    cases act with
    | osTick level => cases level <;> rfl
    | charErr framing => rfl
  | _ => rfl

/-- Settles O59: `decode_encode`, and the two received frames without their checksum's condition. -/
theorem decodeEncodeAgree : Obligations.DecodeEncodeAgree :=
  ⟨fun _ _ => decode_encode, fun _ _ sum => ⟨fun h => decodeRx_bcast h sum, fun h => decodeRx_pollrsp h sum⟩⟩

/-- Settles O60: the two frames are encoded words of S2 and V35; a host access is decoded by its offset and bits (R100). -/
theorem specWordsDecode : Obligations.SpecWordsDecode := by
  intro c
  have hs2 : bcastPayloadOk [0x9D, 0x31, 0x00, 0x09, 0x12, 0x00, 0x00, 0x00, 0x32, 0x01, 0x00, 0x00, 0x00, 0x00, 0x00,
      0x00, 0x00, 0x00, 0x10, 0x00, 0x00, 0x00, 0x00] = true := by decide
  have hv35 : pollrspPayloadOk [0x0A, 0x00, 0x00, 0x00, 0x00, 0x00, 0x10, 0x00, 0x00, 0x00, 0x00] = true := by decide
  exact ⟨decodeRx_bcast hs2 0xFA77, decodeRx_pollrsp hv35 0x86D0, rfl, rfl, rfl⟩

end Sys2Proof

/-! ### The CRC engine (40_crc_engine.md): CRC.UPDATE is injective in the accumulator and in the byte, and a zero residue is
the test of a frame -/

namespace Sys2Proof.Machine

/-- A bit of the accumulator after one bit of the serial engine (R127): its neighbour above, and the polynomial's bit where
the data bit differs from bit 0. -/
theorem crcSerialBit_getLsbD (c : Word) (d : Bool) (i : Nat) : (crcSerialBit c d).getLsbD i
    = (c.getLsbD (i + 1) ^^ ((c.getLsbD 0 ^^ d) && (0xA001 : Word).getLsbD i)) := by
  unfold crcSerialBit
  cases c.getLsbD 0 ^^ d <;> simp [Nat.add_comm]

/-- One iteration of R121's loop is one bit of R127 with no data. -/
theorem crcShift_eq_crcSerialBit (c : Word) : crcShift c = crcSerialBit c false := by
  rw [crcShift, crcSerialBit, Bool.xor_false]

theorem crcShift_getLsbD (c : Word) (i : Nat) :
    (crcShift c).getLsbD i = (c.getLsbD (i + 1) ^^ (c.getLsbD 0 && (0xA001 : Word).getLsbD i)) := by
  rw [crcShift_eq_crcSerialBit, crcSerialBit_getLsbD, Bool.xor_false]

theorem crcShift_of_bit_clear {c : Word} (h : c.getLsbD 0 = false) : crcShift c = c >>> 1 := by
  rw [crcShift, h, if_neg Bool.false_ne_true]

/-- The polynomial's top bit is set, so that bit 15 of a shifted accumulator tells which branch was taken. -/
theorem crcShift_injective : Function.Injective crcShift := by
  intro c d h
  have hbit (i : Nat) : (crcShift c).getLsbD i = (crcShift d).getLsbD i := by rw [h]
  simp only [crcShift_getLsbD] at hbit
  have hlow : c.getLsbD 0 = d.getLsbD 0 := by simpa [BitVec.getLsbD_of_ge] using hbit 15
  refine BitVec.eq_of_getLsbD_eq fun i _ => ?_
  cases i with
  | zero => exact hlow
  | succ i => exact Bool.xor_left_inj.mp (hlow ▸ hbit i)

/-- R121's loop is an iterate of its body. -/
theorem crcShifts_eq_iterate (n : Nat) (c : Word) : crcShifts n c = crcShift^[n] c := by
  induction n generalizing c with
  | zero => rfl
  | succ n ih => exact ih (crcShift c)

theorem crcShifts_succ (n : Nat) (c : Word) : crcShifts (n + 1) c = crcShift (crcShifts n c) := by
  simp only [crcShifts_eq_iterate, Function.iterate_succ_apply']

theorem crcShifts_injective (n : Nat) : Function.Injective (crcShifts n) := by
  rw [funext (crcShifts_eq_iterate n)]
  exact crcShift_injective.iterate n

theorem crcByte_injective_left (b : Byte) : Function.Injective (crcByte · b) := by
  intro c d h
  exact (BitVec.xor_left_inj _).mp (crcShifts_injective 8 h)

theorem crcByte_injective_right (c : Word) : Function.Injective (crcByte c) := by
  intro a b h
  have hwide : a.setWidth 16 = b.setWidth 16 := (BitVec.xor_right_inj _).mp (crcShifts_injective 8 h)
  simpa using congrArg (BitVec.setWidth 8) hwide

/-- Two accumulators that differ still differ after the same bytes. -/
theorem foldl_crcByte_injective (B : List Byte) : Function.Injective (B.foldl crcByte ·) := by
  induction B with
  | nil => exact Function.injective_id
  | cons b rest ih => exact ih.comp (crcByte_injective_left b)

/-- Replacing one byte by another changes the checksum. -/
theorem crc16_set_ne {B : List Byte} {i : Nat} {x : Byte} (hi : i < B.length) (hx : x ≠ B[i]) :
    crc16 (B.set i x) ≠ crc16 B := by
  intro h
  have hB : B = B.take i ++ B[i] :: B.drop (i + 1) := by simp
  rw [List.set_eq_take_append_cons_drop, if_pos hi] at h
  conv at h => rhs; rw [hB]
  rw [crc16_append, crc16_append] at h
  exact hx (crcByte_injective_right _ (foldl_crcByte_injective _ h))

/-- While the low bits are clear, R121's loop only shifts. -/
theorem crcShifts_of_low_clear {n : Nat} {c : Word} (h : ∀ i < n, c.getLsbD i = false) : crcShifts n c = c >>> n := by
  induction n with
  | zero => simp [crcShifts]
  | succ n ih =>
    have hlow : (c >>> n).getLsbD 0 = false := by simpa using h n n.lt_succ_self
    rw [crcShifts_succ, ih fun i hi => h i (by omega), crcShift_of_bit_clear hlow, ← BitVec.shiftRight_add]

/-- The accumulator's low byte cancels it, and the high byte moves down. -/
theorem crcByte_loByte (c : Word) : crcByte c (loByte c) = (hiByte c).setWidth 16 := by
  have hclear : ∀ i < 8, (c ^^^ (loByte c).setWidth 16).getLsbD i = false := by
    intro i hi
    simp [loByte, hi, show i < 16 by omega]
  rw [crcByte, crcShifts_of_low_clear hclear]
  refine BitVec.eq_of_getLsbD_eq fun i hi => ?_
  by_cases h8 : i < 8
  · simp [loByte, hiByte, h8, hi]
  · simp [loByte, hiByte, h8, BitVec.getLsbD_of_ge c (8 + i) (by omega)]

theorem crcByte_self (b : Byte) : crcByte (b.setWidth 16) b = 0 := by
  rw [crcByte, BitVec.xor_self]
  rfl

/-- An accumulator followed by its own two bytes, low byte first, leaves zero (R125). -/
theorem foldl_crcByte_own_bytes (c : Word) : [loByte c, hiByte c].foldl crcByte c = 0 := by
  simp only [List.foldl_cons, List.foldl_nil, crcByte_loByte, crcByte_self]

theorem crc16_append_own_checksum (B : List Byte) : crc16 (B ++ [loByte (crc16 B), hiByte (crc16 B)]) = 0 := by
  rw [crc16_append, foldl_crcByte_own_bytes]

/-- The two tests of a frame agree (R125): only one accumulator goes to zero on given last bytes. -/
theorem crc16_append_eq_zero_iff (B : List Byte) (lo hi : Byte) :
    crc16 (B ++ [lo, hi]) = 0 ↔ crc16 B = joinBytes hi lo := by
  have hzero : [lo, hi].foldl crcByte (joinBytes hi lo) = 0 := by simpa using foldl_crcByte_own_bytes (joinBytes hi lo)
  rw [crc16_append, ← hzero]
  exact (foldl_crcByte_injective [lo, hi]).eq_iff

/-- A frame is its bytes before the checksum field, and that field. -/
theorem take_append_checksum_bytes {F : List Byte} (h : 2 ≤ F.length) :
    F.take (F.length - 2) ++ [byteAt F (F.length - 2), byteAt F (F.length - 2 + 1)] = F := by
  have hlo : F.length - 2 < F.length := by omega
  have hhi : F.length - 2 + 1 < F.length := by omega
  have hend : F.drop (F.length - 2 + 1 + 1) = [] := List.drop_eq_nil_of_le (by omega)
  conv => rhs; rw [← F.take_append_drop (F.length - 2), List.drop_eq_getElem_cons hlo, List.drop_eq_getElem_cons hhi, hend]
  simp [byteAt, hlo, hhi]

/-- DECODE's test read as a residue (R125, R142). -/
theorem decodeFrame_of_residue_ne_zero {n : Nat} {F : List Byte} (hn : n ≤ F.length) (h2 : 2 ≤ F.length)
    (h : crc16 F ≠ 0) : decodeFrame n F = .checksumMismatch := by
  have hsum : crc16 (F.take (F.length - 2)) ≠ le16 F (F.length - 2) := by
    intro heq
    have hres := (crc16_append_eq_zero_iff _ _ _).mpr heq
    rw [take_append_checksum_bytes h2] at hres
    exact h hres
  rcases decodeFrame_cases n F with ⟨hlt, -⟩ | ⟨-, -, hmis⟩ | ⟨-, heq, -⟩
  · omega
  · exact hmis
  · exact absurd heq hsum

theorem crc16_frameBytes (a f : Byte) (P : List Byte) : crc16 (frameBytes a f P) = 0 :=
  crc16_append_own_checksum (a :: f :: P)

/-- Flipping a bit of a byte changes it. -/
theorem xor_bit_ne {j : Nat} (hj : j < 8) (b : Byte) : b ^^^ (1#8 <<< j) ≠ b := by
  intro h
  simpa [hj] using congrArg (BitVec.getLsbD · j) h

@[simp] theorem flipBit_length (F : List Byte) (i j : Nat) : (flipBit F i j).length = F.length := by simp [flipBit]

theorem crc16_flipBit_ne {F : List Byte} {i j : Nat} (hi : i < F.length) (hj : j < 8) :
    crc16 (flipBit F i j) ≠ crc16 F := by
  have hbyte : byteAt F i = F[i] := by simp [byteAt, hi]
  rw [flipBit, hbyte]
  exact crc16_set_ne hi (xor_bit_ne hj F[i])

/-- One iteration of R121 on an accumulator with data `d` entered is one of R127 with `d`'s bit 0, the rest of `d` still
to come. -/
theorem crcShift_xor (c d : Word) : crcShift (c ^^^ d) = crcSerialBit c (d.getLsbD 0) ^^^ (d >>> 1) := by
  refine BitVec.eq_of_getLsbD_eq fun i _ => ?_
  simp only [crcShift_getLsbD, crcSerialBit_getLsbD, BitVec.getLsbD_xor, BitVec.getLsbD_ushiftRight, Nat.add_comm 1 i]
  rw [Bool.xor_assoc, Bool.xor_assoc, Bool.xor_comm (d.getLsbD (i + 1))]

/-- After `n` bits the two engines differ by the bits of the byte that the bit-serial one has not taken yet (R127). -/
theorem crcShifts_xor_byte (n : Nat) (c : Word) (b : Byte) :
    crcShifts n (c ^^^ b.setWidth 16)
      = (List.range n).foldl (fun acc i => crcSerialBit acc (b.getLsbD i)) c ^^^ (b.setWidth 16 >>> n) := by
  induction n with
  | zero => simp [crcShifts]
  | succ n ih =>
    have hbit : (b.setWidth 16 >>> n).getLsbD 0 = b.getLsbD n := by
      simpa using fun hn => (BitVec.lt_of_getLsbD hn).trans (by decide)
    rw [crcShifts_succ, ih, crcShift_xor, hbit, List.range_succ, List.foldl_append, ← BitVec.shiftRight_add]
    rfl

/-- Settles O4: the outcomes of the updates follow the states of `crcRun_eq_updates`. -/
theorem crcOfBytesIsInitThenUpdates : Obligations.CrcOfBytesIsInitThenUpdates := by
  refine ⟨rfl, fun B s => ?_⟩
  refine (List.foldl_hom Host.Outcome.next (g₁ := fun t b => crcUpdate b t) (init := crcInit s) fun _ _ => rfl).trans ?_
  rw [← crcRun_eq_updates, crcRun]

/-- Settles O5: the residue of a sequence's own checksum, and that no other last bytes leave it. -/
theorem crcResidueIsZero : Obligations.CrcResidueIsZero :=
  fun B lo hi => ⟨crc16_append_own_checksum B, crc16_append_eq_zero_iff B lo hi⟩

/-- Settles O6: a flipped bit, in the checksum field or before it, leaves a residue other than a valid frame's zero. -/
theorem singleBitFlipIsDetected : Obligations.SingleBitFlipIsDetected := by
  refine ⟨fun m a f P i j hm hi hj => ?_, by decide +kernel⟩
  have hresidue : crc16 (flipBit (frameBytes a f P) i j) ≠ 0 := by
    rw [← crc16_frameBytes a f P]
    exact crc16_flipBit_ne (by simpa using hi) hj
  exact decodeFrame_of_residue_ne_zero (by simpa using hm) (by simp) hresidue

/-- Settles O7: after eight bits no bit of the byte is left. -/
theorem bitSerialCrcAgrees : Obligations.BitSerialCrcAgrees := by
  intro c b
  have hnone : b.setWidth 16 >>> 8 = 0#16 := by
    refine BitVec.eq_of_getLsbD_eq fun i _ => ?_
    simp
  rw [crcByte, crcShifts_xor_byte, hnone, BitVec.xor_zero, crcByteSerial]

/-- Settles O1: CRC.INIT is `crcInit`, one write. -/
theorem crcInitSeedsAccumulator : Obligations.CrcInitSeedsAccumulator := fun _ => rfl

/-- Settles O2: CRC.UPDATE is `crcUpdate`, and R121's loop the iterate of its body. -/
theorem crcUpdateRunsEightShifts : Obligations.CrcUpdateRunsEightShifts := by
  intro b s
  have hloop := crcShifts_eq_iterate 8 (s.crc ^^^ b.setWidth 16)
  calc
    exec (.crcUpdate b) s = .next { s with crc := crcShifts 8 (s.crc ^^^ b.setWidth 16) } := rfl
    _ = .next { s with crc := crcShift^[8] (s.crc ^^^ b.setWidth 16) } := by rw [hloop]

/-- Settles O3: CRC.READ returns the accumulator's two bytes (R10). -/
theorem crcReadReturnsBothBytes : Obligations.CrcReadReturnsBothBytes := fun _ => rfl

end Sys2Proof.Machine

/-! ### The frame codec (41_frame_codec.md): ENCODE, DECODE, one iteration of RX.SCAN, and the bound on the receive buffer -/

namespace Sys2Proof.Machine

/-! #### Reading inside a sequence (R11) -/

theorem byteAt_take {L k : Nat} (B : List Byte) (h : k < L) : byteAt (B.take L) k = byteAt B k := by
  simp [byteAt, h]

theorem byteAt_slice {i j k : Nat} (B : List Byte) (h : i + k < j) : byteAt (slice B i j) k = byteAt B (i + k) := by
  simp [byteAt, slice, h]

theorem be16_slice {i j k : Nat} (B : List Byte) (h : i + k + 1 < j) : be16 (slice B i j) k = be16 B (i + k) := by
  rw [be16, byteAt_slice B (by omega), byteAt_slice B (by omega), be16, Nat.add_assoc]

/-! #### DECODE, case by case (R142) -/

theorem decodeFrame_of_short {n : Nat} {F : List Byte} (h : F.length < n) : decodeFrame n F = .truncated := by
  rw [decodeFrame, if_pos h]

theorem decodeFrame_of_sum_ne {n : Nat} {F : List Byte} (hn : n ≤ F.length)
    (h : crc16 (F.take (F.length - 2)) ≠ le16 F (F.length - 2)) : decodeFrame n F = .checksumMismatch := by
  rw [decodeFrame, if_neg hn.not_gt, if_pos h]

theorem decodeFrame_of_sum_eq {n : Nat} {F : List Byte} (hn : n ≤ F.length)
    (h : crc16 (F.take (F.length - 2)) = le16 F (F.length - 2)) :
    decodeFrame n F
      = .frame ⟨byteAt F 0, byteAt F 1, slice F 2 (F.length - 2), crc16 (F.take (F.length - 2))⟩ := by
  rw [decodeFrame, if_neg hn.not_gt, if_neg (not_not_intro h)]

theorem decodeFrame_frameBytes {n : Nat} {P : List Byte} (h : n ≤ P.length + 4) (a f : Byte) :
    decodeFrame n (frameBytes a f P) = .frame ⟨a, f, P, crc16 (a :: f :: P)⟩ := by
  rw [frameBytes_eq_rawFrame, decodeFrame_rawFrame h, if_pos rfl]

theorem decodeRun_of_short {F : List Byte} {s : State} (h : F.length < s.cfg.minFrameLen) : decodeRun F s = s := by
  rw [decodeRun, if_pos h]

theorem decodeRun_of_long {F : List Byte} {s : State} (h : s.cfg.minFrameLen ≤ F.length) :
    decodeRun F s = crcRun (F.take (F.length - 2)) s := by
  rw [decodeRun, if_neg h.not_gt]

/-- DECODE used directly completes, and returns its result. -/
theorem execDecode_ret (F : List Byte) (s : State) :
    ∃ t, execDecode F s = .next t ∧ t.ret = .decoded (decodeFrame s.cfg.minFrameLen F) := by
  unfold execDecode
  cases decodeFrame s.cfg.minFrameLen F <;> exact ⟨_, rfl, rfl⟩

/-! #### `classify` (R145) -/

theorem classify_nil (c : Cfg) (phase : Phase) (kind : PollKind) : classify c phase kind [] = .needMore := by
  simp [classify, byteAt]

/-- A complete candidate is wholly in the buffer. It is a broadcast, of the length its byte count gives, or in
`AwaitingResponse` a response, of the length the poll in flight asks for (R97, R145). -/
theorem classify_complete_cases {c : Cfg} {phase : Phase} {kind : PollKind} {B : List Byte} {L : Nat}
    (h : classify c phase kind B = .complete L) :
    L ≤ B.length ∧
      ((byteAt B 0 = 0x00 ∧ (byteAt B 6).toNat ≤ 250 ∧ L = 9 + (byteAt B 6).toNat) ∨
        (byteAt B 0 = 0x02 ∧ phase = .awaiting ∧ L = 5 + 2 * (readQty c kind).toNat)) := by
  unfold classify at h
  dsimp only at h
  split_ifs at h with hbcast hfunction hcount hheader hdata hresponse
  · cases h
    exact ⟨by omega, .inl ⟨hbcast, by omega, rfl⟩⟩
  · cases h
    exact ⟨by omega, .inr ⟨hresponse.1, hresponse.2, rfl⟩⟩

/-- The read quantities of a legal configuration (R8, R312). -/
theorem readQty_bounds {c : Cfg} (hc : c.Legal) (kind : PollKind) :
    3 ≤ (readQty c kind).toNat ∧ (readQty c kind).toNat ≤ 127 := by
  cases kind <;> simp only [readQty] <;> omega

/-- A complete candidate is long enough for its fields and for DECODE, and at most the longest frame (R149). -/
theorem classify_complete_bounds {c : Cfg} {phase : Phase} {kind : PollKind} {B : List Byte} {L : Nat} (hc : c.Legal)
    (h : classify c phase kind B = .complete L) : 9 ≤ L ∧ c.minFrameLen ≤ L ∧ L ≤ 259 := by
  have hq := readQty_bounds hc kind
  obtain ⟨-, ⟨-, hcount, hL⟩ | ⟨-, -, hL⟩⟩ := classify_complete_cases h <;> omega

theorem length_take_of_complete {c : Cfg} {phase : Phase} {kind : PollKind} {B : List Byte} {L : Nat}
    (h : classify c phase kind B = .complete L) : (B.take L).length = L := by
  obtain ⟨hle, -⟩ := classify_complete_cases h
  exact List.length_take_of_le hle

theorem ne_nil_of_classify_ne_needMore {c : Cfg} {phase : Phase} {kind : PollKind} {B : List Byte}
    (h : classify c phase kind B ≠ .needMore) : B ≠ [] := by
  rintro rfl
  exact h (classify_nil c phase kind)

/-! #### RX.SCAN and what follows it, case by case (R146, R147) -/

/-- RX.SCAN is enabled unless the candidate is incomplete; an empty buffer is that too. -/
theorem scanEnabled_eq_true_iff {s : State} :
    scanEnabled s = true ↔ classify s.cfg s.phase s.curKind s.rxbuf ≠ .needMore := by
  simpa [scanEnabled] using fun h => ne_nil_of_classify_ne_needMore h

theorem rxScan_of_needMore {s : State} (h : classify s.cfg s.phase s.curKind s.rxbuf = .needMore) : rxScan s = s :=
  rxScan_of_not_scanEnabled (by simpa [h] using scanEnabled_eq_true_iff (s := s))

theorem rxScan_of_reject {s : State} (h : classify s.cfg s.phase s.curKind s.rxbuf = .reject) :
    rxScan s = { s with rxbuf := s.rxbuf.tail } := by
  obtain ⟨-, -, e⟩ | ⟨L, hL, -⟩ := rxScan_effect (s := s) (scanEnabled_eq_true_iff.mpr (by simp [h]))
  · rw [e, List.drop_one]
  · exact absurd (h.symm.trans hL) (by simp)

theorem rxScan_of_complete {s : State} {L : Nat} (h : classify s.cfg s.phase s.curKind s.rxbuf = .complete L) :
    rxScan s = judge (s.rxbuf.take L)
      { s with rxbuf := s.rxbuf.drop (consumed s.cfg.minFrameLen (s.rxbuf.take L)) } := by
  obtain ⟨hreject, -⟩ | ⟨M, hM, -, e⟩ := rxScan_effect (s := s) (scanEnabled_eq_true_iff.mpr (by simp [h]))
  · exact absurd (h.symm.trans hreject) (by simp)
  · cases h.symm.trans hM
    exact e

theorem consumed_of_sum_ne {n : Nat} {F : List Byte} (hn : n ≤ F.length)
    (h : crc16 (F.take (F.length - 2)) ≠ le16 F (F.length - 2)) : consumed n F = 1 := by
  rw [consumed, decodeFrame_of_sum_ne hn h]

theorem consumed_of_sum_eq {n : Nat} {F : List Byte} (hn : n ≤ F.length)
    (h : crc16 (F.take (F.length - 2)) = le16 F (F.length - 2)) : consumed n F = F.length := by
  rw [consumed, decodeFrame_of_sum_eq hn h]

/-- A bad checksum raises `ChecksumMismatch` with the candidate's first byte; a response's ends the transaction too (R146,
R210, R213). -/
theorem judge_of_sum_ne {F : List Byte} {s : State} (hn : s.cfg.minFrameLen ≤ F.length)
    (h : crc16 (F.take (F.length - 2)) ≠ le16 F (F.length - 2)) :
    let t := raiseError .checksumMismatch ((byteAt F 0).setWidth 16) { s with crc := crc16 (F.take (F.length - 2)) }
    judge F s = if byteAt F 0 = 0x02 then crcFail t else t := by
  rw [judge, decodeFrame_of_sum_ne hn h, decodeRun_of_long hn]
  rfl

/-- A frame with its checksum is delivered (R147). -/
theorem judge_of_sum_eq {F : List Byte} {s : State} (hn : s.cfg.minFrameLen ≤ F.length)
    (h : crc16 (F.take (F.length - 2)) = le16 F (F.length - 2)) :
    judge F s = deliver ⟨byteAt F 0, byteAt F 1, slice F 2 (F.length - 2), crc16 (F.take (F.length - 2))⟩ F
      { s with crc := crc16 (F.take (F.length - 2)) } := by
  rw [judge, decodeFrame_of_sum_eq hn h, decodeRun_of_long hn]
  rfl

/-- A candidate with a bad checksum loses its first byte (R146). -/
theorem rxScan_of_sum_ne {s : State} {L : Nat} {F : List Byte} (hc : s.cfg.Legal)
    (h : classify s.cfg s.phase s.curKind s.rxbuf = .complete L) (hF : F = s.rxbuf.take L)
    (hsum : crc16 (F.take (L - 2)) ≠ le16 F (L - 2)) :
    let t := raiseError .checksumMismatch ((byteAt F 0).setWidth 16)
      { s with crc := crc16 (F.take (L - 2)), rxbuf := s.rxbuf.tail }
    rxScan s = if byteAt F 0 = 0x02 then crcFail t else t := by
  obtain ⟨-, hmin, -⟩ := classify_complete_bounds hc h
  obtain rfl : F.length = L := hF ▸ length_take_of_complete h
  rw [rxScan_of_complete h, ← hF, consumed_of_sum_ne hmin hsum, List.drop_one]
  exact judge_of_sum_ne hmin hsum

/-- A candidate with its checksum is removed and delivered (R146, R147). -/
theorem rxScan_of_sum_eq {s : State} {L : Nat} {F : List Byte} (hc : s.cfg.Legal)
    (h : classify s.cfg s.phase s.curKind s.rxbuf = .complete L) (hF : F = s.rxbuf.take L)
    (hsum : crc16 (F.take (L - 2)) = le16 F (L - 2)) :
    rxScan s = deliver ⟨byteAt F 0, byteAt F 1, slice F 2 (L - 2), crc16 (F.take (L - 2))⟩ F
      { s with crc := crc16 (F.take (L - 2)), rxbuf := s.rxbuf.drop L } := by
  obtain ⟨-, hmin, -⟩ := classify_complete_bounds hc h
  obtain rfl : F.length = L := hF ▸ length_take_of_complete h
  rw [rxScan_of_complete h, ← hF, consumed_of_sum_eq hmin hsum]
  exact judge_of_sum_eq hmin hsum

/-- In `AwaitingResponse` a refused response ends the transaction (R210). -/
theorem crcFail_of_awaiting {s : State} (h : s.phase = .awaiting) : crcFail s = { s with phase := .timedOut } := by
  rw [crcFail, if_pos h]

/-- In `AwaitingResponse` a response is latched (R207). -/
theorem acceptResponse_of_awaiting {F : List Byte} {s : State} (h : s.phase = .awaiting) :
    acceptResponse F s = { s with rsp := F, phase := .completed } := by
  rw [acceptResponse, if_pos h]

/-- Only a response's candidate begins with the drive's address, and only in `AwaitingResponse` (R145, R147). -/
theorem awaiting_of_complete {c : Cfg} {phase : Phase} {kind : PollKind} {B : List Byte} {L : Nat}
    (h : classify c phase kind B = .complete L) (haddr : byteAt B 0 = 0x02) : phase = .awaiting := by
  obtain ⟨-, ⟨hzero, -⟩ | ⟨-, hphase, -⟩⟩ := classify_complete_cases h
  · exact absurd (hzero.symm.trans haddr) (by decide)
  · exact hphase

/-- R170: a status broadcast has the write address and the word count of one. -/
theorem header_of_broadcastOk {fr : Frame} (h : broadcastOk fr = true) :
    be16 fr.payload 0 = 0x9D31 ∧ be16 fr.payload 2 = 9 := by
  simp only [broadcastOk, Bool.and_eq_true, beq_iff_eq] at h
  obtain ⟨⟨⟨-, haddr⟩, hcount⟩, -⟩ := h
  exact ⟨haddr, hcount⟩

/-- A frame that is no status raises `MalformedStatus` with its write address (R175). -/
theorem statusDecoder_of_not_ok {fr : Frame} (h : broadcastOk fr ≠ true) (s : State) :
    statusDecoder fr s = raiseError .malformedStatus (be16 fr.payload 0) s := by
  rw [statusDecoder, if_neg h]

/-- Settles O12: the answers of `classify`, and on a complete candidate DECODE's result by its first byte. -/
theorem rxScanOneIteration : Obligations.RxScanOneIteration := by
  intro s hc answer
  refine ⟨fun hidle => ?_, fun hreject => congrArg _ (rxScan_of_reject hreject), fun L hL => ?_⟩
  · refine congrArg _ (rxScan_of_needMore ?_)
    obtain hempty | hmore := hidle
    · rw [hempty, classify_nil]
    · exact hmore
  intro F sum
  obtain ⟨hnine, -, -⟩ := classify_complete_bounds hc hL
  have hawaiting (haddr : byteAt F 0 = 0x02) : s.phase = .awaiting :=
    awaiting_of_complete hL ((byteAt_take _ (by omega)).symm.trans haddr)
  refine ⟨fun hsum haddr => ?_, fun hsum haddr => ?_, fun hsum haddr => ?_, fun hsum haddr hother => ?_⟩
    <;> refine congrArg Host.Outcome.next ?_
  · rw [rxScan_of_sum_ne hc hL rfl hsum, haddr]
    rfl
  · rw [rxScan_of_sum_ne hc hL rfl hsum, if_pos haddr, haddr]
    exact crcFail_of_awaiting (hawaiting haddr)
  · have hnot : byteAt F 0 ≠ 0x00 := by rw [haddr]; decide
    rw [rxScan_of_sum_eq hc hL rfl hsum, deliver, if_neg hnot, if_pos haddr]
    exact acceptResponse_of_awaiting (hawaiting haddr)
  · have hwrite : be16 (slice F 2 (L - 2)) 0 = be16 F 2 := be16_slice F (by omega)
    have hcount : be16 (slice F 2 (L - 2)) 2 = be16 F 4 := be16_slice F (by omega)
    have hbad : broadcastOk ⟨byteAt F 0, byteAt F 1, slice F 2 (L - 2), sum⟩ ≠ true := by
      intro hok
      obtain ⟨h1, h2⟩ := header_of_broadcastOk hok
      exact hother ⟨hwrite ▸ h1, hcount ▸ h2⟩
    rw [rxScan_of_sum_eq hc hL rfl hsum, deliver, if_pos haddr, statusDecoder_of_not_ok hbad, hwrite]
    rfl

theorem settle_cfg (s : State) : (settle s).cfg = s.cfg :=
  settle_keeps (P := fun t => t.cfg = s.cfg) (fun _ _ hchange ht => (cfg_of_change hchange).trans ht)
    (fun u _ _ hu => (completed_cfg u).trans hu) rfl

/-- Settles O14: `settle` ends where RX.SCAN is not enabled, and an incomplete candidate is shorter than a frame. -/
theorem settleBoundsReceiveBuffer : Obligations.SettleBoundsReceiveBuffer := by
  intro s hc
  have hbuffer : BufferIncomplete (settle s) := (resting_of_settled (settled_settle s)).buffer
  refine ⟨hbuffer, ?_, fun B L hL => ?_⟩
  · obtain hempty | hmore := hbuffer
    · simp [hempty]
    · exact length_le_of_needMore ((settle_cfg s).symm ▸ hc) hmore
  · obtain ⟨-, -, hmax⟩ := classify_complete_bounds hc hL
    exact hmax

/-! #### ENCODE (R140) -/

theorem execEncode_of_le {P : List Byte} (h : P.length ≤ 255) (a f : Byte) (s : State) :
    execEncode a f P s = .next { loadFrame a f P s with ret := .encoded (some (frameBytes a f P)) } := by
  rw [execEncode, if_pos h]

theorem execEncode_of_gt {P : List Byte} (h : 255 < P.length) (a f : Byte) (s : State) :
    execEncode a f P s = .next { s with ret := .encoded none } := by
  rw [execEncode, if_neg h.not_ge]

/-- Settles O8: the frame is written at the front of `txbuf`, and a written sequence reads back. -/
theorem encodeLoadsFrame : Obligations.EncodeLoadsFrame := by
  intro a f P s hwf
  refine ⟨fun hP => ?_, fun hP => execEncode_of_gt hP a f s⟩
  intro sum F
  have hlen : F.length = P.length + 4 := frameBytes_length a f P
  refine ⟨memWrite s.txbuf 0 F, ?_, ?_, fun k hk => ?_⟩
  · refine (execEncode_of_le hP a f s).trans ?_
    rw [← hlen]
    rfl
  · rw [← hlen]
    exact memRead_memWrite F 0 hwf
  · exact read_memWrite_other F 0 k hwf (.inr (by omega))

/-- Settles O10: both kinds of frame end in their own checksum, and DECODE of such a frame is `decodeFrame_frameBytes`. -/
theorem encodeDecodeRoundTrip : Obligations.EncodeDecodeRoundTrip := by
  intro s hc
  have hmin : 4 ≤ s.cfg.minFrameLen ∧ s.cfg.minFrameLen ≤ 5 := by omega
  refine ⟨fun a f P hpos hP => ?_, fun B hB => ?_, fun B hB => ?_⟩
  · obtain ⟨u, hu, hret⟩ := execDecode_ret (frameBytes a f P)
      { loadFrame a f P s with ret := .encoded (some (frameBytes a f P)) }
    refine ⟨_, u, frameBytes a f P, execEncode_of_le hP a f s, rfl, hu, hret.trans ?_⟩
    rw [loadFrame_cfg, decodeFrame_frameBytes (by omega)]
  · match B with
    | [] | [_] => simp only [List.length_cons, List.length_nil] at hB; omega
    | a :: f :: P =>
      obtain ⟨u, hu, hret⟩ := execDecode_ret (frameBytes a f P) s
      rw [decodeFrame_frameBytes (by simpa using hB)] at hret
      exact ⟨u, _, hu, hret, rfl⟩
  · obtain ⟨u, hu, hret⟩ := execDecode_ret (B ++ [loByte (crc16 B), hiByte (crc16 B)]) s
    rw [decodeFrame_of_short (by simpa using hB)] at hret
    exact ⟨u, hu, hret⟩

/-- Settles O9: the three cases of DECODE. -/
theorem decodeJudgesLengthThenChecksum : Obligations.DecodeJudgesLengthThenChecksum := by
  intro F s n sum
  refine ⟨fun hshort => ?_, fun hlong hsum => ?_, fun hlong hsum => ?_⟩
  · rw [exec, execDecode, decodeFrame_of_short hshort, decodeRun_of_short hshort]
    rfl
  · rw [exec, execDecode, decodeFrame_of_sum_ne hlong hsum, decodeRun_of_long hlong]
    rfl
  · rw [exec, execDecode, decodeFrame_of_sum_eq hlong hsum, decodeRun_of_long hlong]
    rfl

/-! #### RX.PUSH (R144, R148) and TX.NEXT (R150) -/

theorem rxPush_of_de_false {s : State} (h : s.de = false) (b : Byte) :
    rxPush b s = { s with rxbuf := s.rxbuf ++ [b] } := by
  rw [rxPush, h, if_neg Bool.false_ne_true]

theorem rxPush_of_de_true {s : State} (h : s.de = true) (b : Byte) : rxPush b s = s := by
  rw [rxPush, if_pos h]

/-- Settles O11: RX.PUSH looks at `de` alone. -/
theorem rxPushAppendsUnlessTransmitting : Obligations.RxPushAppendsUnlessTransmitting :=
  fun b _ => ⟨fun hde => congrArg _ (rxPush_of_de_false hde b), fun hde => congrArg _ (rxPush_of_de_true hde b)⟩

theorem execTxNext_of_ready {s : State} (h : txReady s = true) :
    execTxNext s = .next { giveNext s with ret := .nextByte (some (nextTxByte s)) } := by
  rw [execTxNext, if_pos h]

theorem execTxNext_of_not_ready {s : State} (h : txReady s ≠ true) :
    execTxNext s = .next { s with ret := .nextByte none } := by
  rw [execTxNext, if_neg h]

/-- Settles O15: the transmitter is ready under the three hypotheses, and not where no byte is left. -/
theorem txNextGivesNextByte : Obligations.TxNextGivesNextByte := by
  refine fun s => ⟨fun hphase hfree hleft => ?_, fun hnone => ?_⟩
  · exact execTxNext_of_ready (by simp [txReady, hphase, hfree, hleft])
  · exact execTxNext_of_not_ready fun hready => (txidx_lt_of_txReady hready).not_ge hnone

end Sys2Proof.Machine

/-! ### Status, polls and host calls (42_status_action.md): the broadcast judged and published, the poll response
parsed, the poll requests, the slot and the host reads -/

namespace Sys2Proof.Machine

/-! #### Register values (R12, R68) -/

/-- A register value is two bytes of the register data (R12). -/
theorem wordsOf_getD : ∀ (D : List Byte) (i : Nat), 2 * i + 1 < D.length → (wordsOf D).getD i 0 = be16 D (2 * i)
  | hi :: lo :: rest, 0, _ => rfl
  | hi :: lo :: rest, i + 1, h => by
    simp only [List.length_cons] at h
    exact wordsOf_getD rest i (by omega)
  | [_], _, h => by simp at h
  | [], _, h => by simp at h

/-! #### The configuration's maps (R172, R173) -/

theorem posMap_of_le {v : Word} (h : v.toNat ≤ 200) (c : Cfg) : (posMap c v).toNat = v.toNat := by
  rw [posMap, if_pos h, loByte, BitVec.extractLsb'_toNat, Nat.shiftRight_zero]
  exact Nat.mod_eq_of_lt (by omega)

/-- Settles O19: the fixed point of STATE_MAP is its first branch; `posMap_le` and `posMap_of_le` say the rest. -/
theorem statusMapsRespectFixedPoints : Obligations.StatusMapsRespectFixedPoints :=
  fun c v => ⟨if_pos rfl, posMap_le c v, fun h => posMap_of_le h c⟩

/-! #### Publication (R174, R182, R281) -/

theorem emitWake_of_fresh {s : State} (h : Out.wake ∉ s.events) :
    emitWake s = { s with events := s.events ++ if s.cfg.hasWake = true then [.wake] else [] } := by
  unfold emitWake
  by_cases hwake : s.cfg.hasWake = true
  · rw [if_pos ⟨hwake, h⟩, if_pos hwake]
    rfl
  · rw [if_neg fun hboth => hwake hboth.1, if_neg hwake, List.append_nil]

/-- Publication in a step without a wake so far: the status is written, and a new state wakes. -/
theorem publish_of_fresh {s : State} (h : Out.wake ∉ s.events) (st : DriveStatus) :
    publish st s = { s with
      status := st
      events := s.events ++ if s.cfg.hasWake = true ∧ st.state ≠ s.status.state then [.wake] else [] } := by
  unfold publish
  by_cases hstate : st.state = s.status.state
  · rw [if_pos hstate, if_neg fun hboth => hboth.2 hstate, List.append_nil]
  · rw [if_neg hstate, emitWake_of_fresh (s := { s with status := st }) h]
    simp only [ne_eq, hstate, not_false_eq_true, and_true]

/-! #### A broadcast frame that arrives whole (R170 to R175, log 22) -/

theorem be16_rawFrame_payload {P : List Byte} {k : Nat} (h : k + 1 < P.length) (a f : Byte) (sum : Word) :
    be16 (rawFrame a f P sum) (k + 2) = be16 P k := by
  rw [be16, byteAt_rawFrame_payload (by omega), Nat.add_right_comm, byteAt_rawFrame_payload h, be16]

theorem bcastPayloadOk_iff {P : List Byte} : bcastPayloadOk P = true ↔
    5 ≤ P.length ∧ P.length = 5 + (byteAt P 4).toNat ∧ (byteAt P 4).toNat ≤ 250 ∧
      (byteAt P 4).toNat = 2 * (be16 P 2).toNat := by
  simp [bcastPayloadOk, and_assoc]

/-- When `classify` finds a whole broadcast (R95, R97, R145). -/
theorem classify_broadcast_iff {B : List Byte} (haddress : byteAt B 0 = 0x00) (hfunction : byteAt B 1 = 0x10) (c : Cfg)
    (phase : Phase) (kind : PollKind) (L : Nat) :
    classify c phase kind B = .complete L ↔ 9 + (byteAt B 6).toNat ≤ B.length ∧ (byteAt B 6).toNat ≤ 250 ∧
      (byteAt B 6).toNat = 2 * (be16 B 4).toNat ∧ L = 9 + (byteAt B 6).toNat := by
  simp only [classify, haddress, hfunction, if_true, ne_eq, not_true_eq_false, and_false, if_false]
  split_ifs <;> simp only [Candidate.complete.injEq, false_iff] <;> omega

/-- A broadcast frame is a complete candidate exactly when its header fits its length. -/
theorem classify_bcast_iff (c : Cfg) (phase : Phase) (kind : PollKind) (P : List Byte) (sum : Word) :
    let F := rawFrame 0x00 0x10 P sum
    classify c phase kind F = .complete F.length ↔ bcastPayloadOk P = true := by
  intro F
  have hlen : F.length = P.length + 4 := rawFrame_length 0x00 0x10 P sum
  rw [classify_broadcast_iff rfl rfl, bcastPayloadOk_iff, hlen]
  by_cases hheader : 5 ≤ P.length
  · have hcount : byteAt F 6 = byteAt P 4 := byteAt_rawFrame_payload hheader ..
    have hquantity : be16 F 4 = be16 P 2 := be16_rawFrame_payload (by omega) ..
    rw [hcount, hquantity]
    omega
  · omega

theorem exec_bcast_of_sending {s : State} (h : s.phase = .sending) (P : List Byte) (sum : Word) :
    exec (.bcast P sum) s = .next s := by
  rw [exec, execBcast, if_pos h]

theorem exec_bcast_of_not_ok {P : List Byte} {s : State} (hphase : s.phase ≠ .sending) (hok : bcastPayloadOk P = false)
    (sum : Word) : exec (.bcast P sum) s = .next s := by
  have hcandidate := (classify_bcast_iff s.cfg s.phase s.curKind P sum).not.mpr (Bool.eq_false_iff.mp hok)
  rw [exec, execBcast, if_neg hphase, if_neg hcandidate]

theorem exec_bcast_of_ok {P : List Byte} {s : State} (hphase : s.phase ≠ .sending) (hok : bcastPayloadOk P = true)
    (sum : Word) : exec (.bcast P sum) s = .next (judge (rawFrame 0x00 0x10 P sum) s) := by
  rw [exec, execBcast, if_neg hphase, if_pos ((classify_bcast_iff ..).mpr hok)]

/-- A broadcast's frame is long enough for DECODE under every legal configuration (R142, R312). -/
theorem minFrameLen_le_bcast {c : Cfg} {P : List Byte} (hc : c.Legal) (hok : bcastPayloadOk P = true) (sum : Word) :
    c.minFrameLen ≤ (rawFrame 0x00 0x10 P sum).length := by
  obtain ⟨hheader, -⟩ := length_of_bcastPayloadOk hok
  rw [rawFrame_length]
  omega

/-- An error raised after the accumulator has run: the whole state (R284). -/
theorem raiseError_crc_eq (kind : ErrorKind) (info sum : Word) (s : State) :
    raiseError kind info { s with crc := sum } = { s with crc := sum, events := s.events ++ [.err kind info] } := rfl

/-- A wrong checksum on a broadcast raises `ChecksumMismatch` with its address (R213). -/
theorem exec_bcast_of_sum_ne {P : List Byte} {sum : Word} {s : State} (hc : s.cfg.Legal) (hphase : s.phase ≠ .sending)
    (hok : bcastPayloadOk P = true) (hsum : sum ≠ crc16 (0x00 :: 0x10 :: P)) :
    exec (.bcast P sum) s
      = .next (raiseError .checksumMismatch 0x0000 { s with crc := crc16 (0x00 :: 0x10 :: P) }) := by
  have hdiffer := hsum.symm
  rw [← take_rawFrame 0x00 0x10 P sum] at hdiffer
  rw [exec_bcast_of_ok hphase hok,
    judge_of_sum_ne (minFrameLen_le_bcast hc hok sum) (by rwa [le16_rawFrame]), take_rawFrame]
  rfl

/-- A broadcast with its checksum goes to the StatusDecoder (R147, R170). -/
theorem exec_bcast_of_sum_eq {P : List Byte} {s : State} (hc : s.cfg.Legal) (hphase : s.phase ≠ .sending)
    (hok : bcastPayloadOk P = true) :
    let sum := crc16 (0x00 :: 0x10 :: P)
    exec (.bcast P sum) s = .next (statusDecoder ⟨0x00, 0x10, P, sum⟩ { s with crc := sum }) := by
  intro sum
  have hgood : crc16 ((rawFrame 0x00 0x10 P sum).take ((rawFrame 0x00 0x10 P sum).length - 2))
      = le16 (rawFrame 0x00 0x10 P sum) ((rawFrame 0x00 0x10 P sum).length - 2) := by
    rw [take_rawFrame, le16_rawFrame]
  rw [exec_bcast_of_ok hphase hok, judge_of_sum_eq (minFrameLen_le_bcast hc hok sum) hgood, take_rawFrame, slice_rawFrame]
  rfl

/-- Settles O16: the four fates of a broadcast frame that is no status. -/
theorem broadcastFrameIsJudged : Obligations.BroadcastFrameIsJudged := by
  intro P sum s hc good
  refine ⟨fun hphase => exec_bcast_of_sending hphase P sum, fun hphase hok => exec_bcast_of_not_ok hphase hok sum,
    fun hphase hok hsum => ?_, ?_⟩
  · rw [exec_bcast_of_sum_ne hc hphase hok hsum, raiseError_crc_eq]
  · rintro hphase hok rfl hother
    have hbad : broadcastOk ⟨0x00, 0x10, P, crc16 (0x00 :: 0x10 :: P)⟩ ≠ true :=
      mt header_of_broadcastOk hother
    rw [exec_bcast_of_sum_eq hc hphase hok, statusDecoder_of_not_ok hbad, raiseError_crc_eq]

/-- A frame that is a status publishes registers 1 and 2, mapped (R171 to R174). -/
theorem statusDecoder_of_ok {fr : Frame} (h : broadcastOk fr = true) (s : State) :
    let x := broadcastWords fr.payload
    statusDecoder fr s = publish ⟨posMap s.cfg (x.getD 1 0), stateMap s.cfg (x.getD 2 0)⟩ s := by
  rw [statusDecoder, if_pos h]

/-- Settles O17: the header passes both checks, and the nine registers are the data's. -/
theorem broadcastPublishesStatus : Obligations.BroadcastPublishesStatus := by
  intro D s hc hphase hlen hfresh P st
  have hlenP : P.length = 23 := by simp [P, hlen]
  have hwrite : be16 P 0 = 0x9D31 := (by decide : joinBytes 0x9D 0x31 = 0x9D31)
  have hquantity : be16 P 2 = 0x0009 := (by decide : joinBytes 0x00 0x09 = 0x0009)
  have hcount : byteAt P 4 = 0x12 := rfl
  have hcandidate : bcastPayloadOk P = true := bcastPayloadOk_iff.mpr (by rw [hlenP, hquantity, hcount]; decide)
  have hstatus : broadcastOk ⟨0x00, 0x10, P, crc16 (0x00 :: 0x10 :: P)⟩ = true := by
    simp [broadcastOk, hlenP, hwrite, hquantity, hcount]
  have hwords : broadcastWords P = wordsOf D := congrArg wordsOf (List.take_of_length_le hlen.le)
  refine (exec_bcast_of_sum_eq hc hphase hcandidate).trans ?_
  rw [statusDecoder_of_ok hstatus, hwords, wordsOf_getD D 1 (by omega), wordsOf_getD D 2 (by omega),
    publish_of_fresh (s := { s with crc := crc16 (0x00 :: 0x10 :: P) }) hfresh]

/-! #### The poll response (R180 to R182) -/

/-- The register data of a response of the expected length (R94, R180). -/
theorem responseWords_rawFrame {q : Word} {D : List Byte} (h : D.length = 2 * q.toNat) (bc : Byte) (sum : Word) :
    responseWords q (rawFrame 0x02 0x17 (bc :: D) sum) = wordsOf D :=
  congrArg wordsOf (List.take_left' h)

/-- The action event (R181), written out: a CommandPoll, and register 2 present and not zero. -/
theorem driveAction_eq (kind : PollKind) (x : List Word) (s : State) :
    driveAction kind x s = { s with
      events := s.events ++ if kind = .commandPoll ∧ x.getD 2 0 ≠ 0 then [.drvAction (x.getD 2 0)] else [] } := by
  cases kind with
  | busScan => simp [driveAction]
  | commandPoll =>
    rw [List.getD_eq_getElem?_getD]
    cases hx : x[2]? with
    | none => simp [driveAction, hx]
    | some v =>
      simp only [driveAction, hx, Option.getD_some, true_and]
      split <;> simp [emit, *]

/-- The embedded status (R182), in a step without a wake so far: where POLL_STATUS gives none, the status stands. -/
theorem embeddedStatus_of_fresh {s : State} (h : Out.wake ∉ s.events) (kind : PollKind) (x : List Word) :
    let st := (pollStatus s.cfg kind x).getD s.status
    embeddedStatus kind x s = { s with
      status := st
      events := s.events ++ if s.cfg.hasWake = true ∧ st.state ≠ s.status.state then [.wake] else [] } := by
  unfold embeddedStatus
  cases pollStatus s.cfg kind x with
  | none => simp
  | some st => exact publish_of_fresh h st

/-- Settles O20: the action event is no wake, so the embedded status still finds the step without one. -/
theorem pollResponseIsParsed : Obligations.PollResponseIsParsed := by
  intro bc D sum s hphase hlen hfresh x st
  have hparse : exec (.pollrsp (bc :: D) sum) s = .next (parseResponse (rawFrame 0x02 0x17 (bc :: D) sum) s) := by
    simp only [exec, execPollrsp, hphase]
  have hquiet : Out.wake ∉ (driveAction s.curKind x s).events := by
    rw [driveAction_eq]
    simp only [List.mem_append, hfresh, false_or]
    split_ifs <;> simp
  rw [hparse, parseResponse, responseWords_rawFrame hlen, embeddedStatus_of_fresh hquiet, driveAction_eq]

/-! #### The poll requests (R185) -/

/-- A loaded poll request reads back, and `txbuf` past it stands (R61, R185). -/
theorem memWrite_pollFrame {m : Memory} (h : Memory.wf m = true) (c : Cfg) (kind : PollKind) (a : Word) :
    memRead (memWrite m 0 (pollFrame c kind a)) 0 15 = pollFrame c kind a ∧
      ∀ k, 15 ≤ k → Memory.read (memWrite m 0 (pollFrame c kind a)) k = Memory.read m k :=
  ⟨memRead_memWrite (pollFrame c kind a) 0 h, fun k hk =>
    read_memWrite_other (pollFrame c kind a) 0 k h (.inr (by simpa))⟩

/-- BUILD_POLL, and the frame returned: the whole effect of a poll request of either kind. -/
theorem buildPoll_eq (kind : PollKind) (a : Word) (s : State) :
    { buildPoll kind a s with ret := .encoded (some (pollFrame s.cfg kind a)) } = { s with
      crc := crc16 (0x02 :: 0x17 :: pollPayload s.cfg kind a)
      txbuf := memWrite s.txbuf 0 (pollFrame s.cfg kind a)
      txlen := 15
      txidx := 0
      ret := .encoded (some (pollFrame s.cfg kind a)) } := by
  simp only [buildPoll, loadFrame, crcRun, pollFrame, frameBytes_length, pollPayload_length]

/-- Settles O22: the fifteen bytes are `pollFrame` of either kind, written out. -/
theorem pollRequestBytes : Obligations.PollRequestBytes := by
  intro a s hwf body frame
  exact ⟨⟨_, congrArg Host.Outcome.next (buildPoll_eq .busScan a s), memWrite_pollFrame hwf s.cfg .busScan a⟩,
    ⟨_, congrArg Host.Outcome.next (buildPoll_eq .commandPoll a s), memWrite_pollFrame hwf s.cfg .commandPoll a⟩⟩

/-! #### The host calls (R190 to R192) -/

theorem pending_iff (slot : Word) : pending slot = true ↔ slot ≠ 0 := bne_iff_ne

/-- Settles O23: ENQUEUE is one write, of a slot it does not read. -/
theorem enqueueOverwritesSlot : Obligations.EnqueueOverwritesSlot := fun x _ _ => ⟨rfl, rfl, pending_iff x⟩

/-! The fields of the STATUS word (R35), from the least significant. -/

theorem statusWordOf_position (b : Bool) (st : DriveStatus) : (statusWordOf b st).extractLsb' 0 8 = st.position :=
  BitVec.extractLsb'_append_eq_right

theorem statusWordOf_state (b : Bool) (st : DriveStatus) : (statusWordOf b st).extractLsb' 8 3 = doorCode st.state :=
  (BitVec.extractLsb'_append_eq_of_le (by decide)).trans BitVec.extractLsb'_append_eq_right

theorem statusWordOf_connected (b : Bool) (st : DriveStatus) : (statusWordOf b st).getLsbD 11 = b := by
  have hbit : (statusWordOf b st).extractLsb' 11 1 = BitVec.ofBool b :=
    (BitVec.extractLsb'_append_eq_of_le (by decide)).trans <|
      (BitVec.extractLsb'_append_eq_of_le (by decide)).trans BitVec.extractLsb'_append_eq_right
  simpa using congrArg (BitVec.getLsbD · 0) hbit

theorem statusWordOf_reserved (b : Bool) (st : DriveStatus) : (statusWordOf b st).extractLsb' 12 4 = 0 :=
  (BitVec.extractLsb'_append_eq_of_le (by decide)).trans <|
    (BitVec.extractLsb'_append_eq_of_le (by decide)).trans BitVec.extractLsb'_append_eq_left

/-- Settles O24: both calls record one read of the STATUS word, whose fields are the snapshot's. -/
theorem hostReadsReturnSnapshot : Obligations.HostReadsReturnSnapshot := fun s =>
  ⟨rfl, rfl, statusWordOf_position s.connected s.status, statusWordOf_state s.connected s.status,
    statusWordOf_connected s.connected s.status, statusWordOf_reserved s.connected s.status⟩

end Sys2Proof.Machine

/-! ### The scheduler (43_scheduler.md): its transitions one by one (R201 to R211), the frames a drive sends (R207 to R214),
the phases (R200), and whole runs of `settle` (R217) -/

namespace Sys2Proof.Machine

/-! #### The transitions, where they are taken and where they are not -/

/-- T.MSTICK in the words of R201: both counters stop at 0. -/
theorem msTick_eq (s : State) : msTick s = { s with
    cadenceTimer := if s.cadenceTimer = 0 then 0 else s.cadenceTimer - 1
    respTimer := if s.phase = .awaiting ∧ s.respTimer ≠ 0 then s.respTimer - 1 else s.respTimer } := by
  have hresp : (if s.phase = .awaiting then countDown s.respTimer else s.respTimer)
      = if s.phase = .awaiting ∧ s.respTimer ≠ 0 then s.respTimer - 1 else s.respTimer := by
    unfold countDown
    split_ifs <;> simp_all
  rw [msTick, hresp, countDown]

/-- Settles O25: `msTick_eq`. -/
theorem msTickCountsDown : Obligations.MsTickCountsDown := fun s => congrArg Host.Outcome.next (msTick_eq s)

/-- A poll scans exactly while the flag that its policy reads is down (R203). -/
theorem busScan_iff_flag_down (flag : Bool) :
    (if flag then PollKind.commandPoll else .busScan) = .busScan ↔ flag = false := by
  cases flag <;> simp

/-- Settles O26: `FirstTickOnly` reads `first_sent`, the other two policies read `scan_done`. -/
theorem nextPollKindByPolicy : Obligations.NextPollKindByPolicy := by
  intro s
  refine ⟨fun hpolicy => ?_, fun hpolicy => ?_, fun hpolicy => ?_⟩
  · rw [nextKind, hpolicy]
    exact busScan_iff_flag_down s.firstSent
  · rw [nextKind, hpolicy]
    exact busScan_iff_flag_down s.scanDone
  · rw [nextKind, hpolicy]
    exact busScan_iff_flag_down s.scanDone

/-- The checksum of a poll request runs over its first thirteen bytes (R93). -/
theorem take_pollFrame (c : Cfg) (kind : PollKind) (a : Word) :
    (pollFrame c kind a).take 13 = 0x02 :: 0x17 :: pollPayload c kind a := rfl

/-- Settles O27: `tick_effect`, and the poll reads back from the buffer it was written to. -/
theorem tickSendsPollAndClearsSlot : Obligations.TickSendsPollAndClearsSlot := by
  intro s hphase hcadence hwf k F
  refine ⟨memWrite s.txbuf 0 F, ?_, memWrite_pollFrame hwf s.cfg k s.actionSlot⟩
  rw [take_pollFrame]
  exact congrArg Host.Outcome.next (tick_effect hphase hcadence)

theorem tick_of_not_enabled {s : State} (h : ¬(s.phase = .idle ∧ s.cadenceTimer = 0)) : tick s = s := by
  rw [tick, if_neg h]

theorem txDone_of_sending {s : State} (h : s.phase = .sending) : txDone s = { s with
    de := false, respTimer := s.cfg.responseTimeoutMs, phase := .awaiting, events := s.events ++ [.de false] } := by
  rw [txDone, if_pos h]
  rfl

theorem txDone_of_not_sending {s : State} (h : s.phase ≠ .sending) : txDone s = s := by
  rw [txDone, if_neg h]

/-- Settles O28: T.TXDONE looks at the phase alone. -/
theorem txDoneStartsWaiting : Obligations.TxDoneStartsWaiting :=
  fun _ => ⟨fun h => congrArg _ (txDone_of_sending h), fun h => congrArg _ (txDone_of_not_sending h)⟩

/-- Settles O29: T.RSP in its phase. -/
theorem responseIsLatched : Obligations.ResponseIsLatched := fun _ _ h => congrArg _ (acceptResponse_of_awaiting h)

theorem acceptResponse_of_not_awaiting {F : List Byte} {s : State} (h : s.phase ≠ .awaiting) :
    acceptResponse F s = s := by
  rw [acceptResponse, if_neg h]

theorem timeout_of_expired {s : State} (h : s.phase = .awaiting) (h0 : s.respTimer = 0) :
    timeout s = { s with phase := .timedOut, events := s.events ++ [.err .responseTimeout 0] } := by
  rw [timeout, if_pos ⟨h, h0⟩]
  rfl

theorem timeout_of_not_expired {s : State} (h : ¬(s.phase = .awaiting ∧ s.respTimer = 0)) : timeout s = s := by
  rw [timeout, if_neg h]

theorem crcFail_of_not_awaiting {s : State} (h : s.phase ≠ .awaiting) : crcFail s = s := by
  rw [crcFail, if_neg h]

/-- Settles O31: T.TIMEOUT raises its error, and T.CRCFAIL leaves the raising to its caller. -/
theorem timeoutAndChecksumEndTransaction : Obligations.TimeoutAndChecksumEndTransaction :=
  fun _ h => ⟨fun h0 => congrArg _ (timeout_of_expired h h0), congrArg _ (crcFail_of_awaiting h)⟩

/-- R33, R211: the saturating increment is `min(n + 1, 255)`. -/
theorem satInc_eq (n : BitVec 8) : satInc n = BitVec.ofNat 8 (min (n.toNat + 1) 255) := by
  unfold satInc
  split
  · simp [*]
  · have hmin : min (n.toNat + 1) 255 = n.toNat + 1 := by bv_omega
    rw [hmin, BitVec.ofNat_add, BitVec.ofNat_toNat, BitVec.setWidth_eq]
    rfl

/-- At the threshold T.TIMEDOUT disconnects, and a falling flag wakes (R211, R281). -/
theorem timedOut_of_threshold {s : State} (h : s.phase = .timedOut) (hfresh : Out.wake ∉ s.events)
    (hn : s.cfg.timeoutThreshold.toNat ≤ (satInc s.timeoutCnt).toNat) : timedOut s = { s with
      timeoutCnt := satInc s.timeoutCnt, connected := false, phase := .idle
      scanDone := if s.cfg.scanPolicy = .rescanOnDisconnect then false else s.scanDone
      events := s.events ++ (if s.cfg.hasWake = true ∧ s.connected = true then [.wake] else []) } := by
  rw [timedOut, if_pos h]
  dsimp only
  rw [if_pos hn]
  cases hconnected : s.connected with
  | false => simp
  | true =>
    rw [if_pos rfl]
    refine Eq.trans (emitWake_of_fresh ?_) ?_
    · exact hfresh
    · simp only [and_true]

theorem timedOut_of_below_threshold {s : State} (h : s.phase = .timedOut)
    (hn : (satInc s.timeoutCnt).toNat < s.cfg.timeoutThreshold.toNat) :
    timedOut s = { s with timeoutCnt := satInc s.timeoutCnt, phase := .idle } := by
  rw [timedOut, if_pos h]
  exact if_neg hn.not_ge

theorem timedOut_of_not_timedOut {s : State} (h : s.phase ≠ .timedOut) : timedOut s = s := by
  rw [timedOut, if_neg h]

/-- Settles O32: T.TIMEDOUT on either side of the threshold. -/
theorem timedOutCountsAndDisconnects : Obligations.TimedOutCountsAndDisconnects := by
  intro s hfresh n
  have hcount : satInc s.timeoutCnt = n := satInc_eq s.timeoutCnt
  rw [← hcount]
  exact ⟨fun h hn => congrArg _ (timedOut_of_threshold h hfresh hn),
    fun h hn => congrArg _ (timedOut_of_below_threshold h hn)⟩

theorem completed_of_not_completed {s : State} (h : s.phase ≠ .completed) : completed s = s := by
  rw [completed, if_neg h]

/-- Settles O33: the six transitions, each where its guard is false. -/
theorem falseGuardChangesNothing : Obligations.FalseGuardChangesNothing :=
  fun _ _ => ⟨fun h => congrArg _ (tick_of_not_enabled h), fun h => congrArg _ (acceptResponse_of_not_awaiting h),
    fun h => congrArg _ (completed_of_not_completed h), fun h => congrArg _ (timeout_of_not_expired h),
    fun h => congrArg _ (crcFail_of_not_awaiting h), fun h => congrArg _ (timedOut_of_not_timedOut h)⟩

/-! #### T.COMPLETED (R208) -/

/-- The parser on the bytes of a response of the expected length: what O20 says of POLLRSP, which is the parser in
`Completed`. -/
theorem parseResponse_rawFrame {D : List Byte} {s : State} (hphase : s.phase = .completed)
    (hlen : D.length = 2 * (readQty s.cfg s.curKind).toNat) (hfresh : Out.wake ∉ s.events) (bc : Byte) (sum : Word) :
    let x := wordsOf D
    let st := (pollStatus s.cfg s.curKind x).getD s.status
    parseResponse (rawFrame 0x02 0x17 (bc :: D) sum) s = { s with
      status := st
      events := s.events
        ++ (if s.curKind = .commandPoll ∧ x.getD 2 0 ≠ 0 then [.drvAction (x.getD 2 0)] else [])
        ++ (if s.cfg.hasWake = true ∧ st.state ≠ s.status.state then [.wake] else []) } := by
  have hparser : exec (.pollrsp (bc :: D) sum) s = .next (parseResponse (rawFrame 0x02 0x17 (bc :: D) sum) s) := by
    simp only [exec, execPollrsp, hphase]
  exact Host.Outcome.next.inj (hparser.symm.trans (pollResponseIsParsed bc D sum s hphase hlen hfresh))

/-- A second cause of a wake adds nothing to the first (R281, "Several causes in one step give one pulse"). -/
theorem emitWake_after_wakeIf {s : State} {evs : List Out} {cause : Prop} [Decidable cause] (h : Out.wake ∉ evs)
    (hev : s.events = evs ++ if s.cfg.hasWake = true ∧ cause then [.wake] else []) :
    emitWake s = { s with events := evs ++ if s.cfg.hasWake = true then [.wake] else [] } := by
  unfold emitWake
  by_cases hwake : s.cfg.hasWake = true
  · by_cases hcause : cause
    · have hold : s.events = evs ++ [.wake] := by simp [hev, hwake, hcause]
      rw [if_neg fun hboth => hboth.2 (by simp [hold]), if_pos hwake, ← hold]
    · have hnew : s.events = evs := by simpa [hcause] using hev
      rw [if_pos ⟨hwake, hnew ▸ h⟩, if_pos hwake, emit, hnew]
  · have hnew : s.events = evs := by simpa [hwake] using hev
    rw [if_neg fun hboth => hwake hboth.1, if_neg hwake, List.append_nil, ← hnew]

/-- The parser may have woken for a new state; T.COMPLETED wakes for that or for a new connection (R208, R281). -/
theorem completed_of_parse {s : State} {st : DriveStatus} {evs : List Out} (hphase : s.phase = .completed)
    (hquiet : Out.wake ∉ evs)
    (hparse : parseResponse s.rsp s = { s with
      status := st
      events := evs ++ if s.cfg.hasWake = true ∧ st.state ≠ s.status.state then [.wake] else [] }) :
    completed s = { s with
      status := st, timeoutCnt := 0, connected := true, scanDone := true, phase := .idle
      events := evs
        ++ if s.cfg.hasWake = true ∧ (s.connected = false ∨ st.state ≠ s.status.state) then [.wake] else [] } := by
  rw [completed, if_pos hphase, hparse]
  dsimp only
  by_cases hnotable : s.connected = false ∨ st.state ≠ s.status.state
  · rw [if_pos hnotable, emitWake_after_wakeIf hquiet rfl]
    simp only [hnotable, and_true]
  · obtain ⟨-, hstate⟩ := not_or.mp hnotable
    rw [if_neg hnotable, if_neg fun hboth => hstate hboth.2, if_neg fun hboth => hnotable hboth.2]

/-- Settles O30: the parser's outputs but its wake are those that T.COMPLETED finds. -/
theorem completedConnects : Obligations.CompletedConnects := by
  intro bc D sum s hphase hrsp hlen hfresh x st
  have hparse := (congrArg (parseResponse · s) hrsp).trans (parseResponse_rawFrame hphase hlen hfresh bc sum)
  refine congrArg Host.Outcome.next (completed_of_parse hphase ?_ hparse)
  simp only [List.mem_append, hfresh, false_or]
  split_ifs <;> simp

/-! #### The frames a drive sends (R207, R210, R212, R214) -/

theorem judge_of_short {F : List Byte} {s : State} (h : F.length < s.cfg.minFrameLen) : judge F s = s := by
  rw [judge, decodeFrame_of_short h, decodeRun_of_short h]

/-- A broadcast's judgement reaches the accumulator, the status and the outputs only (R212, R213). -/
theorem judge_broadcast_effect {F : List Byte} (h : byteAt F 0 = 0x00) (s : State) :
    ∃ c st ev, judge F s = { s with crc := c, status := st, events := ev } := by
  obtain ⟨hshort, -⟩ | ⟨hlong, hsum, -⟩ | ⟨hlong, hsum, -⟩ := decodeFrame_cases s.cfg.minFrameLen F
  · exact ⟨_, _, _, judge_of_short hshort⟩
  · have hnot : byteAt F 0 ≠ 0x02 := by rw [h]; decide
    exact ⟨_, _, _, (judge_of_sum_ne hlong hsum).trans (if_neg hnot)⟩
  · rw [judge_of_sum_eq hlong hsum, deliver, if_pos h]
    obtain ⟨-, st, ev, e, -⟩ | ⟨-, e⟩ := statusDecoder_effect
      ⟨byteAt F 0, byteAt F 1, slice F 2 (F.length - 2), crc16 (F.take (F.length - 2))⟩
      { s with crc := crc16 (F.take (F.length - 2)) }
    · exact ⟨_, _, _, e⟩
    · exact ⟨_, _, _, e⟩

/-- Whatever it holds, a broadcast reaches the accumulator, the status and the outputs only. -/
theorem exec_bcast_effect (P : List Byte) (sum : Word) (s : State) :
    ∃ c st ev, exec (.bcast P sum) s = .next { s with crc := c, status := st, events := ev } := by
  by_cases hphase : s.phase = .sending
  · exact ⟨s.crc, s.status, s.events, exec_bcast_of_sending hphase P sum⟩
  cases hok : bcastPayloadOk P with
  | false => exact ⟨s.crc, s.status, s.events, exec_bcast_of_not_ok hphase hok sum⟩
  | true =>
    obtain ⟨c, st, ev, e⟩ := judge_broadcast_effect (F := rawFrame 0x00 0x10 P sum) rfl s
    exact ⟨c, st, ev, (exec_bcast_of_ok hphase hok sum).trans (congrArg _ e)⟩

/-- Settles O18: what a broadcast reaches is none of these registers. -/
theorem broadcastLeavesSchedulerAlone : Obligations.BroadcastLeavesSchedulerAlone := by
  intro P sum s t hexec
  obtain ⟨c, st, ev, e⟩ := exec_bcast_effect P sum s
  cases e.symm.trans hexec
  exact ⟨⟨rfl, rfl, rfl, rfl, rfl, rfl, rfl, rfl, rfl, rfl, rfl⟩, rfl, rfl, rfl, rfl, rfl, rfl, rfl, fun _ => rfl⟩

/-- When `classify` finds a whole response in `AwaitingResponse` (R94, R97, R145). -/
theorem classify_response_iff {B : List Byte} (haddress : byteAt B 0 = 0x02) (hfunction : byteAt B 1 = 0x17) (c : Cfg)
    (kind : PollKind) (L : Nat) :
    let q := (readQty c kind).toNat
    classify c .awaiting kind B = .complete L ↔
      (byteAt B 2).toNat = 2 * q ∧ 5 + 2 * q ≤ B.length ∧ L = 5 + 2 * q := by
  have hzero : ¬(0x02 : Byte) = 0x00 := by decide
  simp only [classify, haddress, hfunction, hzero, and_self, if_true, ne_eq, not_true_eq_false, and_false, if_false]
  split_ifs <;> simp only [Candidate.complete.injEq, false_iff] <;> omega

/-- A response frame answers the poll in flight exactly when its byte count and its data have the expected length. -/
theorem classify_pollrsp_iff (c : Cfg) (kind : PollKind) (bc : Byte) (D : List Byte) (sum : Word) :
    let F := rawFrame 0x02 0x17 (bc :: D) sum
    let q := (readQty c kind).toNat
    classify c .awaiting kind F = .complete F.length ↔ bc.toNat = 2 * q ∧ D.length = 2 * q := by
  intro F q
  have hlen : F.length = D.length + 5 := rawFrame_length 0x02 0x17 (bc :: D) sum
  have hcount : byteAt F 2 = bc := rfl
  refine (classify_response_iff rfl rfl c kind F.length).trans ?_
  rw [hlen, hcount]
  omega

theorem exec_pollrsp_of_not_answer {bc : Byte} {D : List Byte} {s : State} (hphase : s.phase = .awaiting)
    (h : bc.toNat ≠ 2 * (readQty s.cfg s.curKind).toNat) (sum : Word) : exec (.pollrsp (bc :: D) sum) s = .next s := by
  have hcandidate := (classify_pollrsp_iff s.cfg s.curKind bc D sum).not.mpr fun hanswer => h hanswer.1
  simp only [exec, execPollrsp, hphase]
  exact if_neg hcandidate

theorem exec_pollrsp_of_answer {bc : Byte} {D : List Byte} {s : State} (hphase : s.phase = .awaiting)
    (hcount : bc.toNat = 2 * (readQty s.cfg s.curKind).toNat) (hlen : D.length = 2 * (readQty s.cfg s.curKind).toNat)
    (sum : Word) : exec (.pollrsp (bc :: D) sum) s = .next (judge (rawFrame 0x02 0x17 (bc :: D) sum) s) := by
  have hcandidate := (classify_pollrsp_iff s.cfg s.curKind bc D sum).mpr ⟨hcount, hlen⟩
  simp only [exec, execPollrsp, hphase]
  exact if_pos hcandidate

/-- A response is long enough for DECODE under every legal configuration (R142, R312). -/
theorem minFrameLen_le_pollrsp {c : Cfg} (hc : c.Legal) (bc : Byte) (D : List Byte) (sum : Word) :
    c.minFrameLen ≤ (rawFrame 0x02 0x17 (bc :: D) sum).length := by
  rw [rawFrame_length, List.length_cons]
  omega

/-- A frame from the drive goes to T.RSP (R147). -/
theorem deliver_of_drive {fr : Frame} (h : fr.address = 0x02) (F : List Byte) (s : State) :
    deliver fr F s = acceptResponse F s := by
  have hnot : ¬fr.address = 0x00 := by rw [h]; decide
  rw [deliver, if_neg hnot, if_pos h]

/-- The checksum that DECODE compares with the field of a raw frame (R142). -/
theorem sum_iff_rawFrame (a f : Byte) (P : List Byte) (sum : Word) :
    let F := rawFrame a f P sum
    crc16 (F.take (F.length - 2)) = le16 F (F.length - 2) ↔ sum = crc16 (a :: f :: P) := by
  intro F
  rw [take_rawFrame, le16_rawFrame, eq_comm]

/-- A response with its checksum is latched (R147, R207). -/
theorem judge_response {bc : Byte} {D : List Byte} {s : State} (hc : s.cfg.Legal) (hphase : s.phase = .awaiting) :
    judge (frameBytes 0x02 0x17 (bc :: D)) s = { s with
      crc := crc16 (0x02 :: 0x17 :: bc :: D), rsp := frameBytes 0x02 0x17 (bc :: D), phase := .completed } := by
  rw [frameBytes_eq_rawFrame,
    judge_of_sum_eq (minFrameLen_le_pollrsp hc bc D _) ((sum_iff_rawFrame 0x02 0x17 (bc :: D) _).mpr rfl),
    take_rawFrame, deliver_of_drive rfl,
    acceptResponse_of_awaiting (s := { s with crc := crc16 (0x02 :: 0x17 :: bc :: D) }) hphase]

/-- A response with a wrong checksum raises `ChecksumMismatch` and ends the transaction (R210). -/
theorem judge_response_of_sum_ne {bc : Byte} {D : List Byte} {sum : Word} {s : State} (hc : s.cfg.Legal)
    (hphase : s.phase = .awaiting) (hsum : sum ≠ crc16 (0x02 :: 0x17 :: bc :: D)) :
    judge (rawFrame 0x02 0x17 (bc :: D) sum) s = { s with
      crc := crc16 (0x02 :: 0x17 :: bc :: D)
      events := s.events ++ [.err .checksumMismatch 0x0002]
      phase := .timedOut } := by
  have haddress : byteAt (rawFrame 0x02 0x17 (bc :: D) sum) 0 = 0x02 := rfl
  have hinfo : (0x02 : Byte).setWidth 16 = (0x0002 : Word) := by decide
  rw [judge_of_sum_ne (minFrameLen_le_pollrsp hc bc D sum) ((sum_iff_rawFrame 0x02 0x17 (bc :: D) sum).not.mpr hsum),
    take_rawFrame, if_pos haddress, haddress, hinfo, raiseError_crc_eq, crcFail, if_pos (by exact hphase)]

/-- Settles O21: `classify` tells an answer from other frames, and its checksum decides. -/
theorem pollResponseIsAwaited : Obligations.PollResponseIsAwaited := by
  intro bc D sum s hc q good
  refine ⟨?_, fun hphase hcount hlen hsum => ?_, fun hphase hcount => exec_pollrsp_of_not_answer hphase hcount sum,
    fun hawaiting hcompleted => ?_⟩
  · rintro hphase hcount hlen rfl
    rw [exec_pollrsp_of_answer hphase hcount hlen, ← frameBytes_eq_rawFrame, judge_response hc hphase]
  · rw [exec_pollrsp_of_answer hphase hcount hlen, judge_response_of_sum_ne hc hphase hsum]
  · rw [exec, execPollrsp]
    cases hphase : s.phase with
    | awaiting => exact absurd hphase hawaiting
    | completed => exact absurd hphase hcompleted
    | _ => rfl

/-- Outside `AwaitingResponse` the drive's address starts no candidate (R145, R214). -/
theorem classify_response_of_not_awaiting {phase : Phase} (h : phase ≠ .awaiting) (c : Cfg) (kind : PollKind)
    (rest : List Byte) : classify c phase kind (0x02 :: rest) = .reject := by
  have haddress : byteAt (0x02 :: rest) 0 = 0x02 := rfl
  have hzero : ¬(0x02 : Byte) = 0x00 := by decide
  rw [classify, haddress, if_neg hzero, if_neg fun hresponse => h hresponse.2]

/-- Settles O34: a rejected candidate loses its first byte and nothing else happens. -/
theorem strayResponseIsDropped : Obligations.StrayResponseIsDropped := by
  intro rest s hphase hrxbuf
  have hreject : classify s.cfg s.phase s.curKind s.rxbuf = .reject :=
    hrxbuf ▸ classify_response_of_not_awaiting hphase s.cfg s.curKind rest
  have hscan := rxScan_of_reject hreject
  rw [hrxbuf] at hscan
  exact ⟨hreject, congrArg _ hscan⟩

/-! #### The phases (R200) -/

/-- The phase stays, or moves along one edge of the scheduler. -/
abbrev PhaseStep (s t : State) : Prop := t.phase = s.phase ∨ phaseEdge s.phase t.phase = true

theorem ControlSame.phaseStep {s t : State} (h : ControlSame s t) : PhaseStep s t := .inl h.phase

/-- A judged candidate is latched, ends the transaction, or does not touch the phase (R207, R210). -/
theorem phaseStep_judge (F : List Byte) (s : State) : PhaseStep s (judge F s) := by
  obtain ⟨c, st, ev, -, e | ⟨hp, e⟩ | ⟨hp, e⟩⟩ := judge_effect F s
  · exact .inl (by rw [e])
  · exact .inr (by rw [e, hp]; rfl)
  · exact .inr (by rw [e, hp]; rfl)

theorem phaseStep_rxScan (s : State) : PhaseStep s (rxScan s) := by
  cases hscan : scanEnabled s with
  | false => exact .inl (by rw [rxScan_of_not_scanEnabled hscan])
  | true =>
    obtain ⟨-, -, e⟩ | ⟨L, -, -, e⟩ := rxScan_effect hscan
    · exact .inl (by rw [e])
    · rw [e]
      exact phaseStep_judge _ { s with rxbuf := _ }

theorem phaseStep_tick (s : State) : PhaseStep s (tick s) := by
  by_cases h : s.phase = .idle ∧ s.cadenceTimer = 0
  · exact .inr (by rw [tick_effect h.1 h.2, h.1]; rfl)
  · exact .inl (by rw [tick_of_not_enabled h])

theorem phaseStep_txDone (s : State) : PhaseStep s (txDone s) := by
  by_cases h : s.phase = .sending
  · exact .inr (by rw [txDone_of_sending h, h]; rfl)
  · exact .inl (by rw [txDone_of_not_sending h])

theorem phaseStep_acceptResponse (F : List Byte) (s : State) : PhaseStep s (acceptResponse F s) := by
  by_cases h : s.phase = .awaiting
  · exact .inr (by rw [acceptResponse_of_awaiting h, h]; rfl)
  · exact .inl (by rw [acceptResponse_of_not_awaiting h])

theorem phaseStep_completed (s : State) : PhaseStep s (completed s) := by
  by_cases h : s.phase = .completed
  · exact .inr (by rw [completed_phase h, h]; rfl)
  · exact .inl (by rw [completed_of_not_completed h])

theorem phaseStep_timeout (s : State) : PhaseStep s (timeout s) := by
  by_cases h : s.phase = .awaiting ∧ s.respTimer = 0
  · exact .inr (by rw [timeout_of_expired h.1 h.2, h.1]; rfl)
  · exact .inl (by rw [timeout_of_not_expired h])

theorem phaseStep_crcFail (s : State) : PhaseStep s (crcFail s) := by
  by_cases h : s.phase = .awaiting
  · exact .inr (by rw [crcFail_of_awaiting h, h]; rfl)
  · exact .inl (by rw [crcFail_of_not_awaiting h])

theorem phaseStep_timedOut (s : State) : PhaseStep s (timedOut s) := by
  by_cases h : s.phase = .timedOut
  · obtain ⟨ev, ⟨-, e⟩ | ⟨-, e⟩⟩ := timedOut_effect h <;> exact .inr (by rw [e, h]; rfl)
  · exact .inl (by rw [timedOut_of_not_timedOut h])

theorem phaseStep_txBitTick (s : State) : PhaseStep s (txBitTick s) := by
  unfold txBitTick
  split_ifs
  · exact .inl rfl
  · exact .inl rfl
  · exact .inl rfl
  · exact phaseStep_txDone { s with uart := { s.uart with txBitsLeft := 0, uartTx := true } }

theorem phaseStep_of_exec_bcast {P : List Byte} {sum : Word} {s t : State} (h : exec (.bcast P sum) s = .next t) :
    PhaseStep s t := by
  obtain ⟨c, st, ev, e⟩ := exec_bcast_effect P sum s
  cases e.symm.trans h
  exact .inl rfl

theorem phaseStep_of_exec_pollrsp {P : List Byte} {sum : Word} {s t : State} (h : exec (.pollrsp P sum) s = .next t) :
    PhaseStep s t := by
  simp only [exec, execPollrsp] at h
  split at h
  · cases h
    obtain ⟨st, ev, e, -⟩ := parseResponse_effect (rawFrame 0x02 0x17 P sum) s
    exact .inl (by rw [e])
  · split at h
    · cases h
      exact phaseStep_judge _ s
    · cases h
      exact .inl rfl
  all_goals
    cases h
    exact .inl rfl

/-- An operation that loads a frame leaves the phase alone (R140, R185). -/
theorem phase_of_exec_encode {a f : Byte} {P : List Byte} {s t : State} (h : exec (.encode a f P) s = .next t) :
    t.phase = s.phase := by
  simp only [exec, execEncode] at h
  split at h <;> cases h <;> rfl

theorem phase_of_exec_decode {F : List Byte} {s t : State} (h : exec (.decode F) s = .next t) : t.phase = s.phase := by
  simp only [exec, execDecode] at h
  split at h <;> cases h <;> exact decodeRun_phase F s

theorem phase_of_exec_txNext {s t : State} (h : exec .txNext s = .next t) : t.phase = s.phase := by
  simp only [exec, execTxNext] at h
  split at h <;> cases h <;> rfl

theorem phase_of_exec_uartBaud {s t : State} (h : exec .uartBaud s = .next t) : t.phase = s.phase := by
  simp only [exec, execUartBaud] at h
  cases h
  split <;> rfl

theorem phaseStep_of_exec_uartTxchar {act : TxAct} {s t : State} (h : exec (.uartTxchar act) s = .next t) :
    PhaseStep s t := by
  cases act with
  | load d =>
    cases h
    split <;> exact .inl rfl
  | bitTick =>
    cases h
    exact phaseStep_txBitTick s

/-- Settles O35: operation by operation. -/
theorem phaseMovesAlongEdges : Obligations.PhaseMovesAlongEdges := by
  intro i s t hreset h
  cases i with
  | encode a f P => exact .inl (phase_of_exec_encode h)
  | decode F => exact .inl (phase_of_exec_decode h)
  | rxPush b => cases h; exact (controlSame_rxPush b s).phaseStep
  | rxScan => cases h; exact phaseStep_rxScan s
  | txNext => exact .inl (phase_of_exec_txNext h)
  | pollrsp P sum => exact phaseStep_of_exec_pollrsp h
  | bcast P sum => exact phaseStep_of_exec_bcast h
  | tTick => cases h; exact phaseStep_tick s
  | tTxdone => cases h; exact phaseStep_txDone s
  | tRsp F => cases h; exact phaseStep_acceptResponse F s
  | tCompleted => cases h; exact phaseStep_completed s
  | tTimeout => cases h; exact phaseStep_timeout s
  | tCrcfail => cases h; exact phaseStep_crcFail s
  | tTimedout => cases h; exact phaseStep_timedOut s
  | uartBaud => exact .inl (phase_of_exec_uartBaud h)
  | uartTxchar act => exact phaseStep_of_exec_uartTxchar h
  | uartRxchar act =>
    cases act with
    | osTick level => cases h; exact (controlSame_rxTick level s).phaseStep
    | charErr framing => cases h; exact (controlSame_rxCharError framing s).phaseStep
  | reset => exact absurd rfl hreset
  | _ => cases h; exact .inl rfl

/-! #### Whole runs of `settle` (R217) -/

/-- Settles O36: the bound of `settle` is more than the lines it can take. -/
theorem settleReachesQuietState : Obligations.SettleReachesQuietState := settled_settle

/-- Any two bounds that suffice give the same run. -/
theorem settleFor_eq_of_measure_lt {n m : Nat} {s : State} (hn : settleMeasure s < n) (hm : settleMeasure s < m) :
    settleFor n s = settleFor m s := by
  induction n generalizing m s with
  | zero => exact absurd hn (Nat.not_lt_zero _)
  | succ n ih =>
    cases m with
    | zero => exact absurd hm (Nat.not_lt_zero _)
    | succ m =>
      unfold settleFor
      cases hline : settleLine s with
      | none => rfl
      | some t =>
        have hlt := settleMeasure_lt_of_settleLine hline
        exact ih (by omega) (by omega)

/-- `settle` takes the first enabled line and goes on from there (R217). -/
theorem settle_of_settleLine {s t : State} (h : settleLine s = some t) : settle s = settle t := by
  have htake : settle s = settleFor (s.rxbuf.length + 3) t := by
    rw [settle, settleFor, h]
  have hlt := settleMeasure_lt_of_settleLine h
  have hbound := settleMeasure_lt s
  rw [htake]
  exact settleFor_eq_of_measure_lt (by omega) (settleMeasure_lt t)

theorem settleLine_of_completed {s : State} (h : s.phase = .completed) : settleLine s = some (completed s) := by
  rw [settleLine, if_pos h]

theorem settleLine_of_timedOut {s : State} (h : s.phase = .timedOut) : settleLine s = some (timedOut s) := by
  have hnot : s.phase ≠ .completed := by simp [h]
  rw [settleLine, if_neg hnot, if_pos h]

/-- In `AwaitingResponse` a candidate that RX.SCAN can take comes before the response timer (R217, R283 (b)). -/
theorem settleLine_of_awaiting_scan {s : State} (h : s.phase = .awaiting) (hscan : scanEnabled s = true) :
    settleLine s = some (rxScan s) := by
  simp [settleLine, h, hscan]

theorem settleLine_of_awaiting_expired {s : State} (h : s.phase = .awaiting) (hscan : scanEnabled s = false)
    (h0 : s.respTimer = 0) : settleLine s = some (timeout s) := by
  simp [settleLine, h, hscan, h0]

/-- Between polls, with an empty buffer, the machine waits for the cadence (R202, R217). -/
theorem settle_of_idle {s : State} (h : s.phase = .idle) (hrxbuf : s.rxbuf = []) (hcadence : s.cadenceTimer ≠ 0) :
    settle s = s :=
  settle_of_settled <| settled_iff.mpr
    ⟨by simp [h], by simp [h], by simp [scanEnabled, hrxbuf], by simp [h], fun hboth => hcadence hboth.2⟩

/-! The errors that `settle`'s lines raise (R271). -/

theorem errorsOf_append (A B : List Out) : errorsOf (A ++ B) = errorsOf A ++ errorsOf B := by
  induction A with
  | nil => rfl
  | cons o A ih => cases o <;> simp [errorsOf, ih]

theorem mem_errorsOf_iff {k : ErrorKind} {i : Word} {A : List Out} : ⟨k, i⟩ ∈ errorsOf A ↔ Out.err k i ∈ A := by
  induction A with
  | nil => simp [errorsOf]
  | cons o A ih => cases o <;> simp [errorsOf, ih]

/-- No outputs added, or a wake. -/
theorem errorsOf_of_wake {A B : List Out} (h : B = A ∨ B = A ++ [.wake]) : errorsOf B = errorsOf A := by
  obtain rfl | rfl := h
  · rfl
  · simp [errorsOf_append, errorsOf]

theorem errorsOf_emitWake (s : State) : errorsOf (emitWake s).events = errorsOf s.events := by
  obtain ⟨ev, e, hev⟩ := emitWake_effect s
  rw [e]
  exact errorsOf_of_wake hev

theorem errorsOf_publish (st : DriveStatus) (s : State) : errorsOf (publish st s).events = errorsOf s.events := by
  obtain ⟨ev, e, hev⟩ := publish_effect st s
  rw [e]
  exact errorsOf_of_wake hev

theorem errorsOf_driveAction (kind : PollKind) (x : List Word) (s : State) :
    errorsOf (driveAction kind x s).events = errorsOf s.events := by
  obtain ⟨ev, e, rfl | ⟨v, -, -, -, rfl⟩⟩ := driveAction_effect kind x s
  · rw [e]
  · simp [e, errorsOf_append, errorsOf]

theorem errorsOf_parseResponse (rsp : List Byte) (s : State) :
    errorsOf (parseResponse rsp s).events = errorsOf s.events := by
  unfold parseResponse embeddedStatus
  dsimp only
  split
  · exact errorsOf_driveAction _ _ s
  · exact (errorsOf_publish _ _).trans (errorsOf_driveAction _ _ s)

/-- T.COMPLETED raises no error (R208). -/
theorem errorsOf_completed (s : State) : errorsOf (completed s).events = errorsOf s.events := by
  have hparse := errorsOf_parseResponse s.rsp s
  unfold completed
  dsimp only
  split_ifs
  · exact (errorsOf_emitWake _).trans hparse
  · exact hparse
  · rfl

/-- T.TIMEDOUT raises no error: T.TIMEOUT or its caller has (R209 to R211). -/
theorem errorsOf_timedOut (s : State) : errorsOf (timedOut s).events = errorsOf s.events := by
  unfold timedOut
  dsimp only
  split
  · split
    · split
      · exact errorsOf_emitWake _
      · rfl
    · rfl
  · rfl

theorem errorsOf_endStep (before s : State) : errorsOf (endStep before s).events = errorsOf s.events := by
  unfold endStep
  split
  · rfl
  · simp [errorsOf_append, errorsOf]

/-- RX.SCAN on a buffer that holds just the response awaited (R146, R207). -/
theorem rxScan_of_response {bc : Byte} {D : List Byte} {s : State} (hc : s.cfg.Legal) (hphase : s.phase = .awaiting)
    (hcount : bc.toNat = 2 * (readQty s.cfg s.curKind).toNat) (hlen : D.length = 2 * (readQty s.cfg s.curKind).toNat)
    (hrxbuf : s.rxbuf = frameBytes 0x02 0x17 (bc :: D)) :
    classify s.cfg s.phase s.curKind s.rxbuf = .complete s.rxbuf.length ∧ rxScan s = { s with
      crc := crc16 (0x02 :: 0x17 :: bc :: D), rxbuf := [], rsp := frameBytes 0x02 0x17 (bc :: D), phase := .completed } := by
  have hcomplete : classify s.cfg s.phase s.curKind s.rxbuf = .complete s.rxbuf.length := by
    rw [hphase, hrxbuf, frameBytes_eq_rawFrame]
    exact (classify_pollrsp_iff s.cfg s.curKind bc D _).mpr ⟨hcount, hlen⟩
  have hconsumed : consumed s.cfg.minFrameLen s.rxbuf = s.rxbuf.length := by
    rw [hrxbuf, frameBytes_eq_rawFrame]
    exact consumed_of_sum_eq (minFrameLen_le_pollrsp hc bc D _) ((sum_iff_rawFrame 0x02 0x17 (bc :: D) _).mpr rfl)
  refine ⟨hcomplete, ?_⟩
  rw [rxScan_of_complete hcomplete, List.take_length, hconsumed, List.drop_length, hrxbuf]
  exact judge_response (s := { s with rxbuf := [] }) hc hphase

/-- Settles O37: RX.SCAN latches the response, T.COMPLETED ends the transaction, and nothing is left to take. -/
theorem responseBeatsTimeout : Obligations.ResponseBeatsTimeout := by
  intro bc D s hc hphase _ hcadence hcount hlen hrxbuf hnone t
  obtain ⟨hcomplete, hscan⟩ := rxScan_of_response hc hphase hcount hlen hrxbuf
  have henabled : scanEnabled s = true := scanEnabled_eq_true_iff.mpr (by simp [hcomplete])
  have hlatched : (rxScan s).phase = .completed := by rw [hscan]
  have herrors : errorsOf (completed (rxScan s)).events = errorsOf s.events := by
    rw [errorsOf_completed, hscan]
  obtain ⟨st, ev, -, e⟩ := completed_effect hlatched
  have hsettle : t = completed (rxScan s) := calc settle s
    _ = settle (rxScan s) := settle_of_settleLine (settleLine_of_awaiting_scan hphase henabled)
    _ = settle (completed (rxScan s)) := settle_of_settleLine (settleLine_of_completed hlatched)
    _ = completed (rxScan s) := settle_of_idle (by rw [e]) (by rw [e, hscan]) (by rw [e, hscan]; exact hcadence)
  rw [← mem_errorsOf_iff, hsettle, herrors, mem_errorsOf_iff, e, hscan]
  exact ⟨rfl, rfl, rfl, rfl, hnone⟩

/-! #### A step of an operation (R13, R217) -/

theorem step_of_decode {w : OpWord} {rest : List Input} {i : Instr} {s : State} (hin : s.inputs = .op w :: rest)
    (hi : decode s.cfg w = .ok i) : step s = afterOp s (exec i (startStep rest s)) := by
  simp only [step, hin, hi]

/-- Settles O52: `step_of_decode`, with the start and the end of a step written out. -/
theorem stepRunsDecodedInstruction : Obligations.StepRunsDecodedInstruction := by
  intro w rest i s hin hi _
  rw [step_of_decode hin hi, startStep]
  cases exec i { s with inputs := rest, history := s.history ++ s.events, events := [], ret := .none } with
  | next t => rfl
  | fault f => rfl
  | refused r => rfl

/-- T.TIMEOUT and then T.TIMEDOUT: one error, one count, and the status, the slot and the cadence as they were (R209,
R211). -/
theorem timedOut_timeout_effect {s : State} (hphase : s.phase = .awaiting) (h0 : s.respTimer = 0) :
    let t := timedOut (timeout s)
    t.phase = .idle ∧ t.timeoutCnt = satInc s.timeoutCnt ∧ t.status = s.status ∧ t.actionSlot = s.actionSlot ∧
      t.cadenceTimer = s.cadenceTimer ∧ t.rxbuf = s.rxbuf ∧ t.inputs = s.inputs ∧
      errorsOf t.events = errorsOf s.events ++ [⟨.responseTimeout, 0⟩] := by
  intro t
  have hexpired := timeout_of_expired hphase h0
  have hended : (timeout s).phase = .timedOut := by rw [hexpired]
  have herrors : errorsOf t.events = errorsOf s.events ++ [⟨.responseTimeout, 0⟩] := by
    rw [errorsOf_timedOut, hexpired, errorsOf_append]
    rfl
  rw [herrors]
  obtain ⟨ev, ⟨-, e⟩ | ⟨-, e⟩⟩ := timedOut_effect hended <;> simp [t, e, hexpired]

/-- With nothing received, an expired response timer ends the transaction, and the machine is idle again (R209, R211,
R217). -/
theorem settle_of_expired {s : State} (hphase : s.phase = .awaiting) (h0 : s.respTimer = 0) (hrxbuf : s.rxbuf = [])
    (hcadence : s.cadenceTimer ≠ 0) : settle s = timedOut (timeout s) := by
  have hscan : scanEnabled s = false := by simp [scanEnabled, hrxbuf]
  have hended : (timeout s).phase = .timedOut := by rw [timeout_of_expired hphase h0]
  obtain ⟨hidle, -, -, -, htimer, hbuffer, -⟩ := timedOut_timeout_effect hphase h0
  calc settle s
    _ = settle (timeout s) := settle_of_settleLine (settleLine_of_awaiting_expired hphase hscan h0)
    _ = settle (timedOut (timeout s)) := settle_of_settleLine (settleLine_of_timedOut hended)
    _ = timedOut (timeout s) := settle_of_idle hidle (hbuffer.trans hrxbuf) (htimer ▸ hcadence)

/-- Settles O38: the millisecond leaves the response timer at 0 and the cadence above it, and `settle_of_expired` says what
follows. -/
theorem expiredTimerCountsOnce : Obligations.ExpiredTimerCountsOnce := by
  intro rest s hin hphase hresp hrxbuf hcadence
  have hrunning : s.cadenceTimer ≠ 0 := by bv_omega
  have htick : (msTick (startStep rest s)).cadenceTimer = s.cadenceTimer - 1 := if_neg hrunning
  have hleft : (msTick (startStep rest s)).cadenceTimer ≠ 0 := by rw [htick]; bv_omega
  have hexpired : (msTick (startStep rest s)).respTimer = 0 := by simp [hphase, hresp, countDown]
  have hwaiting : (msTick (startStep rest s)).phase = .awaiting := hphase
  have hsettle := settle_of_expired hwaiting hexpired hrxbuf hleft
  obtain ⟨hidle, hcount, hstatus, hslot, htimer, -, hinputs, herrors⟩ := timedOut_timeout_effect hwaiting hexpired
  rw [← hsettle] at hidle hcount hstatus hslot htimer hinputs herrors
  refine ⟨endStep s (settle (msTick (startStep rest s))), step_of_decode hin rfl, ?_⟩
  simp only [endStep_phase, endStep_timeoutCnt, endStep_status, endStep_actionSlot, endStep_cadenceTimer,
    errorsOf_endStep, endStep_inputs]
  exact ⟨hidle, hcount, hstatus, hslot, htimer.trans htick, herrors, hinputs⟩

end Sys2Proof.Machine

/-! ### The UART (44_uart.md): the dividers (R242), the transmitter (R241, R243, R249) and the receiver (R245 to R248) -/

namespace Sys2Proof.Machine

/-! #### UART.BAUD (R242) -/

theorem atTerminal_eq (cnt div : Nat) : atTerminal cnt div = decide (cnt = div - 1) := rfl

theorem nextCount_eq (cnt div : Nat) : nextCount cnt div = if cnt = div - 1 then 0 else cnt + 1 := by
  simp [nextCount, atTerminal_eq]

/-- The millisecond tick of a clock, where there is one, timer by timer. -/
theorem msTick_if (b : Prop) [Decidable b] (s : State) : (if b then msTick s else s) = { s with
    cadenceTimer := if b then countDown s.cadenceTimer else s.cadenceTimer
    respTimer := if b ∧ s.phase = .awaiting then countDown s.respTimer else s.respTimer } := by
  by_cases hb : b
  · simp only [hb, if_true, true_and]
    rfl
  · simp only [hb, if_false, false_and]

/-- Settles O40: the counters step by step, and the event `MsTick` where its divider wraps. -/
theorem baudDividersCount : Obligations.BaudDividersCount := by
  intro s bit os ms
  have hms : msTickNow s = decide ms := rfl
  rw [exec, execUartBaud, hms]
  simp only [decide_eq_true_eq, msTick_if, baudStep, nextCount_eq]
  rfl

/-! #### UART.TXCHAR (R243) -/

theorem txReady_of_sending {s : State} (hphase : s.phase = .sending) (hfree : s.uart.txBitsLeft = 0)
    (hleft : s.txidx < s.txlen) : txReady s = true := by
  simp [txReady, hphase, hfree, hleft]

theorem txReady_of_busy {s : State} (hbusy : s.uart.txBitsLeft ≠ 0) : txReady s = false := by
  simp [txReady, hbusy]

theorem exec_load_of_ready {s : State} (h : txReady s = true) (d : Byte) :
    exec (.uartTxchar (.load d)) s = .next (txLoad d s) := by
  rw [exec, execUartTxchar, if_pos h]

theorem exec_load_of_not_ready {s : State} (h : txReady s = false) (d : Byte) :
    exec (.uartTxchar (.load d)) s = .next s := by
  rw [exec, execUartTxchar, h, if_neg Bool.false_ne_true]

/-- The transmit shift register after a `bit_tick`: it moves down, and a 1 enters at the top (R243). -/
def txShiftOut (r : BitVec 11) : BitVec 11 := 1#1 ++ r.extractLsb' 1 10

theorem txBitTick_of_free {s : State} (h : s.uart.txBitsLeft = 0) : txBitTick s = s := by
  rw [txBitTick, if_pos h]

theorem txBitTick_of_bits_left {s : State} (h : 1 < s.uart.txBitsLeft) : txBitTick s = { s with uart := { s.uart with
    txBitsLeft := s.uart.txBitsLeft - 1
    uartTx := s.uart.txShift.getLsbD 1
    txShift := txShiftOut s.uart.txShift } } := by
  rw [txBitTick, if_neg (by omega), if_pos h]
  rfl

/-- After a stop bit the next byte's start bit follows in the same clock. -/
theorem txBitTick_of_byte_left {s : State} (h : s.uart.txBitsLeft = 1) (hleft : s.txidx < s.txlen) :
    txBitTick s = giveNext s := by
  rw [txBitTick, if_neg (by omega), if_neg (by omega), if_pos hleft]
  rfl

/-- After the last stop bit the line stays at 1, and T.TXDONE releases the bus (R205). -/
theorem txBitTick_of_frame_end {s : State} (h : s.uart.txBitsLeft = 1) (hnone : s.txlen ≤ s.txidx)
    (hphase : s.phase = .sending) : txBitTick s = { s with
      uart := { s.uart with txBitsLeft := 0, uartTx := true }
      de := false, respTimer := s.cfg.responseTimeoutMs, phase := .awaiting, events := s.events ++ [.de false] } := by
  rw [txBitTick, if_neg (by omega), if_neg (by omega), if_neg (by omega)]
  exact txDone_of_sending hphase

/-- Settles O41: a load by `txReady`, and the four situations of a `bit_tick`. -/
theorem transmitterShiftsOut : Obligations.TransmitterShiftsOut := by
  refine fun d s => ⟨fun hphase hfree hleft => ?_, fun hbusy => ?_, fun hfree => ?_, fun hbits => ?_,
    fun hlast hleft => ?_, fun hlast hnone hphase => ?_⟩
  · exact exec_load_of_ready (txReady_of_sending hphase hfree hleft) d
  · exact exec_load_of_not_ready (txReady_of_busy hbusy) d
  · exact congrArg _ (txBitTick_of_free hfree)
  · exact congrArg _ (txBitTick_of_bits_left hbits)
  · exact congrArg _ (txBitTick_of_byte_left hlast hleft)
  · exact congrArg _ (txBitTick_of_frame_end hlast hnone hphase)

/-! #### One character on the pin (R241, R243) -/

/-- Both shift registers move down by one bit and take a new one at the top. -/
theorem getLsbD_shiftDown {n j : Nat} (level : Bool) (r : BitVec (n + 1)) (hj : j < n + 1) :
    (BitVec.ofBool level ++ r.extractLsb' 1 n).getLsbD j = if j < n then r.getLsbD (j + 1) else level := by
  rw [BitVec.getLsbD_append, BitVec.getLsbD_extractLsb']
  by_cases h : j < n
  · simp [h, Nat.add_comm]
  · obtain rfl : j = n := by omega
    simp

theorem getLsbD_txShiftOut {j : Nat} (r : BitVec 11) (hj : j < 10) : (txShiftOut r).getLsbD j = r.getLsbD (j + 1) :=
  (getLsbD_shiftDown true r (by omega)).trans (if_pos hj)

/-- After `k` shifts the register holds the bits from `k` on. -/
theorem getLsbD_txShiftOut_iterate (r : BitVec 11) :
    ∀ {k j : Nat}, j + k < 11 → (txShiftOut^[k] r).getLsbD j = r.getLsbD (j + k)
  | 0, _, _ => rfl
  | k + 1, j, h => by
    rw [Function.iterate_succ_apply', getLsbD_txShiftOut _ (by omega), getLsbD_txShiftOut_iterate r (by omega),
      Nat.add_right_comm, Nat.add_assoc]

/-- The level of `lineLevels` in bit period `k` of a byte's character. -/
def charLevel (d : Byte) (k : Nat) : Bool := (lineLevels d (parityBit d) true).getD k true

/-- The load puts the character's levels into the register, the first at bit 0. -/
theorem getLsbD_txFrame (d : Byte) {k : Nat} (hk : k < 11) : (txFrame d).getLsbD k = charLevel d k := by
  rw [txFrame, charLevel, BitVec.getLsbD_append, BitVec.getLsbD_append, BitVec.getLsbD_append]
  interval_cases k <;> simp [lineLevels, List.range_succ]

/-- The transmitter in bit period `k` of a byte's character, with everything else as in `s`. -/
def txInChar (d : Byte) (k : Nat) (s : State) : State :=
  { s with uart := { s.uart with
      txShift := txShiftOut^[k] (txFrame d), txBitsLeft := 11 - k, uartTx := charLevel d k } }

theorem txBitTick_txInChar {d : Byte} {k : Nat} {s : State} (hk : k < 10) :
    txBitTick (txInChar d k s) = txInChar d (k + 1) s := by
  have hbits : 1 < (txInChar d k s).uart.txBitsLeft := show 1 < 11 - k by omega
  have hlevel : (txShiftOut^[k] (txFrame d)).getLsbD 1 = charLevel d (k + 1) := by
    rw [getLsbD_txShiftOut_iterate _ (by omega), Nat.add_comm, getLsbD_txFrame d (by omega)]
  rw [txBitTick_of_bits_left hbits]
  simp only [txInChar, hlevel, ← Function.iterate_succ_apply']
  rfl

/-- Ten `bit_tick`s take the transmitter through the eleven bit periods of the character. -/
theorem txBitTick_iterate_txLoad (d : Byte) (s : State) :
    ∀ {k : Nat}, k < 11 → txBitTick^[k] (txLoad d s) = txInChar d k s
  | 0, _ => rfl
  | k + 1, h => by
    rw [Function.iterate_succ_apply', txBitTick_iterate_txLoad d s (by omega), txBitTick_txInChar (by omega)]

/-- Settles O42: the pin and the bit count of `txInChar`. -/
theorem characterAppearsOnPin : Obligations.CharacterAppearsOnPin := by
  intro d s k hk
  rw [txBitTick_iterate_txLoad d s hk]
  exact ⟨rfl, rfl⟩

/-! #### The frame on the pin (R249) -/

/-- The transmitter at the start of the frame's character `n`. -/
def txCharStart (n : Nat) (s : State) : State := txLoad (Memory.read s.txbuf n) { s with txidx := n + 1 }

theorem giveNext_eq_txCharStart {s : State} (hidx : s.txidx = 0) : giveNext s = txCharStart 0 s := by
  rw [giveNext, nextTxByte, hidx]
  rfl

/-- The eleventh tick of a character, where a byte is left, loads the next one without a gap. -/
theorem txBitTick_iterate_txCharStart {n : Nat} {s : State} (h : n + 1 < s.txlen) :
    txBitTick^[11] (txCharStart n s) = txCharStart (n + 1) s := by
  rw [Function.iterate_succ_apply', txCharStart, txBitTick_iterate_txLoad _ _ (by omega), txBitTick_of_byte_left rfl h]
  rfl

/-- Every eleven ticks the next byte of the frame starts. -/
theorem txBitTick_iterate_frame (s : State) :
    ∀ {n : Nat}, n < s.txlen → txBitTick^[11 * n] (txCharStart 0 s) = txCharStart n s
  | 0, _ => rfl
  | n + 1, h => by
    rw [show 11 * (n + 1) = 11 + 11 * n by omega, Function.iterate_add_apply,
      txBitTick_iterate_frame s (by omega), txBitTick_iterate_txCharStart h]

/-- Bit period `k` of the frame is bit period `k % 11` of byte `k / 11`. -/
theorem txBitTick_iterate_in_frame {k : Nat} {s : State} (hk : k < 11 * s.txlen) :
    txBitTick^[k] (txCharStart 0 s)
      = txInChar (Memory.read s.txbuf (k / 11)) (k % 11) { s with txidx := k / 11 + 1 } := by
  calc txBitTick^[k] (txCharStart 0 s)
    _ = txBitTick^[k % 11] (txBitTick^[11 * (k / 11)] (txCharStart 0 s)) := by
      rw [← Function.iterate_add_apply, Nat.mod_add_div]
    _ = txBitTick^[k % 11] (txCharStart (k / 11) s) := by rw [txBitTick_iterate_frame s (by omega)]
    _ = _ := txBitTick_iterate_txLoad _ _ (Nat.mod_lt k (by decide))

/-- The tick after the last stop bit ends the transmission. -/
theorem txBitTick_iterate_frame_end {s : State} (hphase : s.phase = .sending) (hlen : 0 < s.txlen) :
    (txBitTick^[11 * s.txlen] (txCharStart 0 s)).phase = .awaiting ∧
    (txBitTick^[11 * s.txlen] (txCharStart 0 s)).de = false ∧
    (txBitTick^[11 * s.txlen] (txCharStart 0 s)).uart.uartTx = true := by
  obtain ⟨last, hlast⟩ : ∃ last, s.txlen = last + 1 := ⟨s.txlen - 1, by omega⟩
  have hend : txBitTick^[11 * s.txlen] (txCharStart 0 s)
      = txBitTick (txInChar (Memory.read s.txbuf last) 10 { s with txidx := last + 1 }) := by
    rw [show 11 * s.txlen = 11 + 11 * last by omega, Function.iterate_add_apply, txBitTick_iterate_frame s (by omega),
      Function.iterate_succ_apply', txCharStart, txBitTick_iterate_txLoad _ _ (by omega)]
  rw [hend, txBitTick_of_frame_end (s := txInChar _ 10 { s with txidx := last + 1 }) rfl hlast.le hphase]
  exact ⟨rfl, rfl, rfl⟩

/-- Settles O43: bit period by bit period, and the tick after the last. -/
theorem frameAppearsOnPin : Obligations.FrameAppearsOnPin := by
  intro s hphase hde hidx hlen t
  have ht : t = txCharStart 0 s := giveNext_eq_txCharStart hidx
  rw [ht]
  refine ⟨fun k hk => ?_, txBitTick_iterate_frame_end hphase hlen⟩
  rw [txBitTick_iterate_in_frame hk]
  exact ⟨hphase, hde, rfl⟩

/-! #### UART.RXCHAR, one `os_tick` (R245, R246, R248) -/

theorem rxTick_of_de_true {s : State} (h : s.de = true) (level : Bool) : rxTick level s = rxIdle s := by
  rw [rxTick, if_pos h]

/-- An idle receiver stays so while the line is high. -/
theorem rxTick_of_idle_high {s : State} (hde : s.de = false) (hidle : s.uart.rxBusy = false) : rxTick true s = s := by
  simp [rxTick, hde, hidle]

/-- The receiver at work on a character, with everything else as in `s`. -/
def rxInChar (confirmed : Bool) (phase left : Nat) (r : BitVec 10) (s : State) : State :=
  { s with uart := { s.uart with
      rxBusy := true, rxConfirmed := confirmed, rxPhase := phase, rxBitsLeft := left, rxShift := r } }

/-- A low line at an idle receiver is the beginning of a start bit. -/
theorem rxTick_of_idle_low {s : State} (hde : s.de = false) (hidle : s.uart.rxBusy = false) :
    rxTick false s = rxInChar false 0 10 s.uart.rxShift s := by
  simp [rxTick, hde, hidle, rxInChar]

/-- A line that is high again in the middle of the start bit was a glitch. -/
theorem rxTick_of_glitch {s : State} (hde : s.de = false) (hbusy : s.uart.rxBusy = true)
    (hstart : s.uart.rxConfirmed = false) (hphase : s.uart.rxPhase = 7) : rxTick true s = rxIdle s := by
  simp [rxTick, hde, hbusy, hstart, hphase]

theorem rxTick_of_start_middle {s : State} (hde : s.de = false) (hbusy : s.uart.rxBusy = true)
    (hstart : s.uart.rxConfirmed = false) (hphase : s.uart.rxPhase = 7) :
    rxTick false s = { s with uart := { s.uart with rxConfirmed := true, rxPhase := 0 } } := by
  simp [rxTick, hde, hbusy, hstart, hphase]

/-- The last phase before a sample: a start bit is confirmed after eight ticks, a bit sampled after sixteen. -/
def lastPhase (confirmed : Bool) : Nat := if confirmed then 15 else 7

theorem rxTick_of_between {s : State} (hde : s.de = false) (hbusy : s.uart.rxBusy = true)
    (hphase : s.uart.rxPhase < lastPhase s.uart.rxConfirmed) (level : Bool) :
    rxTick level s = { s with uart := { s.uart with rxPhase := s.uart.rxPhase + 1 } } := by
  cases hconfirmed : s.uart.rxConfirmed with
  | false =>
    have hbelow : s.uart.rxPhase < 7 := by simpa [lastPhase, hconfirmed] using hphase
    simp [rxTick, hde, hbusy, hconfirmed, hbelow]
  | true =>
    have hbelow : s.uart.rxPhase < 15 := by simpa [lastPhase, hconfirmed] using hphase
    simp [rxTick, hde, hbusy, hconfirmed, hbelow]

theorem rxTick_of_sample {s : State} (hde : s.de = false) (hbusy : s.uart.rxBusy = true)
    (hconfirmed : s.uart.rxConfirmed = true) (hphase : s.uart.rxPhase = 15) (level : Bool) :
    rxTick level s = rxSample level s := by
  simp [rxTick, hde, hbusy, hconfirmed, hphase]

theorem rxSample_of_bits_left {s : State} (hbits : 1 < s.uart.rxBitsLeft) (level : Bool) :
    rxSample level s = { s with uart := { s.uart with
      rxBusy := true, rxPhase := 0, rxShift := rxShiftIn level s.uart.rxShift, rxBitsLeft := s.uart.rxBitsLeft - 1 } } := by
  simp [rxSample, hbits]

theorem rxCharError_of_de_false {s : State} (hde : s.de = false) (framing : Bool) : rxCharError framing s = { s with
    ferrSeen := s.ferrSeen || framing, perrSeen := s.perrSeen || !framing } := by
  cases framing <;> simp [rxCharError, hde]

theorem rxCharError_of_de_true {s : State} (hde : s.de = true) (framing : Bool) : rxCharError framing s = s := by
  rw [rxCharError, if_pos hde]

/-- Settles O44: the tick's situations one by one, and the two errors. -/
theorem receiverOneTick : Obligations.ReceiverOneTick := by
  refine fun level framing s => ⟨fun hde => ?_, fun hde hidle hlevel => ?_, fun hde hidle hlevel => ?_,
    fun hde hbusy hstart hphase hlevel => ?_, fun hde hbusy hstart hphase hlevel => ?_, fun hde hbusy hphase => ?_,
    fun hde hbusy hconfirmed hphase hbits => ?_, fun hde => ?_, fun hde => ?_⟩
  · exact congrArg _ (rxTick_of_de_true hde level)
  · subst hlevel
    exact congrArg _ (rxTick_of_idle_high hde hidle)
  · subst hlevel
    exact congrArg _ (rxTick_of_idle_low hde hidle)
  · subst hlevel
    exact congrArg _ (rxTick_of_glitch hde hbusy hstart hphase)
  · subst hlevel
    exact congrArg _ (rxTick_of_start_middle hde hbusy hstart hphase)
  · exact congrArg _ (rxTick_of_between hde hbusy hphase level)
  · rw [exec, execUartRxchar, rxTick_of_sample hde hbusy hconfirmed hphase, rxSample_of_bits_left hbits, ← hbusy]
    rfl
  · exact congrArg _ (rxCharError_of_de_false hde framing)
  · exact congrArg _ (rxCharError_of_de_true hde framing)

/-! #### A whole character at the receiver (R245 to R247) -/

theorem rxTick_iterate_between {confirmed : Bool} {left : Nat} {r : BitVec 10} {s : State} (hde : s.de = false)
    (level : Bool) (phase : Nat) : ∀ {n : Nat}, phase + n ≤ lastPhase confirmed →
    (rxTick level)^[n] (rxInChar confirmed phase left r s) = rxInChar confirmed (phase + n) left r s
  | 0, _ => rfl
  | n + 1, h => by
    rw [Function.iterate_succ_apply', rxTick_iterate_between hde level phase (by omega)]
    exact rxTick_of_between (s := rxInChar confirmed (phase + n) left r s) hde rfl h level

/-- The start bit: it is confirmed in its middle, and seven ticks later it is over. -/
theorem rxTick_iterate_start {s : State} (hde : s.de = false) (hidle : s.uart.rxBusy = false) :
    (rxTick false)^[16] s = rxInChar true 7 10 s.uart.rxShift s := by
  have hmiddle : rxTick false (rxInChar false 7 10 s.uart.rxShift s) = rxInChar true 0 10 s.uart.rxShift s :=
    rxTick_of_start_middle hde rfl rfl rfl
  calc (rxTick false)^[16] s
    _ = (rxTick false)^[7] (rxTick false ((rxTick false)^[7] (rxTick false s))) := rfl
    _ = (rxTick false)^[7] (rxTick false (rxInChar false 7 10 s.uart.rxShift s)) := by
      rw [rxTick_of_idle_low hde hidle, rxTick_iterate_between hde false 0 (by decide)]
    _ = rxInChar true 7 10 s.uart.rxShift s := by rw [hmiddle, rxTick_iterate_between hde false 0 (by decide)]

/-- A bit period is sampled in its middle, at the ninth of its ticks. -/
theorem rxTick_iterate_bit {left : Nat} {r : BitVec 10} {s : State} (hde : s.de = false) (level : Bool) :
    (rxTick level)^[16] (rxInChar true 7 left r s) = (rxTick level)^[7] (rxSample level (rxInChar true 15 left r s)) := by
  calc (rxTick level)^[16] (rxInChar true 7 left r s)
    _ = (rxTick level)^[7] (rxTick level ((rxTick level)^[8] (rxInChar true 7 left r s))) := rfl
    _ = (rxTick level)^[7] (rxTick level (rxInChar true 15 left r s)) := by
      rw [rxTick_iterate_between hde level 7 (by decide)]
    _ = _ := by rw [rxTick_of_sample (s := rxInChar true 15 left r s) hde rfl rfl rfl]

/-- A bit that is not the character's last enters the register. -/
theorem rxTick_iterate_bit_of_bits_left {left : Nat} {r : BitVec 10} {s : State} (hde : s.de = false) (hleft : 1 < left)
    (level : Bool) :
    (rxTick level)^[16] (rxInChar true 7 left r s) = rxInChar true 7 (left - 1) (rxShiftIn level r) s := by
  rw [rxTick_iterate_bit hde, rxSample_of_bits_left hleft]
  exact rxTick_iterate_between (confirmed := true) hde level 0 (by decide)

/-- The receive shift register after a list of samples. -/
def rxShiftInAll (levels : List Bool) (r : BitVec 10) : BitVec 10 := levels.foldl (fun q level => rxShiftIn level q) r

theorem feedReceiver_cons (level : Bool) (levels : List Bool) (s : State) :
    feedReceiver (level :: levels) s = feedReceiver levels ((rxTick level)^[16] s) := by
  rw [feedReceiver, List.foldl_cons, feedReceiver]

theorem feedReceiver_append (levels levels' : List Bool) (s : State) :
    feedReceiver (levels ++ levels') s = feedReceiver levels' (feedReceiver levels s) := by
  rw [feedReceiver, List.foldl_append, feedReceiver, feedReceiver]

theorem feedReceiver_bits {s : State} (hde : s.de = false) : ∀ (levels : List Bool) {left : Nat} (r : BitVec 10),
    levels.length < left → feedReceiver levels (rxInChar true 7 left r s)
      = rxInChar true 7 (left - levels.length) (rxShiftInAll levels r) s
  | [], _, _, _ => rfl
  | level :: levels, left, r, h => by
    rw [List.length_cons] at h ⊢
    rw [feedReceiver_cons, rxTick_iterate_bit_of_bits_left hde (by omega), feedReceiver_bits hde levels _ (by omega),
      Nat.sub_sub, Nat.add_comm 1]
    rfl

theorem getLsbD_rxShiftIn (level : Bool) (r : BitVec 10) {i : Nat} (hi : i < 10) :
    (rxShiftIn level r).getLsbD i = if i < 9 then r.getLsbD (i + 1) else level := getLsbD_shiftDown level r hi

/-- The samples stand at the top of the register, the first one lowest (R246, log 33). -/
theorem getLsbD_rxShiftInAll : ∀ (levels : List Bool) (r : BitVec 10) {i : Nat}, i < 10 →
    (rxShiftInAll levels r).getLsbD i
      = if i + levels.length < 10 then r.getLsbD (i + levels.length) else levels.getD (i + levels.length - 10) false
  | [], r, i, hi => by simp [rxShiftInAll, hi]
  | level :: levels, r, i, hi => by
    have hcons : rxShiftInAll (level :: levels) r = rxShiftInAll levels (rxShiftIn level r) := rfl
    rw [hcons, getLsbD_rxShiftInAll levels _ hi, List.length_cons, ← Nat.add_assoc]
    by_cases hin : i + levels.length < 10
    · rw [if_pos hin, getLsbD_rxShiftIn level r hin]
      by_cases hold : i + levels.length < 9
      · rw [if_pos hold, if_pos (by omega)]
      · rw [if_neg hold, if_neg (by omega), show i + levels.length + 1 - 10 = 0 by omega, List.getD_cons_zero]
    · rw [if_neg hin, if_neg (by omega),
        show i + levels.length + 1 - 10 = i + levels.length - 10 + 1 by omega, List.getD_cons_succ]

/-- Ten samples fill the register, whatever stood there. -/
theorem getLsbD_rxShiftInAll_of_full {levels : List Bool} (hfull : levels.length = 10) (r : BitVec 10) {i : Nat}
    (hi : i < 10) : (rxShiftInAll levels r).getLsbD i = levels.getD i false := by
  rw [getLsbD_rxShiftInAll levels r hi, if_neg (by omega), hfull, Nat.add_sub_cancel]

/-- The levels of a character after its start bit and before its stop bit. -/
def dataLevels (d : Byte) (p : Bool) : List Bool := (List.range 8).map (fun i => d.getLsbD i) ++ [p]

theorem dataLevels_length (d : Byte) (p : Bool) : (dataLevels d p).length = 9 := rfl

theorem lineLevels_eq (d : Byte) (p stop : Bool) : lineLevels d p stop = false :: (dataLevels d p ++ [stop]) := rfl

/-- The full register, read as R247 reads it, is the character. -/
theorem rxShiftInAll_character (d : Byte) (p stop : Bool) (r : BitVec 10) :
    let q := rxShiftInAll (dataLevels d p ++ [stop]) r
    q.extractLsb' 0 8 = d ∧ q.getLsbD 8 = p ∧ q.getLsbD 9 = stop := by
  intro q
  have hq {i : Nat} (hi : i < 10) : q.getLsbD i = (dataLevels d p ++ [stop]).getD i false :=
    getLsbD_rxShiftInAll_of_full rfl r hi
  refine ⟨BitVec.eq_of_getLsbD_eq fun i hi => ?_, hq (by decide), hq (by decide)⟩
  rw [BitVec.getLsbD_extractLsb', Nat.zero_add, hq (by omega), dataLevels]
  simp [hi, List.getD_eq_getElem?_getD, List.getElem?_append]

/-- The receiver with the whole character `q` in its register: idle, with everything else as in `s`. -/
def rxFull (q : BitVec 10) (s : State) : State := { s with uart := { s.uart with
  rxBusy := false, rxConfirmed := true, rxPhase := 0, rxBitsLeft := 0, rxShift := q } }

theorem rxSample_last (level : Bool) (r : BitVec 10) (s : State) :
    rxSample level (rxInChar true 15 1 r s)
      = let q := rxShiftIn level r
        rxCharEnd (q.extractLsb' 0 8) (q.getLsbD 8) (q.getLsbD 9) (rxFull q s) := rfl

/-- The receiver checks the character in the middle of its stop bit, of which seven ticks are then left. -/
theorem feedReceiver_lineLevels {s : State} (hde : s.de = false) (hidle : s.uart.rxBusy = false)
    (d : Byte) (p stop : Bool) : ∃ q, feedReceiver (lineLevels d p stop) s
      = (rxTick stop)^[7] (rxCharEnd d p stop (rxFull q s)) := by
  obtain ⟨hd, hp, hstop⟩ := rxShiftInAll_character d p stop s.uart.rxShift
  have hlast : rxShiftIn stop (rxShiftInAll (dataLevels d p) s.uart.rxShift)
      = rxShiftInAll (dataLevels d p ++ [stop]) s.uart.rxShift := by simp [rxShiftInAll]
  have hroom : (dataLevels d p).length < 10 := by simp [dataLevels_length]
  refine ⟨rxShiftInAll (dataLevels d p ++ [stop]) s.uart.rxShift, ?_⟩
  calc feedReceiver (lineLevels d p stop) s
    _ = feedReceiver (dataLevels d p ++ [stop]) (rxInChar true 7 10 s.uart.rxShift s) := by
      rw [lineLevels_eq, feedReceiver_cons, rxTick_iterate_start hde hidle]
    _ = (rxTick stop)^[16] (rxInChar true 7 1 (rxShiftInAll (dataLevels d p) s.uart.rxShift) s) := by
      rw [feedReceiver_append, feedReceiver_bits hde _ _ hroom]
      rfl
    _ = _ := by
      rw [rxTick_iterate_bit hde, rxSample_last, hlast]
      dsimp only
      rw [hd, hp, hstop]

theorem rxCharEnd_of_good (d : Byte) (s : State) : rxCharEnd d (parityBit d) true s = rxPush d s := by
  simp [rxCharEnd, checkChar]

theorem rxCharEnd_of_parity_error {d : Byte} {p : Bool} (hp : p ≠ parityBit d) (s : State) :
    rxCharEnd d p true s = rxCharError false s := by
  simp [rxCharEnd, checkChar, hp.symm]

theorem rxCharEnd_of_framing_error (d : Byte) (p : Bool) (s : State) :
    rxCharEnd d p false s = rxCharError true s := by
  simp [rxCharEnd, checkChar]

/-- The end of a character works on the buffer and the flags, not on the receiver. -/
theorem rxCharEnd_de_uart (d : Byte) (p stop : Bool) (s : State) :
    (rxCharEnd d p stop s).de = s.de ∧ (rxCharEnd d p stop s).uart = s.uart := by
  unfold rxCharEnd rxPush rxCharError
  split <;> split_ifs <;> exact ⟨rfl, rfl⟩

/-- What is left of the stop bit changes neither the buffer nor the flags: a high line leaves the receiver idle, and a low
one, after a framing error, is only the beginning of another start bit. -/
theorem rxTick_iterate_after_check {s : State} (hde : s.de = false) (hidle : s.uart.rxBusy = false) (stop : Bool) :
    ((rxTick stop)^[7] s).rxbuf = s.rxbuf ∧ ((rxTick stop)^[7] s).perrSeen = s.perrSeen ∧
    ((rxTick stop)^[7] s).ferrSeen = s.ferrSeen ∧ (stop = true → ((rxTick stop)^[7] s).uart.rxBusy = false) := by
  cases stop with
  | true =>
    rw [Function.iterate_fixed (rxTick_of_idle_high hde hidle)]
    exact ⟨rfl, rfl, rfl, fun _ => hidle⟩
  | false =>
    rw [Function.iterate_succ_apply, rxTick_of_idle_low hde hidle, rxTick_iterate_between hde false 0 (by decide)]
    exact ⟨rfl, rfl, rfl, fun h => absurd h Bool.false_ne_true⟩

/-- Settles O45: `feedReceiver_lineLevels`, outcome by outcome of the check. -/
theorem receiverReadsCharacter : Obligations.ReceiverReadsCharacter := by
  intro d p stop s hde hidle t
  obtain ⟨q, hq⟩ := feedReceiver_lineLevels hde hidle d p stop
  have ht : t = (rxTick stop)^[7] (rxCharEnd d p stop (rxFull q s)) := hq
  have hde' : (rxFull q s).de = false := hde
  obtain ⟨hkeepDe, hkeepUart⟩ := rxCharEnd_de_uart d p stop (rxFull q s)
  obtain ⟨hrxbuf, hperr, hferr, hbusy⟩ := rxTick_iterate_after_check (hkeepDe.trans hde')
    (congrArg Uart.rxBusy hkeepUart) stop
  rw [ht, hrxbuf, hperr, hferr]
  refine ⟨fun hstop hp => ?_, fun hstop hp => ?_, fun hstop => ?_⟩
  · refine ⟨?_, ?_, ?_, hbusy hstop⟩ <;> rw [hstop, hp, rxCharEnd_of_good, rxPush_of_de_false hde'] <;> rfl
  · rw [hstop, rxCharEnd_of_parity_error hp, rxCharError_of_de_false hde']
    exact ⟨rfl, Bool.or_true _, Bool.or_false _⟩
  · rw [hstop, rxCharEnd_of_framing_error, rxCharError_of_de_false hde']
    exact ⟨rfl, Bool.or_false _, Bool.or_true _⟩

end Sys2Proof.Machine

/-! ### Wake (60_exceptions.md, R281; R174, R208, R211)

`WakesOnChange` is R281 between two moments of one step. It composes, so it is proved once for each operation, each line of
`settle` and each stage of a clock edge, and a step is their sequence. -/

namespace Sys2Proof.Machine

/-- From `s` to a later moment `t` of the same step outputs are only added, none of them a wake where the output does not
exist; and where it exists, a new state or connection leaves a wake among them. -/
structure WakesOnChange (s t : State) : Prop where
  cfg : t.cfg = s.cfg := by rfl
  kept : s.events ⊆ t.events := by exact List.Subset.refl _
  absent : s.cfg.hasWake = false → Out.wake ∈ t.events → Out.wake ∈ s.events := by exact fun _ => id
  notable : s.cfg.hasWake = true →
    Out.wake ∈ t.events ∨ (t.status.state = s.status.state ∧ t.connected = s.connected) := by
      exact fun _ => .inr ⟨rfl, rfl⟩

theorem WakesOnChange.trans {s t u : State} (h : WakesOnChange s t) (k : WakesOnChange t u) : WakesOnChange s u where
  cfg := k.cfg.trans h.cfg
  kept := List.Subset.trans h.kept k.kept
  absent hwake hu := h.absent hwake (k.absent (h.cfg ▸ hwake) hu)
  notable hwake := by
    obtain hu | ⟨hstate', hconnected'⟩ := k.notable (h.cfg ▸ hwake)
    · exact .inl hu
    · obtain ht | ⟨hstate, hconnected⟩ := h.notable hwake
      · exact .inl (k.kept ht)
      · exact .inr ⟨hstate'.trans hstate, hconnected'.trans hconnected⟩

theorem wakesOnChange_of_controlSame {s t : State} (h : ControlSame s t) (hev : t.events = s.events) :
    WakesOnChange s t where
  cfg := h.cfg
  kept := hev ▸ List.Subset.refl _
  absent _ := hev ▸ id
  notable _ := .inr ⟨congrArg _ h.status, h.connected⟩

/-- Every other output leaves R281 alone. -/
theorem wakesOnChange_emit (s : State) {o : Out} (ho : o ≠ .wake := by nofun) : WakesOnChange s (emit o s) where
  kept := List.subset_append_left _ _
  absent _ := by simp [ho.symm]

/-! #### Where a wake is raised -/

theorem wake_mem_emitWake_iff (s : State) :
    Out.wake ∈ (emitWake s).events ↔ s.cfg.hasWake = true ∨ Out.wake ∈ s.events := by
  by_cases h : Out.wake ∈ s.events
  · simp [emitWake, h]
  · rw [emitWake_of_fresh h]
    split_ifs with hwake <;> simp [h, hwake]

/-- Whatever changes before it, `emit Wake` answers for the change (R281). -/
theorem wakesOnChange_emitWake {s t : State} (hcfg : t.cfg = s.cfg) (hev : t.events = s.events) :
    WakesOnChange s (emitWake t) where
  cfg := (emitWake_cfg t).trans hcfg
  kept := by
    obtain ⟨ev, e, rfl | rfl⟩ := emitWake_effect t <;> simp [e, hev]
  absent hwake := by simp [wake_mem_emitWake_iff, hcfg, hev, hwake]
  notable hwake := .inl ((wake_mem_emitWake_iff t).mpr (.inl (hcfg ▸ hwake)))

/-- Publication wakes unless the state is the old one (R174). -/
theorem wakesOnChange_publish (st : DriveStatus) (s : State) : WakesOnChange s (publish st s) := by
  unfold publish
  split_ifs with hstate
  · exact { notable := fun _ => .inr ⟨hstate, rfl⟩ }
  · exact wakesOnChange_emitWake rfl rfl

theorem wakesOnChange_statusDecoder (fr : Frame) (s : State) : WakesOnChange s (statusDecoder fr s) := by
  unfold statusDecoder
  split
  · exact wakesOnChange_publish _ s
  · exact wakesOnChange_emit s

theorem wakesOnChange_driveAction (kind : PollKind) (x : List Word) (s : State) :
    WakesOnChange s (driveAction kind x s) := by
  obtain ⟨ev, e, rfl | ⟨v, -, -, -, rfl⟩⟩ := driveAction_effect kind x s
  · exact e ▸ {}
  · exact e ▸ wakesOnChange_emit s

theorem wakesOnChange_parseResponse (rsp : List Byte) (s : State) : WakesOnChange s (parseResponse rsp s) := by
  unfold parseResponse embeddedStatus
  dsimp only
  split
  · exact wakesOnChange_driveAction _ _ s
  · exact (wakesOnChange_driveAction _ _ s).trans (wakesOnChange_publish _ _)

/-- T.COMPLETED connects, and wakes unless it was connected and the state is the old one (R208). -/
theorem wakesOnChange_completed (s : State) : WakesOnChange s (completed s) := by
  have hparse := wakesOnChange_parseResponse s.rsp s
  unfold completed
  dsimp only
  split_ifs with hphase hnotable
  · exact hparse.trans (wakesOnChange_emitWake rfl rfl)
  · simp only [not_or, Bool.not_eq_false, not_ne_iff] at hnotable
    obtain ⟨hconnected, hstate⟩ := hnotable
    exact { hparse with notable := fun _ => .inr ⟨hstate, hconnected.symm⟩ }
  · exact {}

/-- T.TIMEDOUT at the threshold disconnects, and wakes unless it was disconnected (R211). -/
theorem wakesOnChange_timedOut (s : State) : WakesOnChange s (timedOut s) := by
  unfold timedOut
  dsimp only
  split
  · split
    · cases hconnected : s.connected with
      | true => exact wakesOnChange_emitWake rfl rfl
      | false => exact { notable := fun _ => .inr ⟨rfl, hconnected.symm⟩ }
    · exact {}
  · exact {}

/-! #### Operations that change neither the state nor the connection -/

theorem wakesOnChange_acceptResponse (F : List Byte) (s : State) : WakesOnChange s (acceptResponse F s) := by
  unfold acceptResponse
  split <;> exact {}

theorem wakesOnChange_crcFail (s : State) : WakesOnChange s (crcFail s) := by
  unfold crcFail
  split <;> exact {}

theorem wakesOnChange_timeout (s : State) : WakesOnChange s (timeout s) := by
  unfold timeout
  split
  · exact WakesOnChange.trans {} (wakesOnChange_emit _)
  · exact {}

theorem wakesOnChange_tick (s : State) : WakesOnChange s (tick s) := by
  unfold tick
  dsimp only
  split
  · exact WakesOnChange.trans {} ((wakesOnChange_emit _).trans (wakesOnChange_emit _))
  · exact {}

theorem wakesOnChange_txDone (s : State) : WakesOnChange s (txDone s) := by
  unfold txDone
  split
  · exact WakesOnChange.trans {} (wakesOnChange_emit _)
  · exact {}

theorem wakesOnChange_txBitTick (s : State) : WakesOnChange s (txBitTick s) := by
  unfold txBitTick
  split_ifs
  · exact {}
  · exact {}
  · exact {}
  · exact WakesOnChange.trans {} (wakesOnChange_txDone _)

theorem rxCharEnd_events (d : Byte) (p stop : Bool) (s : State) : (rxCharEnd d p stop s).events = s.events := by
  unfold rxCharEnd rxPush rxCharError
  repeat' split
  all_goals rfl

theorem rxTick_events (level : Bool) (s : State) : (rxTick level s).events = s.events := by
  unfold rxTick
  split_ifs
  pick_goal 8
  · unfold rxSample
    dsimp only
    split
    · rfl
    · exact rxCharEnd_events ..
  all_goals rfl

theorem wakesOnChange_rxTick (level : Bool) (s : State) : WakesOnChange s (rxTick level s) :=
  wakesOnChange_of_controlSame (controlSame_rxTick level s) (rxTick_events level s)

theorem wakesOnChange_decodeRun (F : List Byte) (s : State) : WakesOnChange s (decodeRun F s) :=
  wakesOnChange_of_controlSame (controlSame_decodeRun F s) (decodeRun_events F s)

theorem wakesOnChange_hostRead (p : PinsIn) (s : State) : WakesOnChange s (hostRead p s) := by
  unfold hostRead
  split
  · exact wakesOnChange_emit s
  · exact {}

theorem wakesOnChange_endStep (before s : State) : WakesOnChange s (endStep before s) := by
  unfold endStep
  split
  · exact {}
  · exact wakesOnChange_emit s

theorem wakesOnChange_rejectedWord {why : Reject} {s t : State} (h : rejectedWord why s = .next t) :
    WakesOnChange s t := by
  cases why with
  | droppedBytes => cases h; exact {}
  | statusReadOnly => cases h; exact {}
  | actionRead => cases h; exact wakesOnChange_emit s
  | statusRead => cases h; exact wakesOnChange_emit s
  | noSuchOffset => cases h
  | notAPollRequest => cases h
  | badOperands => cases h

/-! #### Received frames and `settle` (R146, R147, R217) -/

theorem wakesOnChange_deliver (fr : Frame) (F : List Byte) (s : State) : WakesOnChange s (deliver fr F s) := by
  unfold deliver
  split_ifs
  · exact wakesOnChange_statusDecoder fr s
  · exact wakesOnChange_acceptResponse F s
  · exact {}

theorem wakesOnChange_judge (F : List Byte) (s : State) : WakesOnChange s (judge F s) := by
  refine (wakesOnChange_decodeRun F s).trans ?_
  unfold judge
  dsimp only
  split
  · exact wakesOnChange_deliver _ F _
  · exact {}
  · split
    · exact (wakesOnChange_emit _).trans (wakesOnChange_crcFail _)
    · exact wakesOnChange_emit _

theorem wakesOnChange_rxScan (s : State) : WakesOnChange s (rxScan s) := by
  cases hscan : scanEnabled s with
  | false => exact (rxScan_of_not_scanEnabled hscan).symm ▸ {}
  | true =>
    obtain ⟨-, -, e⟩ | ⟨L, -, -, e⟩ := rxScan_effect hscan
    · exact e ▸ {}
    · exact e ▸ WakesOnChange.trans {} (wakesOnChange_judge _ _)

theorem wakesOnChange_settleLine {s t : State} (h : settleLine s = some t) : WakesOnChange s t := by
  obtain ⟨-, rfl⟩ | ⟨-, rfl⟩ | ⟨-, -, -, rfl⟩ | ⟨-, -, -, rfl⟩ | ⟨-, -, -, rfl⟩ := settleLine_cases h
  · exact wakesOnChange_completed s
  · exact wakesOnChange_timedOut s
  · exact wakesOnChange_rxScan s
  · exact wakesOnChange_timeout s
  · exact wakesOnChange_tick s

theorem wakesOnChange_settle (s : State) : WakesOnChange s (settle s) :=
  settle_induct (P := WakesOnChange s) (fun _ _ hs hline => hs.trans (wakesOnChange_settleLine hline)) {}

/-! #### Every operation but RESET -/

theorem wakesOnChange_of_exec_encode {a f : Byte} {P : List Byte} {s t : State} (h : exec (.encode a f P) s = .next t) :
    WakesOnChange s t := by
  simp only [exec, execEncode] at h
  split at h <;> cases h <;> exact {}

theorem wakesOnChange_of_exec_decode {F : List Byte} {s t : State} (h : exec (.decode F) s = .next t) :
    WakesOnChange s t := by
  have hrun := (wakesOnChange_decodeRun F s).trans
    (u := { decodeRun F s with ret := .decoded (decodeFrame s.cfg.minFrameLen F) }) {}
  simp only [exec, execDecode] at h
  split at h <;> cases h
  · exact hrun.trans (wakesOnChange_emit _)
  · exact hrun
  · exact hrun

theorem wakesOnChange_of_exec_bcast {P : List Byte} {sum : Word} {s t : State} (h : exec (.bcast P sum) s = .next t) :
    WakesOnChange s t := by
  simp only [exec, execBcast] at h
  split_ifs at h <;> cases h
  · exact {}
  · exact wakesOnChange_judge _ s
  · exact {}

theorem wakesOnChange_of_exec_pollrsp {P : List Byte} {sum : Word} {s t : State}
    (h : exec (.pollrsp P sum) s = .next t) : WakesOnChange s t := by
  simp only [exec, execPollrsp] at h
  split at h
  · cases h
    exact wakesOnChange_parseResponse _ s
  · split at h
    · cases h
      exact wakesOnChange_judge _ s
    · cases h
      exact {}
  all_goals
    cases h
    exact {}

theorem wakesOnChange_of_exec_txNext {s t : State} (h : exec .txNext s = .next t) : WakesOnChange s t := by
  simp only [exec, execTxNext] at h
  split at h <;> cases h <;> exact {}

theorem wakesOnChange_of_exec_uartBaud {s t : State} (h : exec .uartBaud s = .next t) : WakesOnChange s t := by
  simp only [exec, execUartBaud] at h
  cases h
  split <;> exact {}

theorem wakesOnChange_of_exec_uartTxchar {act : TxAct} {s t : State} (h : exec (.uartTxchar act) s = .next t) :
    WakesOnChange s t := by
  cases act with
  | load d =>
    cases h
    split <;> exact {}
  | bitTick =>
    cases h
    exact wakesOnChange_txBitTick s

theorem wakesOnChange_rxPush (b : Byte) (s : State) : WakesOnChange s (rxPush b s) := by
  unfold rxPush
  split <;> exact {}

theorem wakesOnChange_rxCharError (framing : Bool) (s : State) : WakesOnChange s (rxCharError framing s) := by
  unfold rxCharError
  split_ifs <;> exact {}

/-- A read (R191, R192) shows the STATUS word. -/
theorem wakesOnChange_read (r : Ret) (s : State) :
    WakesOnChange s { emit (.read (statusWord s)) s with ret := r } :=
  (wakesOnChange_emit (o := .read (statusWord s)) s).trans {}

/-- RESET alone moves the state and the connection without a wake (R310). -/
theorem wakesOnChange_of_exec {i : Instr} {s t : State} (hreset : i ≠ .reset) (h : exec i s = .next t) :
    WakesOnChange s t := by
  cases i with
  | encode a f P => exact wakesOnChange_of_exec_encode h
  | decode F => exact wakesOnChange_of_exec_decode h
  | rxPush b => cases h; exact wakesOnChange_rxPush b s
  | rxScan => cases h; exact wakesOnChange_rxScan s
  | txNext => exact wakesOnChange_of_exec_txNext h
  | pollrsp P sum => exact wakesOnChange_of_exec_pollrsp h
  | bcast P sum => exact wakesOnChange_of_exec_bcast h
  | currentStatus => cases h; exact wakesOnChange_read _ s
  | isConnected => cases h; exact wakesOnChange_read _ s
  | tTick => cases h; exact wakesOnChange_tick s
  | tTxdone => cases h; exact wakesOnChange_txDone s
  | tRsp F => cases h; exact wakesOnChange_acceptResponse F s
  | tCompleted => cases h; exact wakesOnChange_completed s
  | tTimeout => cases h; exact wakesOnChange_timeout s
  | tCrcfail => cases h; exact wakesOnChange_crcFail s
  | tTimedout => cases h; exact wakesOnChange_timedOut s
  | uartBaud => exact wakesOnChange_of_exec_uartBaud h
  | uartTxchar act => exact wakesOnChange_of_exec_uartTxchar h
  | uartRxchar act =>
    cases act with
    | osTick level => cases h; exact wakesOnChange_rxTick level s
    | charErr framing => cases h; exact wakesOnChange_rxCharError framing s
  | reset => exact absurd rfl hreset
  | _ => cases h; exact {}

/-! #### A clock edge (R283) and a whole step -/

theorem wakesOnChange_edgeSampled (p : PinsIn) (s : State) : WakesOnChange s (edgeSampled p s) :=
  (wakesOnChange_hostRead p s).trans {}

theorem wakesOnChange_edgeCharDone (p : PinsIn) (s : State) : WakesOnChange s (edgeCharDone p s) := by
  refine (wakesOnChange_edgeSampled p s).trans ?_
  unfold edgeCharDone
  split
  · exact (wakesOnChange_rxTick _ _).trans (wakesOnChange_settle _)
  · exact {}

theorem wakesOnChange_edgeMsDone (p : PinsIn) (s : State) : WakesOnChange s (edgeMsDone p s) := by
  refine (wakesOnChange_edgeCharDone p s).trans ?_
  unfold edgeMsDone
  split
  · exact WakesOnChange.trans {} (wakesOnChange_settle _)
  · exact {}

theorem wakesOnChange_edgeTx (p : PinsIn) (s : State) : WakesOnChange s (edgeTx p s) := by
  refine (wakesOnChange_edgeMsDone p s).trans ?_
  unfold edgeTx
  split
  · exact wakesOnChange_txBitTick _
  · exact {}

/-- What follows an edge's last `settle` touches neither the status nor the outputs. -/
theorem wakesOnChange_runEdge (p : PinsIn) (s : State) : WakesOnChange s (runEdge p s) := by
  refine ((wakesOnChange_edgeTx p s).trans (wakesOnChange_settle _)).trans ?_
  unfold runEdge
  generalize settle (edgeTx p s) = u
  exact { cfg := by simp, kept := by simp, absent := by simp, notable := by simp }

theorem wakesOnChange_step {x : Input} {rest : List Input} {s t : State} (hin : s.inputs = x :: rest)
    (hx : resetsBlock s.cfg x = false) (hstep : step s = .next t) : WakesOnChange (startStep rest s) t := by
  cases stepEffect_of_next hstep with
  | waits h => cases h.symm.trans hin
  | @clock p rest' h =>
    cases h.symm.trans hin
    have hrst : p.rstN = true := by simpa [resetsBlock] using hx
    rw [clockEdge, if_pos hrst]
    exact (wakesOnChange_runEdge p _).trans (wakesOnChange_endStep s _)
  | @operation w rest' i u h hi hu =>
    cases h.symm.trans hin
    have hreset : i ≠ .reset := by
      rintro rfl
      simp [resetsBlock, hi] at hx
    exact (wakesOnChange_of_exec hreset hu).trans ((wakesOnChange_settle u).trans (wakesOnChange_endStep s _))
  | @rejected w rest' why u h hw hu =>
    cases h.symm.trans hin
    exact (wakesOnChange_rejectedWord hu).trans ((wakesOnChange_settle u).trans (wakesOnChange_endStep s _))

/-- Settles O39: a step begins with no outputs and the registers as they were, and `wakesOnChange_step` says the rest. -/
theorem notableTransitionsWake : Obligations.NotableTransitionsWake := by
  intro x rest s t hin hx hstep
  have hstart := wakesOnChange_step hin hx hstep
  refine ⟨fun hwake hchange => ?_, fun hwake hmem => ?_⟩
  · obtain hmem | ⟨hstate, hconnected⟩ := hstart.notable hwake
    · exact hmem
    · exact absurd hchange (by simp [hstate, hconnected])
  · exact absurd (hstart.absent hwake hmem) List.not_mem_nil

end Sys2Proof.Machine

/-! ### A status broadcast in the receive buffer (41_frame_codec.md, R145 to R147; R171 to R174, R281) -/

namespace Sys2Proof.Machine

/-- Publication in any step: the status is written, and a new state wakes unless the step has woken already. -/
theorem publish_eq (st : DriveStatus) (s : State) : publish st s = { s with
    status := st
    events := s.events
      ++ if s.cfg.hasWake = true ∧ st.state ≠ s.status.state ∧ Out.wake ∉ s.events then [.wake] else [] } := by
  by_cases hwoken : Out.wake ∈ s.events
  · have hnone : emitWake { s with status := st } = { s with status := st } := if_neg fun hboth => hboth.2 hwoken
    rw [if_neg fun hall => hall.2.2 hwoken, List.append_nil, publish, hnone, ite_self]
  · simp only [publish_of_fresh hwoken, hwoken, not_false_eq_true, and_true]

/-- A frame with its own checksum is delivered (R142, R147). -/
theorem judge_frameBytes {P : List Byte} {s : State} (hmin : s.cfg.minFrameLen ≤ P.length + 4) (a f : Byte) :
    judge (frameBytes a f P) s
      = deliver ⟨a, f, P, crc16 (a :: f :: P)⟩ (frameBytes a f P) { s with crc := crc16 (a :: f :: P) } := by
  have hrun : decodeRun (frameBytes a f P) s = { s with crc := crc16 (a :: f :: P) } := by
    rw [decodeRun_of_long (by rwa [frameBytes_length]), frameBytes_eq_rawFrame, take_rawFrame, crcRun]
  rw [judge, decodeFrame_frameBytes hmin, hrun]

/-- A whole good frame at the front of the buffer is removed and delivered, whatever follows it (R146). -/
theorem rxScan_of_frameBytes {a f : Byte} {P rest : List Byte} {s : State} (hc : s.cfg.Legal)
    (hrxbuf : s.rxbuf = frameBytes a f P ++ rest)
    (hcomplete : classify s.cfg s.phase s.curKind s.rxbuf = .complete (P.length + 4)) :
    rxScan s = deliver ⟨a, f, P, crc16 (a :: f :: P)⟩ (frameBytes a f P)
      { s with crc := crc16 (a :: f :: P), rxbuf := rest } := by
  obtain ⟨-, hmin, -⟩ := classify_complete_bounds hc hcomplete
  have hlength := frameBytes_length a f P
  have hconsumed : consumed s.cfg.minFrameLen (frameBytes a f P) = P.length + 4 := by
    rw [consumed, decodeFrame_frameBytes hmin, ← hlength]
  rw [rxScan_of_complete hcomplete, hrxbuf, List.take_left' hlength, hconsumed, List.drop_left' hlength]
  exact judge_frameBytes (s := { s with rxbuf := rest }) hmin a f

/-- The header of a status broadcast (R170) makes it a complete candidate of 27 bytes, whatever follows it (R145). -/
theorem classify_status_broadcast {D : List Byte} (hlen : D.length = 18) (rest : List Byte) (c : Cfg) (phase : Phase)
    (kind : PollKind) :
    classify c phase kind (frameBytes 0x00 0x10 (0x9D :: 0x31 :: 0x00 :: 0x09 :: 0x12 :: D) ++ rest) = .complete 27 := by
  rw [classify_broadcast_iff rfl rfl]
  have hcount : 9 + (0x12 : Byte).toNat = 27 := by decide
  have hquantity : (0x12 : Byte).toNat = 2 * (joinBytes 0x00 0x09).toNat := by decide
  exact ⟨hcount.le.trans (by simp [hlen]), (by decide : (0x12 : Byte).toNat ≤ 250), hquantity, hcount.symm⟩

/-- The checks of R170. -/
theorem broadcastOk_iff {fr : Frame} : broadcastOk fr = true ↔ fr.function = 0x10 ∧ fr.payload.length = 23 ∧
    be16 fr.payload 0 = 0x9D31 ∧ be16 fr.payload 2 = 0x0009 ∧ byteAt fr.payload 4 = 0x12 := by
  simp [broadcastOk, and_assoc]

/-- The StatusDecoder on a status broadcast publishes registers 1 and 2 of its data, mapped (R170 to R174). -/
theorem statusDecoder_status_broadcast {D : List Byte} (hlen : D.length = 18) (sum : Word) (s : State) :
    statusDecoder ⟨0x00, 0x10, 0x9D :: 0x31 :: 0x00 :: 0x09 :: 0x12 :: D, sum⟩ s
      = publish ⟨posMap s.cfg (be16 D 2), stateMap s.cfg (be16 D 4)⟩ s := by
  have hstatus : broadcastOk ⟨0x00, 0x10, 0x9D :: 0x31 :: 0x00 :: 0x09 :: 0x12 :: D, sum⟩ = true :=
    broadcastOk_iff.mpr ⟨rfl, by simp [hlen], (by decide : joinBytes 0x9D 0x31 = 0x9D31),
      (by decide : joinBytes 0x00 0x09 = 0x0009), rfl⟩
  have hwords : broadcastWords (0x9D :: 0x31 :: 0x00 :: 0x09 :: 0x12 :: D) = wordsOf D :=
    congrArg wordsOf (List.take_of_length_le hlen.le)
  rw [statusDecoder_of_ok hstatus, hwords, wordsOf_getD D 1 (by omega), wordsOf_getD D 2 (by omega)]

/-- Settles O13: the frame is found, removed and delivered, and the StatusDecoder publishes it. -/
theorem rxScanAppliesBroadcast : Obligations.RxScanAppliesBroadcast := by
  intro D rest s hc hlen hrxbuf st
  have hcomplete : classify s.cfg s.phase s.curKind s.rxbuf = .complete 27 := by
    rw [hrxbuf, classify_status_broadcast hlen]
  have hscan := rxScan_of_frameBytes hc hrxbuf (by simpa [hlen] using hcomplete)
  refine congrArg Host.Outcome.next (hscan.trans ?_)
  rw [deliver, if_pos rfl, statusDecoder_status_broadcast hlen, publish_eq]

end Sys2Proof.Machine

/-! ### No input of the environment stops the machine (60_exceptions.md, R270, R291; R333) -/

namespace Sys2Proof.Machine

theorem step_of_decode_error {w : OpWord} {rest : List Input} {why : Reject} {s : State}
    (hin : s.inputs = .op w :: rest) (hw : decode s.cfg w = .error why) :
    step s = afterOp s (rejectedWord why (startStep rest s)) := by
  simp only [step, hin, hw]

/-- Every operation completes, so a word stops the machine only where it is refused. -/
theorem step_of_op_completes {w : OpWord} {rest : List Input} {s : State} (hin : s.inputs = .op w :: rest)
    (hrejected : ∀ why, decode s.cfg w = .error why → ∃ t, rejectedWord why (startStep rest s) = .next t) :
    ∃ t, step s = .next t := by
  cases hw : decode s.cfg w with
  | ok i =>
    obtain ⟨u, hu, -⟩ := exec_effect i (startStep rest s)
    exact ⟨_, by rw [step_of_decode hin hw, hu, afterOp]⟩
  | error why =>
    obtain ⟨u, hu⟩ := hrejected why hw
    exact ⟨_, by rw [step_of_decode_error hin hw, hu, afterOp]⟩

/-- Received bytes that are no candidate are dropped (R98). -/
theorem eq_droppedBytes_of_decodeRx {B : List Byte} {why : Reject} (h : decodeRx B = .error why) :
    why = .droppedBytes := by
  simp only [decodeRx] at h
  split_ifs at h
  exact (Except.error.inj h).symm

/-- The words of the environment that select no operation have an effect of their own: at an offset of the port there is no
refusal (R35, R36, R291). -/
theorem rejectedWord_of_external {c : Cfg} {w : OpWord} {why : Reject} (hw : w.external = true)
    (h : decode c w = .error why) (s : State) : ∃ t, rejectedWord why s = .next t := by
  cases w with
  | wireTx B => cases hw
  | wireRx B => cases hw
  | internal op operands => cases hw
  | event e => cases h
  | hostWrite offset data =>
    simp only [OpWord.external, Bool.or_eq_true, beq_iff_eq] at hw
    simp only [decode, decodeHostWrite] at h
    split_ifs at h with htwo hzero
    · cases h
      exact ⟨_, rfl⟩
    · exact absurd hw (not_or.mpr ⟨hzero, htwo⟩)
  | hostRead offset hi lo =>
    simp only [OpWord.external, Bool.or_eq_true, beq_iff_eq] at hw
    simp only [decode, decodeHostRead] at h
    split_ifs at h with hzero _ _ htwo
    · cases h
      exact ⟨_, rfl⟩
    · cases h
      exact ⟨_, rfl⟩
    · exact absurd hw (not_or.mpr ⟨hzero, htwo⟩)

/-- A host read of STATUS shows the word, whichever bits it selects (R35, R100). -/
theorem step_of_hostRead_status {hi lo : Nat} {rest : List Input} {s : State}
    (hin : s.inputs = .op (.hostRead 0 hi lo) :: rest) :
    ∃ u, step s = .next (endStep s (settle u)) ∧ Out.read (statusWord s) ∈ u.events := by
  have hdecode : decode s.cfg (.hostRead 0 hi lo) = decodeHostRead 0 hi lo := rfl
  rw [decodeHostRead, if_pos rfl] at hdecode
  split_ifs at hdecode
  · exact ⟨_, step_of_decode hin hdecode, List.mem_singleton_self _⟩
  · exact ⟨_, step_of_decode hin hdecode, List.mem_singleton_self _⟩
  · exact ⟨_, step_of_decode_error hin hdecode, List.mem_singleton_self _⟩

/-- Settles O53: each input completes, and what a read has shown stays among the step's outputs. -/
theorem eventsNeverStopTheMachine : Obligations.EventsNeverStopTheMachine := by
  refine ⟨fun x rest s hin hx => ?_, fun hi lo rest s hin => ?_⟩
  · cases x with
    | clk p => exact ⟨endStep s (clockEdge p (startStep rest s)), by simp only [step, hin]⟩
    | op w =>
      refine step_of_op_completes hin fun why hwhy => ?_
      obtain hw | ⟨B, hB⟩ := hx
      · exact rejectedWord_of_external hw hwhy _
      · cases hB
        obtain rfl := eq_droppedBytes_of_decodeRx hwhy
        exact ⟨_, rfl⟩
  · obtain ⟨u, hstep, hread⟩ := step_of_hostRead_status hin
    exact ⟨_, hstep, ((wakesOnChange_settle u).trans (wakesOnChange_endStep s _)).kept hread⟩

end Sys2Proof.Machine

/-! ### The reset step and the held reset (70_reset_and_hazards.md, R310, R313)

The reset table of R43 leaves the machine idle, with nothing received and both flags of `next_kind` down. With the cadence
at 0 the `settle` of the reset step takes T.TICK and no other line. While `rst_n` is low `settle` does not run (log 18):
the registers rest at the table and the clock shows at most the two words of the host port. -/

namespace Sys2Proof.Machine

/-! #### The reset step (R310) -/

/-- Reset takes both flags down that a policy may read, so every policy scans (R43, R203). -/
theorem nextKind_resetRegisters (s : State) : nextKind (resetRegisters s) = .busScan := by
  obtain ⟨hfirstTick, hfirstSuccess, hrescan⟩ := nextPollKindByPolicy (resetRegisters s)
  cases hpolicy : s.cfg.scanPolicy with
  | firstTickOnly => exact (hfirstTick hpolicy).mpr rfl
  | untilFirstSuccess => exact (hfirstSuccess hpolicy).mpr rfl
  | rescanOnDisconnect => exact (hrescan hpolicy).mpr rfl

/-- In `Sending`, with nothing received, no line of `settle` is enabled (R217). -/
theorem settled_of_sending {s : State} (h : s.phase = .sending) (hrxbuf : s.rxbuf = []) : Settled s := by
  simp [settled_iff, scanEnabled, h, hrxbuf]

/-- Between polls, with an empty buffer and the cadence over, `settle` is one T.TICK (R202, R217). -/
theorem settle_of_cadence_over {s : State} (h : s.phase = .idle) (hrxbuf : s.rxbuf = []) (hcadence : s.cadenceTimer = 0) :
    settle s = tick s := by
  have hline : settleLine s = some (tick s) := by simp [settleLine, scanEnabled, h, hrxbuf, hcadence]
  have hsettled : Settled (tick s) := by
    rw [tick_effect h hcadence]
    exact settled_of_sending rfl rfl
  rw [settle_of_settleLine hline, settle_of_settled hsettled]

/-- Settles O48: the `settle` of the reset step is one T.TICK of the reset table, whose slot is empty. -/
theorem resetStepSendsBusScan : Obligations.ResetStepSendsBusScan := by
  intro rest s hin hdelay
  have hidle : (resetRegisters (startStep rest s)).phase = .idle := rfl
  have hcadence : (resetRegisters (startStep rest s)).cadenceTimer = 0 := hdelay
  have hsettle := (settle_of_cadence_over hidle rfl hcadence).trans (tick_effect hidle hcadence)
  obtain ⟨hframe, -⟩ := memWrite_pollFrame (wf_reset_txbuf s.cfg) s.cfg .busScan 0
  refine ⟨endStep s (settle (resetRegisters (startStep rest s))), step_of_decode hin rfl, ?_⟩
  simp only [endStep_phase, endStep_de, endStep_curKind, endStep_firstSent, endStep_cadenceTimer, endStep_txbuf,
    endStep_txlen, endStep_inputs, hsettle, nextKind_resetRegisters, true_and]
  exact ⟨rfl, hframe, rfl⟩

/-! #### The held reset (R313) -/

/-- Outputs that only show a word of the host port: none of them is an event output (R35, R36, R38). -/
def WordsOnly (A : List Out) : Prop := ∀ o ∈ A, (∃ w, o = .read w) ∨ ∃ w, o = .status w

theorem WordsOnly.wake_not_mem {A : List Out} (h : WordsOnly A) : Out.wake ∉ A := by
  intro hmem
  obtain ⟨w, hw⟩ | ⟨w, hw⟩ := h _ hmem <;> cases hw

theorem WordsOnly.driveActionOf_eq_none {A : List Out} (h : WordsOnly A) : driveActionOf A = none := by
  induction A with
  | nil => rfl
  | cons o A ih =>
    obtain ⟨hhead, htail⟩ := List.forall_mem_cons.mp h
    obtain ⟨w, rfl⟩ | ⟨w, rfl⟩ := hhead <;> exact ih htail

theorem wordsOnly_emit {o : Out} {s : State} (h : WordsOnly s.events)
    (ho : (∃ w, o = .read w) ∨ ∃ w, o = .status w) : WordsOnly (emit o s).events :=
  List.forall_mem_append.mpr ⟨h, List.forall_mem_singleton.mpr ho⟩

theorem wordsOnly_hostRead {s : State} (h : WordsOnly s.events) (p : PinsIn) : WordsOnly (hostRead p s).events := by
  unfold hostRead
  split
  · exact wordsOnly_emit h (.inl ⟨_, rfl⟩)
  · exact h

theorem wordsOnly_endStep {s : State} (h : WordsOnly s.events) (before : State) :
    WordsOnly (endStep before s).events := by
  unfold endStep
  split
  · exact h
  · exact wordsOnly_emit h (.inr ⟨_, rfl⟩)

/-- A clock with `rst_n` low is one read of the reset table through the host port, whatever the other pins are (R310, R313). -/
theorem step_of_held_reset {p : PinsIn} {rest : List Input} {s : State} (hin : s.inputs = .clk p :: rest)
    (hrst : p.rstN = false) : step s = .next (endStep s (hostRead p (resetRegisters (startStep rest s)))) := by
  simp only [step, hin, clockEdge, hrst, Bool.false_eq_true, if_false, resetEdge]

/-- The STATUS word of the reset table: not connected, no position, door state unknown (R35, R43). -/
theorem statusWord_resetRegisters (s : State) : statusWord (resetRegisters s) = 0x0400 :=
  (by decide : statusWordOf false ⟨0, .unknown⟩ = 0x0400)

/-- Settles O49: a read through the port changes no register of the reset table, and its outputs are `WordsOnly`. -/
theorem heldResetDrivesPins : Obligations.HeldResetDrivesPins := by
  intro p rest s hin hrst
  have hstart : WordsOnly (resetRegisters (startStep rest s)).events := List.forall_mem_nil _
  have hwords := wordsOnly_endStep (wordsOnly_hostRead hstart p) s
  refine ⟨_, step_of_held_reset hin hrst, ?_, ?_, ?_, hwords.wake_not_mem, hwords.driveActionOf_eq_none, ?_, ?_⟩
  · rw [endStep_uart, hostRead_uart]; rfl
  · rw [endStep_de, hostRead_de]; rfl
  · rw [endStep_errQueue, hostRead_errQueue]; rfl
  · rw [statusWord, endStep_connected, endStep_status, hostRead_connected, hostRead_status]
    exact statusWord_resetRegisters _
  · rw [endStep_actionSlot, hostRead_actionSlot]; rfl

end Sys2Proof.Machine
